-- ==== Sys2Proof/Word.lean ====
section
/-! DEFINITION. Widths of the HTB's data (spec/00_scope.md R7, R9): bytes, 32-bit words, 9-bit arena indices. -/

namespace Sys2Proof

/-- A symbol or a buffer byte (R9). -/
abbrev Byte := BitVec 8

/-- A u32: a register, a count, a command word (R7, R9, R90). -/
abbrev Word := BitVec 32

/-- An arena index (R7): 9 bits, 0..510 or NONE. -/
abbrev Index := BitVec 9

/-- `NONE` = 0x1FF, the one index no node has (R7). -/
abbrev Index.none : Index := 0x1FF#9

/-- The internal-node marker 0x100 of the 9-bit symbol field (R7). -/
abbrev internalMark : BitVec 9 := 0x100#9

/-- A byte offset into the 64 KiB host window (spec/20_memory.md R60). -/
abbrev Offset := BitVec 16

end Sys2Proof
end

