-- ==== Sys2Proof/Syntax.lean ====
section
/-! DEFINITION. The commands of the HTB: one constructor per row of spec/opcode_table.json, in the table's order
(spec/30_encoding.md R91). No command has an operand but DECODE's LAST bit (R94). -/

namespace Sys2Proof

/-- A command (R91). -/
inductive Instr where
  /-- NOP, 0x00 (R124). -/
  | nop
  /-- CLEAR, 0x01 (R125). -/
  | clear
  /-- COUNT, 0x02 (R140). -/
  | count
  /-- BUILD, 0x03 (R150). -/
  | build
  /-- GENCODES, 0x04 (R170). -/
  | genCodes
  /-- HDR_EMIT, 0x05 (R180). -/
  | hdrEmit
  /-- HDR_LOAD, 0x06 (R200). -/
  | hdrLoad
  /-- ENCODE, 0x07 (R182). -/
  | encode
  /-- FLUSH, 0x08 (R190). -/
  | flush
  /-- DECODE, 0x09, with the LAST bit (R204). -/
  | decode (last : Bool)
deriving DecidableEq, Repr

end Sys2Proof
end

