-- ==== Sys2Proof/WellFormed.lean ====
section
/-! DEFINITION. The fields of a command word (spec/30_encoding.md R90) and the checks that make one legal (R93). Every
term of Instr is a legal command; what can be ill-formed is a word's fields, so the checks stand on them. -/

namespace Sys2Proof

/-- The three fields of R90: OPCODE [7:0], LAST [8], RSVD [31:9]. -/
structure CommandFields where
  opcode : Byte
  last : Bool
  rsvd : BitVec 23
deriving DecidableEq, Repr

namespace CommandFields

/-- RSVD must be 0 (R90, R93). -/
def rsvdClear (c : CommandFields) : Bool := c.rsvd == 0#23

/-- OPCODE is one of the ten of R91; 0x0A..0xFF are reserved (R93). -/
def opcodeAssigned (c : CommandFields) : Bool := decide (c.opcode.toNat ≤ 0x09)

/-- LAST may be 1 only for DECODE (R90, R93). -/
def lastAllowed (c : CommandFields) : Bool := !c.last || c.opcode == 0x09#8

/-- A legal command (R93). -/
def wellFormed (c : CommandFields) : Bool := c.rsvdClear && c.opcodeAssigned && c.lastAllowed

end CommandFields

end Sys2Proof
end

