-- ==== Sys2Proof/Decode.lean ====
section
/-! DEFINITION. Command words: the decoder of spec/30_encoding.md R92, total on every 32-bit word and rejecting by name,
the encoder, written from R90 and R91, and the rows of the opcode table. -/

namespace Sys2Proof

/-- Why a word is Invalid (R92, R93): the first check of R92 that fails. -/
inductive Invalid where
  /-- RSVD [31:9] is not 0. -/
  | reservedBits
  /-- LAST = 1 with an OPCODE other than DECODE's. -/
  | lastNotDecode
  /-- OPCODE 0x0A..0xFF. -/
  | reservedOpcode
deriving DecidableEq, Repr

/-- The fields of a word (R90). -/
def commandFields (w : Word) : CommandFields :=
  ⟨w.extractLsb' 0 8, w.getLsbD 8, w.extractLsb' 9 23⟩

/-- The word with the given fields (R90). -/
def commandWord (c : CommandFields) : Word := c.rsvd ++ (BitVec.ofBool c.last ++ c.opcode)

/-- The row of R91 for OPCODE 0x00..0x08. -/
def plainCommand (opcode : Byte) : Option Instr :=
  match opcode.toNat with
  | 0x00 => some .nop
  | 0x01 => some .clear
  | 0x02 => some .count
  | 0x03 => some .build
  | 0x04 => some .genCodes
  | 0x05 => some .hdrEmit
  | 0x06 => some .hdrLoad
  | 0x07 => some .encode
  | 0x08 => some .flush
  | _ => none

/-- `decode` of R92, in its order of checks. -/
def decode (w : Word) : Except Invalid Instr :=
  let c := commandFields w
  if c.rsvd ≠ 0#23 then .error .reservedBits
  else if c.opcode = 0x09#8 then .ok (.decode c.last)
  else if c.last then .error .lastNotDecode
  else match plainCommand c.opcode with
    | some i => .ok i
    | none => .error .reservedOpcode

/-- OPCODE of a command (R91). -/
def opcodeOf : Instr → Byte
  | .nop => 0x00
  | .clear => 0x01
  | .count => 0x02
  | .build => 0x03
  | .genCodes => 0x04
  | .hdrEmit => 0x05
  | .hdrLoad => 0x06
  | .encode => 0x07
  | .flush => 0x08
  | .decode _ => 0x09

/-- LAST of a command: DECODE's own bit, 0 for every other (R90). -/
def lastOf : Instr → Bool
  | .nop => false
  | .clear => false
  | .count => false
  | .build => false
  | .genCodes => false
  | .hdrEmit => false
  | .hdrLoad => false
  | .encode => false
  | .flush => false
  | .decode last => last

/-- The word of a command (R90, R91). -/
def encode (i : Instr) : Word := commandWord ⟨opcodeOf i, lastOf i, 0#23⟩

/-- OPCODE of any word, legal or not: what LAST_OP records (40_control.md R121). -/
def opcodeByte (w : Word) : Byte := w.extractLsb' 0 8

/-- The one word that runs while ERR ≠ 0 (40_control.md R123). -/
def clearWord : Word := 0x00000001#32

/-- A row of the opcode table (R91): the words w with `w &&& mask = value` are the row's. -/
structure OpcodeRow where
  mnemonic : String
  value : Word
  mask : Word
deriving DecidableEq, Repr

/-- The row of each command, as R91 gives it. -/
def opcodeRow : Instr → OpcodeRow
  | .nop => ⟨"NOP", 0x00000000, 0xFFFFFFFF⟩
  | .clear => ⟨"CLEAR", 0x00000001, 0xFFFFFFFF⟩
  | .count => ⟨"COUNT", 0x00000002, 0xFFFFFFFF⟩
  | .build => ⟨"BUILD", 0x00000003, 0xFFFFFFFF⟩
  | .genCodes => ⟨"GENCODES", 0x00000004, 0xFFFFFFFF⟩
  | .hdrEmit => ⟨"HDR_EMIT", 0x00000005, 0xFFFFFFFF⟩
  | .hdrLoad => ⟨"HDR_LOAD", 0x00000006, 0xFFFFFFFF⟩
  | .encode => ⟨"ENCODE", 0x00000007, 0xFFFFFFFF⟩
  | .flush => ⟨"FLUSH", 0x00000008, 0xFFFFFFFF⟩
  | .decode _ => ⟨"DECODE", 0x00000009, 0xFFFFFEFF⟩

/-- A word belongs to a row (R91). -/
def OpcodeRow.covers (r : OpcodeRow) (w : Word) : Bool := w &&& r.mask == r.value

/-- The command that the table's numbering of an instruction's bits gives: the low `nbits` bits of w, zeros above
(R90: every command word is exactly 32 bits, so bits from 32 up must be 0). -/
def decodeTableWord (nbits w : Nat) : Option Instr :=
  if w % 2 ^ nbits < 2 ^ 32 then
    match decode (BitVec.ofNat 32 (w % 2 ^ nbits)) with
    | .ok i => some i
    | .error _ => none
  else none

end Sys2Proof
end

