-- ==== Sys2Proof/Config.lean ====
section
/-! DEFINITION. What a build fixes (spec/00_scope.md R6: the two buffer sizes) and the free values (the "draws" of
spec/20_memory.md R66, R71), which are constants without a body: nothing can be proved of their values. -/

namespace Sys2Proof

/-- The values R6 allows for a buffer size: a multiple of 4 in 1028..16384. -/
abbrev Config.SizeOk (n : Nat) : Prop := 1028 ≤ n ∧ n ≤ 16384 ∧ n % 4 = 0

/-- The two model parameters of R6, with the proof that they are legal (assumption log 4). -/
structure Config where
  ibufBytes : Nat
  obufBytes : Nat
  ibufOk : Config.SizeOk ibufBytes
  obufOk : Config.SizeOk obufBytes
deriving DecidableEq, Repr

/-- The default build of R6: 4096 bytes each. DESIGN CHOICE (log 4): State.reset is this build's. -/
def Config.default : Config := ⟨4096, 4096, by decide, by decide⟩

/-- What the n-th read of a byte nothing has written gives: a draw (20_memory.md R71; 93 U2). Log 3. -/
opaque Config.freeByte : Nat → Byte

/-- What the n-th read of a register while BUSY = 1 gives: a draw (20_memory.md R66; 93 U3, U4). Log 3. -/
opaque Config.freeWord : Nat → Word

end Sys2Proof
end

