-- ==== Sys2Proof/Machine/State.lean ====
section
/-! DEFINITION. The HTB's state (spec/10_state.md R20-R57) as plain data, the reset state (spec/70_reset_and_hazards.md
R250), and the model's own fields that say what the host does and sees (INVENTORY.md, "State"). -/

namespace Sys2Proof.Machine

/-- ERR codes (spec/60_exceptions.md R220); 0x0B..0xFF are never produced (93 U7). -/
inductive ErrCode where
  /-- 0x00: no error since the last clear. -/
  | none
  /-- 0x01: the word is Invalid (R122). -/
  | badCmd
  /-- 0x02: out of phase (R130), or a write to a frozen table (R224). -/
  | seq
  /-- 0x03: a position or length out of range (R132). -/
  | bounds
  /-- 0x04: a truncated header or a wrong sum (R154, R201). -/
  | corruptHeader
  /-- 0x05: the bits run out before TOTAL symbols (R207). -/
  | truncatedPayload
  /-- 0x06: a count would exceed 2^32 - 1 (R141). -/
  | countOverflow
  /-- 0x07: the byte has no code (R183). -/
  | noCode
  /-- 0x08: more than TOTAL symbols (R183). -/
  | excessSymbol
  /-- 0x09: FLUSH with ENC_COUNT ≠ TOTAL (R191). -/
  | incomplete
  /-- 0x0A: a host write dropped while BUSY = 1 (R223). -/
  | busyWrite
deriving DecidableEq, Repr

/-- STOP (spec/10_state.md R24): how the last command ended; values 6 and 7 are never produced (93 U8). -/
inductive Stop where
  /-- 0: no command since reset. -/
  | none
  /-- 1 -/
  | done
  /-- 2 -/
  | inEmpty
  /-- 3 -/
  | outFull
  /-- 4 -/
  | error
  /-- 5 -/
  | refused
deriving DecidableEq, Repr

/-- A node of the arena (spec/10_state.md R40). -/
structure Entry where
  inUse : Bool
  isLeaf : Bool
  sym : BitVec 9
  f : Word
  left : Index
  right : Index
  parent : Index
  side : Bool
deriving DecidableEq, Repr

/-- The cleared entry (R40). -/
def Entry.cleared : Entry := ⟨false, false, internalMark, 0, Index.none, Index.none, Index.none, false⟩

/-- The width of a host access (spec/20_memory.md R62): only `word` is legal. -/
inductive Width where
  /-- 32 bits, all byte strobes. -/
  | word
  /-- 16 bits. -/
  | half
  /-- 8 bits. -/
  | byte
  /-- a write with only some of its four byte strobes. -/
  | strobed
deriving DecidableEq, Repr

/-- A host access to a window offset (R62). -/
inductive Access where
  | read (a : Offset) (w : Width)
  | write (a : Offset) (w : Width) (v : Word)
deriving DecidableEq, Repr

/-- What happens next (spec/40_control.md R120; spec/70_reset_and_hazards.md R250). Log 1. -/
inductive Event where
  /-- The host makes an access. -/
  | host (x : Access)
  /-- The engine has the turn: its completion step, if one is enabled. -/
  | engine
  /-- The platform asserts the reset input. -/
  | reset
deriving DecidableEq, Repr

/-- What the bus answers to an access (R64): the data of a read (0 for a write and for an error), and the error response. -/
structure Response where
  data : Word
  error : Bool
deriving DecidableEq, Repr

/-- A host-side fault, as R64 has a model record it. -/
inductive HostFault where
  /-- `BusError(a)`: a misaligned, narrow or reserved access to offset a. -/
  | busError (a : Offset)
deriving DecidableEq, Repr

/-- What stops the machine. All three are safe: each stops the model where the spec says that no run comes (log 10). -/
inductive Fault where
  /-- Raised by GENCODES and DECODE when a node index leaves the arena or a symbol leaves the code store, which
  20_memory.md R61 says no engine access does. Safe. -/
  | outsideStore
  /-- Raised by GENCODES when a walk has not met ROOT after 255 steps, and by a loop whose bound is used up, where
  40_control.md R133 says that every loop ends. Safe. -/
  | noTermination
  /-- Raised by ENCODE and DECODE when ENC_COUNT, ENC_BITS or DEC_COUNT would wrap, which 00_scope.md R10 says a model
  must not define. Safe. -/
  | counterWrap
deriving DecidableEq, Repr

/-- Why the model gives an instruction no meaning. -/
inductive Refusal where
  /-- An arm of exec without a meaning yet. No arm is left so; safe. -/
  | notModelled (mnemonic : String)
deriving DecidableEq, Repr

/-- The machine (R57). BUSY, DEC_DONE, CODE_LEN and every view register are computed (logs 5, 6). -/
structure State where
  /-- IBUF_BYTES and OBUF_BYTES (R6, R29). -/
  cfg : Config
  /-- FREQ[0..255] (R51). -/
  freq : Vector Word 256
  /-- TOTAL (R34). -/
  total : Word
  /-- TREE_VALID (R52). -/
  treeValid : Bool
  /-- CODES_VALID (R52). -/
  codesValid : Bool
  /-- ENC_CLOSED (R52). -/
  encClosed : Bool
  /-- NSYM (R35). -/
  nsym : BitVec 9
  /-- ROOT (R36). -/
  root : Index
  /-- node[0..510] (R40). -/
  node : Vector Entry 511
  /-- CODE_BITS[0..255], nearest the root first; CODE_LEN is the length (R47). -/
  code : Vector (List Bool) 256
  /-- ACC_BITS (R37). -/
  accBits : Byte
  /-- ACC_N (R37). -/
  accN : BitVec 3
  /-- ENC_COUNT (R38). -/
  encCount : Word
  /-- ENC_BITS (R39). -/
  encBits : BitVec 64
  /-- DEC_NODE (R41). -/
  decNode : Index
  /-- DEC_COUNT (R42). -/
  decCount : Word
  /-- IN_LEN (R30). -/
  inLen : BitVec 15
  /-- IPOS (R31). -/
  ipos : BitVec 15
  /-- IBITPOS (R32). -/
  ibitpos : BitVec 18
  /-- OUT_LEN (R33). -/
  outLen : BitVec 15
  /-- NODE_SEL (R43). -/
  nodeSel : BitVec 9
  /-- CODE_SEL (R48). -/
  codeSel : Byte
  /-- IBUF: the written bytes by rising index (20_memory.md R67, R70). -/
  ibuf : List Host.Cell
  /-- OBUF: the written bytes by rising index (20_memory.md R68, R70). -/
  obuf : List Host.Cell
  /-- ERR (R53). -/
  err : ErrCode
  /-- STOP (R53). -/
  stop : Stop
  /-- LAST_OP (R53). -/
  lastOp : Byte
  /-- IRQ_EN: [0] DONE_IE, [1] ERR_IE (R27). -/
  irqEn : BitVec 2
  /-- IRQ_STAT: [0] DONE, [1] ERR (R28). -/
  irqStat : BitVec 2
  /-- PENDING; BUSY = 1 exactly when it holds a word (R54). -/
  pending : Option Word
  /-- The model's own: what happens next, first event first (log 1). -/
  timeline : List Event
  /-- The model's own: the answer to the last host access (log 7). -/
  response : Option Response
  /-- The model's own: the host-side faults recorded, newest first (log 7). -/
  busFaults : List HostFault
  /-- The model's own: how many draws have been taken (log 3). -/
  draws : Nat
deriving DecidableEq, Repr

/-- The state right after reset of a build (R250), with the model's own fields empty (log 16). -/
def State.resetWith (c : Config) : State where
  cfg := c
  freq := Vector.replicate 256 0
  total := 0
  treeValid := false
  codesValid := false
  encClosed := false
  nsym := 0
  root := Index.none
  node := Vector.replicate 511 Entry.cleared
  code := Vector.replicate 256 []
  accBits := 0
  accN := 0
  encCount := 0
  encBits := 0
  decNode := Index.none
  decCount := 0
  inLen := 0
  ipos := 0
  ibitpos := 0
  outLen := 0
  nodeSel := 0
  codeSel := 0
  ibuf := []
  obuf := []
  err := .none
  stop := .none
  lastOp := 0
  irqEn := 0
  irqStat := 0
  pending := none
  timeline := []
  response := none
  busFaults := []
  draws := 0

/-- The state right after reset (R250), of the default build (R6; log 4). -/
def State.reset : State := State.resetWith Config.default

end Sys2Proof.Machine
end

