-- ==== Sys2Proof/Machine/Ops.lean ====
section
/-! DEFINITION. The named operations every command and every host access is written over: buffers, draws, the symbol
tables, output, the engine's loops, recording an error (`raise`) and leaving the error state. -/

namespace Sys2Proof.Machine

/-! ### Buffers (spec/20_memory.md R67, R68, R70, R71) -/

/-- Byte a of a buffer, or none if nothing has written it since reset (R71). -/
def Memory.read : List Host.Cell → Nat → Option Byte
  | [], _ => none
  | (k, b) :: m, a => if k = a then some b else Memory.read m a

/-- Write byte a of a buffer, which marks it written (R70); the list stays rising. -/
def Memory.write : List Host.Cell → Nat → Byte → List Host.Cell
  | [], a, b => [(a, b)]
  | (k, c) :: m, a, b =>
    if a < k then (a, b) :: (k, c) :: m
    else if a = k then (a, b) :: m
    else (k, c) :: Memory.write m a b

/-- Write bytes at a, a + 1, … -/
def Memory.writeList : List Host.Cell → Nat → List Byte → List Host.Cell
  | m, _, [] => m
  | m, a, b :: bs => Memory.writeList (Memory.write m a b) (a + 1) bs

/-- The canonical form of a buffer of n bytes: indices strictly rising and below n. An unlisted byte reads as unwritten,
which no listed byte does. -/
abbrev Memory.wf (n : Nat) (m : List Host.Cell) : Prop :=
  m.Pairwise (fun x y => x.1 < y.1) ∧ ∀ x ∈ m, x.1 < n

/-! ### Draws (R66, R71; log 3) -/

/-- The next free byte, and the state that has taken it. -/
def drawByte (s : State) : Byte × State :=
  (Config.freeByte s.draws, { s with draws := s.draws + 1 })

/-- The next free word, and the state that has taken it. -/
def drawWord (s : State) : Word × State :=
  (Config.freeWord s.draws, { s with draws := s.draws + 1 })

/-- A buffer byte as a read sees it: its value, or a draw if unwritten (R71). -/
def byteOrDraw (b : Option Byte) (s : State) : Byte × State :=
  match b with
  | some v => (v, s)
  | none => drawByte s

/-! ### Tables indexed by symbol (10_state.md R47, R51) -/

/-- Entry b of a table. -/
def symGet {α : Type} (t : Vector α 256) (b : Byte) : α := t[b.toNat]'b.isLt

/-- Write entry b of a table. -/
def symSet {α : Type} (t : Vector α 256) (b : Byte) (x : α) : Vector α 256 := t.set b.toNat x b.isLt

/-- The n entries that begin with the list's and go on with x. -/
def padded {α : Type} (n : Nat) (l : List α) (x : α) : Vector α n := ⟨⟨(l ++ List.replicate n x).take n⟩, by simp⟩

/-- `Σ_{s=0..255} FREQ[s]`, an exact natural (42_tree_build.md R150; 30_encoding.md R105). -/
def freqSum (t : Vector Word 256) : Nat := (t.toList.map (fun f => f.toNat)).sum

/-! ### Counters that must not wrap (00_scope.md R10; log 10) -/

/-- x + k, or none where the field cannot hold it. -/
def bump {n : Nat} (x : BitVec n) (k : Nat) : Option (BitVec n) :=
  if x.toNat + k < 2 ^ n then some (BitVec.ofNat n (x.toNat + k)) else none

/-! ### Errors (spec/60_exceptions.md R222, R228, R229) -/

/-- What `raise E` records (R222): ERR and IRQ_STAT[1], only if ERR was 0. This is the HTB's whole exception entry (R228). -/
def recordErr (e : ErrCode) (s : State) : State :=
  { s with
    err := if s.err = .none then e else s.err
    irqStat := if s.err = .none then s.irqStat ||| 0b10#2 else s.irqStat }

/-- Leaving the error state by ERR_CLR (R26, R229): ERR alone. -/
def clearErr (s : State) : State := { s with err := .none }

/-- A command's body ends with a state and a STOP value. -/
abbrev Result := Host.Outcome (State × Stop) Fault Refusal

/-- `stop S` (00_scope.md R11): end the command without an error. -/
def stopWith (w : Stop) (s : State) : Result := .next (s, w)

/-- `raise E` (R222): end the command with STOP = ERROR. -/
def raise (e : ErrCode) (s : State) : Result := .next (recordErr e s, .error)

/-! ### The loops inside a command (40_control.md R133) -/

/-- One turn of a loop. -/
inductive Turn where
  /-- Go on from this state. -/
  | again (s : State)
  /-- End the command here. -/
  | ends (s : State) (w : Stop)
  /-- Stop the machine. -/
  | faults (f : Fault)
deriving DecidableEq, Repr

/-- `raise E` inside a loop. -/
def Turn.raise (e : ErrCode) (s : State) : Turn := .ends (recordErr e s) .error

/-- Take at most n turns. Every loop of the HTB ends (R133), so a used-up bound is a fault (log 10). -/
def loop (turn : State → Turn) : Nat → State → Result
  | 0, _ => .fault .noTermination
  | n + 1, s =>
    match turn s with
    | .again s' => loop turn n s'
    | .ends s' w => .next (s', w)
    | .faults f => .fault f

/-! ### Output (00_scope.md R11 `emit`; 44_encoder.md R184 `putbit`) -/

/-- `emit(b)`: OBUF[OUT_LEN] <- b, OUT_LEN <- OUT_LEN + 1. -/
def emit (b : Byte) (s : State) : State :=
  { s with obuf := Memory.write s.obuf s.outLen.toNat b, outLen := s.outLen + 1 }

/-- `emit` for each byte in order. -/
def emitAll : List Byte → State → State
  | [], s => s
  | b :: bs, s => emitAll bs (emit b s)

/-- b with bit k set to x. -/
def withBit (b : Byte) (k : Nat) (x : Bool) : Byte :=
  (b &&& ~~~(1#8 <<< k)) ||| ((BitVec.ofBool x).setWidth 8 <<< k)

/-- `putbit(x)` (R184). -/
def putbit (x : Bool) (s : State) : State :=
  let acc := withBit s.accBits (7 - s.accN.toNat) x
  if s.accN = 7 then { emit acc s with accBits := 0, accN := 0 }
  else { s with accBits := acc, accN := s.accN + 1 }

/-- `putbit` for each bit in order. -/
def putbits : List Bool → State → State
  | [], s => s
  | x :: xs, s => putbits xs (putbit x s)

/-! ### The frame of the completion step (40_control.md R121) -/

/-- The last three lines of R121: STOP, IRQ_STAT[0], BUSY and PENDING. -/
def finish (w : Stop) (s : State) : State :=
  { s with stop := w, irqStat := s.irqStat ||| 0b01#2, pending := none }

/-- R121 for the word w: LAST_OP, the refusal of R123, else `body`, then the last three lines. -/
def completion (w : Word) (body : State → Result) (s : State) : Host.Outcome State Fault Refusal :=
  let s0 := { s with lastOp := opcodeByte w }
  match (if s.err ≠ .none ∧ w ≠ clearWord then stopWith .refused s0 else body s0) with
  | .next (s', st) => .next (finish st s')
  | .fault f => .fault f
  | .refused r => .refused r

end Sys2Proof.Machine
end

