-- ==== Sys2Proof/Machine/Operands.lean ====
section
/-! DEFINITION. The operand forms of the commands: bytes, bits and little-endian words of IBUF, bytes of a word, the header
(spec/30_encoding.md R103, R104), arena entries (spec/10_state.md R40). -/

namespace Sys2Proof.Machine

/-- Byte j of a word, byte 0 least significant (20_memory.md R67, R69; 30_encoding.md R104). -/
def byteOf (w : Word) (j : Nat) : Byte := w.extractLsb' (8 * j) 8

/-- The four bytes of a word, least significant first (R67, R104). -/
def bytesOf (w : Word) : List Byte := [byteOf w 0, byteOf w 1, byteOf w 2, byteOf w 3]

/-- The word of four bytes, least significant first (R67, R200). -/
def wordOf (b0 b1 b2 b3 : Byte) : Word := b3 ++ (b2 ++ (b1 ++ b0))

/-- IBUF[p] as the engine reads it (00_scope.md R11). -/
def readIbuf (p : Nat) (s : State) : Byte × State := byteOrDraw (Memory.read s.ibuf p) s

/-- OBUF[p] as the host reads it. -/
def readObuf (p : Nat) (s : State) : Byte × State := byteOrDraw (Memory.read s.obuf p) s

/-- Bit k of a byte of a stream, first bit the most significant (R103). -/
def streamBit (b : Byte) (k : Nat) : Bool := b.getLsbD (7 - k)

/-- `bit(p) = IBUF[p div 8][7 − (p mod 8)]` (R103; 00_scope.md R11). -/
def readBit (p : Nat) (s : State) : Bool × State :=
  let (b, s1) := readIbuf (p / 8) s
  (streamBit b (p % 8), s1)

/-- The little-endian u32 at IBUF[p .. p+3] (45_decoder.md R200). -/
def readWord (p : Nat) (s : State) : Word × State :=
  let (b0, s0) := readIbuf p s
  let (b1, s1) := readIbuf (p + 1) s0
  let (b2, s2) := readIbuf (p + 2) s1
  let (b3, s3) := readIbuf (p + 3) s2
  (wordOf b0 b1 b2 b3, s3)

/-- n words from IBUF[p] on. -/
def readWords : Nat → Nat → State → List Word × State
  | 0, _, s => ([], s)
  | n + 1, p, s =>
    let (w, s1) := readWord p s
    let (ws, s2) := readWords n (p + 4) s1
    (w :: ws, s2)

/-- The table whose first entries are the list's, the rest 0. -/
def tableOf (l : List Word) : Vector Word 256 := padded 256 l 0

/-- The 1028 bytes of the header (R104): FREQ[0..255], then TOTAL, each little-endian. -/
def headerBytes (t : Vector Word 256) (total : Word) : List Byte :=
  (t.toList ++ [total]).flatMap bytesOf

/-- The size of the header (R104). -/
def headerSize : Nat := 1028

/-- node[x], or none where x is no index of the arena (10_state.md R40). -/
def entryAt (a : Vector Entry 511) (x : Index) : Option Entry :=
  if h : x.toNat < 511 then some a[x.toNat] else none

end Sys2Proof.Machine
end

