-- ==== Sys2Proof/Machine/Flags.lean ====
section
/-! DEFINITION. The flags of the HTB (spec/10_state.md R59: STATUS [4:0], IRQ_STAT), the codes STATUS shows, the irq
output, and the phase and bounds conditions of the commands (spec/40_control.md R130, R132). -/

namespace Sys2Proof.Machine

/-- BUSY (10_state.md R24, R54). -/
def State.busy (s : State) : Bool := s.pending.isSome

/-- DEC_DONE (R24): `TREE_VALID = 1 and DEC_COUNT = TOTAL`. -/
def State.decDone (s : State) : Bool := s.treeValid && s.decCount == s.total

/-- The irq output (60_exceptions.md R230). -/
def State.irq (s : State) : Bool :=
  (s.irqStat.getLsbD 0 && s.irqEn.getLsbD 0) || (s.irqStat.getLsbD 1 && s.irqEn.getLsbD 1)

/-- The 8-bit code of an error (60_exceptions.md R220). -/
def ErrCode.code : ErrCode → Byte
  | .none => 0x00
  | .badCmd => 0x01
  | .seq => 0x02
  | .bounds => 0x03
  | .corruptHeader => 0x04
  | .truncatedPayload => 0x05
  | .countOverflow => 0x06
  | .noCode => 0x07
  | .excessSymbol => 0x08
  | .incomplete => 0x09
  | .busyWrite => 0x0A

/-- The 3-bit value of STOP (10_state.md R24). -/
def Stop.code : Stop → BitVec 3
  | .none => 0
  | .done => 1
  | .inEmpty => 2
  | .outFull => 3
  | .error => 4
  | .refused => 5

/-- STATUS (10_state.md R24), most significant field first: LAST_OP, ERR, [15:11] = 0, STOP, [7:5] = 0, DEC_DONE,
ENC_CLOSED, CODES_VALID, TREE_VALID, BUSY. -/
def State.statusWord (s : State) : Word :=
  s.lastOp ++ (s.err.code ++ (0#5 ++ (s.stop.code ++ (0#3 ++ (BitVec.ofBool s.decDone ++
    (BitVec.ofBool s.encClosed ++ (BitVec.ofBool s.codesValid ++ (BitVec.ofBool s.treeValid ++
      BitVec.ofBool s.busy))))))))

/-- The phase condition of each command (R130). -/
def phaseOK : Instr → State → Bool
  | .nop, _ => true
  | .clear, _ => true
  | .count, s => !s.treeValid
  | .hdrLoad, s => !s.treeValid
  | .build, s => !s.treeValid
  | .genCodes, s => s.treeValid && !s.codesValid
  | .hdrEmit, s => s.treeValid && s.encCount == 0 && !s.encClosed
  | .encode, s => s.codesValid && !s.encClosed
  | .flush, s => s.codesValid && !s.encClosed
  | .decode _, s => s.treeValid

/-- `IN_LEN ≤ IBUF_BYTES and IPOS ≤ IN_LEN` (R132). -/
def inputInRange (s : State) : Bool :=
  decide (s.inLen.toNat ≤ s.cfg.ibufBytes ∧ s.ipos.toNat ≤ s.inLen.toNat)

/-- `OUT_LEN ≤ OBUF_BYTES` (R132). -/
def outputInRange (s : State) : Bool := decide (s.outLen.toNat ≤ s.cfg.obufBytes)

/-- `IN_LEN ≤ IBUF_BYTES and IBITPOS ≤ 8 × IN_LEN` (R132). -/
def bitsInRange (s : State) : Bool :=
  decide (s.inLen.toNat ≤ s.cfg.ibufBytes ∧ s.ibitpos.toNat ≤ 8 * s.inLen.toNat)

/-- The bounds condition of each command (R132). -/
def boundsOK : Instr → State → Bool
  | .nop, _ => true
  | .clear, _ => true
  | .build, _ => true
  | .genCodes, _ => true
  | .count, s => inputInRange s
  | .hdrLoad, s => inputInRange s
  | .encode, s => inputInRange s && outputInRange s
  | .hdrEmit, s => outputInRange s
  | .flush, s => outputInRange s
  | .decode _, s => bitsInRange s && outputInRange s

/-- R121 for a legal command: after the frame's refusal, SEQ (R130), then BOUNDS (R132), then the command's own body. -/
def runCommand (i : Instr) (body : State → Result) (s : State) : Host.Outcome State Fault Refusal :=
  completion (encode i)
    (fun s0 =>
      if !phaseOK i s0 then raise .seq s0
      else if !boundsOK i s0 then raise .bounds s0
      else body s0) s

/-- R122: an Invalid word, after the frame's refusal, raises BAD_CMD. -/
def runInvalid (w : Word) (s : State) : Host.Outcome State Fault Refusal :=
  completion w (raise .badCmd) s

end Sys2Proof.Machine
end

