-- ==== Sys2Proof/Machine/Control.lean ====
section
/-! DEFINITION. The control commands NOP and CLEAR (spec/40_control.md R124, R125). -/

namespace Sys2Proof.Machine

/-- NOP (R124): the frame and nothing else. -/
def execNop (s : State) : Host.Outcome State Fault Refusal := runCommand .nop (stopWith .done) s

/-- The assignments of R125 but for ERR: the datapath back to its reset values. The buffers, IRQ_EN, IRQ_STAT, NODE_SEL and
CODE_SEL are left alone. -/
def clearDatapath (s : State) : State :=
  { s with
    freq := Vector.replicate 256 0
    total := 0
    treeValid := false
    codesValid := false
    encClosed := false
    nsym := 0
    root := Index.none
    node := Vector.replicate 511 Entry.cleared
    code := Vector.replicate 256 []
    accBits := 0
    accN := 0
    encCount := 0
    encBits := 0
    decNode := Index.none
    decCount := 0
    inLen := 0
    ipos := 0
    ibitpos := 0
    outLen := 0 }

/-- CLEAR (R125). -/
def clearBody (s : State) : Result := stopWith .done (clearErr (clearDatapath s))

/-- CLEAR (R125), the one command that runs while ERR ≠ 0 (R123). -/
def execClear (s : State) : Host.Outcome State Fault Refusal := runCommand .clear clearBody s

end Sys2Proof.Machine
end

