-- ==== Sys2Proof/Machine/Bus.lean ====
section
/-! DEFINITION. The host's side: the register map and the window (spec/10_state.md section 2; spec/20_memory.md R60, R74),
reads and writes (R58, R62-R72), and the reset input (spec/70_reset_and_hazards.md R250, R251). -/

namespace Sys2Proof.Machine

/-- The registers below 0x08C (10_state.md section 2). -/
inductive Reg where
  | id | version | cmd | status | errClr | irqEn | irqStat | config
  | inLen | ipos | ibitpos | outLen | total | nsym | root | acc
  | encCount | encBitsLo | encBitsHi | decNode | decCount
  | nodeSel | nodeLink | nodeSym | nodeFreq | codeSel | codeLen
  | codeW (k : Fin 8)
deriving DecidableEq, Repr

/-- The offset of a register (10_state.md section 2). -/
def Reg.offset : Reg → Nat
  | .id => 0x000
  | .version => 0x004
  | .cmd => 0x008
  | .status => 0x00C
  | .errClr => 0x010
  | .irqEn => 0x014
  | .irqStat => 0x018
  | .config => 0x01C
  | .inLen => 0x020
  | .ipos => 0x024
  | .ibitpos => 0x028
  | .outLen => 0x02C
  | .total => 0x030
  | .nsym => 0x034
  | .root => 0x038
  | .acc => 0x03C
  | .encCount => 0x040
  | .encBitsLo => 0x044
  | .encBitsHi => 0x048
  | .decNode => 0x04C
  | .decCount => 0x050
  | .nodeSel => 0x054
  | .nodeLink => 0x058
  | .nodeSym => 0x05C
  | .nodeFreq => 0x060
  | .codeSel => 0x064
  | .codeLen => 0x068
  | .codeW k => 0x06C + 4 * k.val

/-- Every register, in offset order. -/
def Reg.all : List Reg :=
  [.id, .version, .cmd, .status, .errClr, .irqEn, .irqStat, .config,
   .inLen, .ipos, .ibitpos, .outLen, .total, .nsym, .root, .acc] ++
  [.encCount, .encBitsLo, .encBitsHi, .decNode, .decCount, .nodeSel, .nodeLink, .nodeSym, .nodeFreq, .codeSel, .codeLen,
   .codeW 0, .codeW 1, .codeW 2, .codeW 3, .codeW 4, .codeW 5, .codeW 6, .codeW 7]

/-- What a word of the window is (R60). The buffer words carry the index of their first byte. -/
inductive Target where
  | reg (r : Reg)
  | freq (s : Byte)
  | ibuf (i : Nat)
  | obuf (i : Nat)
deriving DecidableEq, Repr

/-- The map of R60; none for a reserved offset (R74). -/
def target (c : Config) (a : Offset) : Option Target :=
  let n := a.toNat
  if n < 0x08C then (Reg.all.find? (fun r => r.offset == n)).map .reg
  else if n < 0x400 then none
  else if n < 0x800 then some (.freq (BitVec.ofNat 8 ((n - 0x400) / 4)))
  else if n < 0x4000 then none
  else if n < 0x4000 + c.ibufBytes then some (.ibuf (n - 0x4000))
  else if n < 0x8000 then none
  else if n < 0x8000 + c.obufBytes then some (.obuf (n - 0x8000))
  else none

/-- What an access reaches: none, a bus error, if it is not a whole word (R62), misaligned (R63) or reserved (R74). -/
def reach (c : Config) (a : Offset) (w : Width) : Option Target :=
  if w = .word ∧ a.toNat % 4 = 0 then target c a else none

/-! ### Register views -/

/-- ID (R22). -/
def idWord : Word := 0x48554646

/-- VERSION (R23). -/
def versionWord : Word := 0x00010000

/-- CONFIG (R29): IBUF_BYTES in [15:0], OBUF_BYTES in [31:16]. -/
def configWord (c : Config) : Word := BitVec.ofNat 16 c.obufBytes ++ BitVec.ofNat 16 c.ibufBytes

/-- ACC (R37): ACC_BITS in [7:0], ACC_N in [10:8]. -/
def accWord (s : State) : Word := 0#21 ++ (s.accN ++ s.accBits)

/-- The entry NODE_SEL selects; the cleared entry for 0x1FF (R43). -/
def selectedEntry (s : State) : Entry := (entryAt s.node s.nodeSel).getD Entry.cleared

/-- NODE_LINK (R44), most significant field first: [31:30] = 0, in_use, is_leaf, side, parent, right, left. -/
def linkWord (e : Entry) : Word :=
  0#2 ++ (BitVec.ofBool e.inUse ++ (BitVec.ofBool e.isLeaf ++ (BitVec.ofBool e.side ++ (e.parent ++ (e.right ++ e.left)))))

/-- The code CODE_SEL selects (R48). -/
def selectedCode (s : State) : List Bool := symGet s.code s.codeSel

/-- A word whose bit 31 − j is the j-th bit of the list, 0 past its end. -/
def wordOfBits (bits : List Bool) : Word :=
  (List.range 32).foldl (fun w j => w ||| ((BitVec.ofBool (bits.getD j false)).setWidth 32 <<< (31 - j))) 0

/-- CODE_Wk (R50): code bit i at bit 31 − (i mod 32) of word i div 32. -/
def codeWord (bits : List Bool) (k : Nat) : Word := wordOfBits (bits.drop (32 * k))

/-- What a register reads while BUSY = 0; write-only registers read 0 (R58). -/
def readReg (s : State) : Reg → Word
  | .id => idWord
  | .version => versionWord
  | .cmd => 0
  | .status => s.statusWord
  | .errClr => 0
  | .irqEn => s.irqEn.setWidth 32
  | .irqStat => s.irqStat.setWidth 32
  | .config => configWord s.cfg
  | .inLen => s.inLen.setWidth 32
  | .ipos => s.ipos.setWidth 32
  | .ibitpos => s.ibitpos.setWidth 32
  | .outLen => s.outLen.setWidth 32
  | .total => s.total
  | .nsym => s.nsym.setWidth 32
  | .root => s.root.setWidth 32
  | .acc => accWord s
  | .encCount => s.encCount
  | .encBitsLo => s.encBits.extractLsb' 0 32
  | .encBitsHi => s.encBits.extractLsb' 32 32
  | .decNode => s.decNode.setWidth 32
  | .decCount => s.decCount
  | .nodeSel => s.nodeSel.setWidth 32
  | .nodeLink => linkWord (selectedEntry s)
  | .nodeSym => (selectedEntry s).sym.setWidth 32
  | .nodeFreq => (selectedEntry s).f
  | .codeSel => s.codeSel.setWidth 32
  | .codeLen => (BitVec.ofNat 8 (selectedCode s).length).setWidth 32
  | .codeW k => codeWord (selectedCode s) k.val

/-! ### Reads (R66, R67, R68, R71, R72) -/

/-- Four bytes of IBUF as a word (R67), each a draw if unwritten (R71). -/
def readIbufWord (i : Nat) (s : State) : Word × State := readWord i s

/-- Four bytes of OBUF as a word (R68), each a draw if unwritten (R71). -/
def readObufWord (i : Nat) (s : State) : Word × State :=
  let (b0, s0) := readObuf i s
  let (b1, s1) := readObuf (i + 1) s0
  let (b2, s2) := readObuf (i + 2) s1
  let (b3, s3) := readObuf (i + 3) s2
  (wordOf b0 b1 b2 b3, s3)

/-- A read while BUSY = 0. -/
def readIdle (t : Target) (s : State) : Word × State :=
  match t with
  | .reg r => (readReg s r, s)
  | .freq b => (symGet s.freq b, s)
  | .ibuf i => readIbufWord i s
  | .obuf i => readObufWord i s

/-- STATUS while BUSY = 1 (R24, R66): ERR and BUSY from the state, every other bit from the draw (log 9). -/
def busyStatus (s : State) (w : Word) : Word :=
  w.extractLsb' 24 8 ++ (s.err.code ++ (w.extractLsb' 1 15 ++ 1#1))

/-- A read while BUSY = 1 (R66): a draw for everything but ID, VERSION, CONFIG, IRQ_EN, IRQ_STAT and parts of STATUS. -/
def readBusy (t : Target) (s : State) : Word × State :=
  match t with
  | .reg .id => (idWord, s)
  | .reg .version => (versionWord, s)
  | .reg .config => (configWord s.cfg, s)
  | .reg .irqEn => (s.irqEn.setWidth 32, s)
  | .reg .irqStat => (s.irqStat.setWidth 32, s)
  | .reg .status =>
    let (w, s1) := drawWord s
    (busyStatus s1 w, s1)
  | _ => drawWord s

/-- A read of the window. -/
def readTarget (t : Target) (s : State) : Word × State :=
  if s.busy then readBusy t s else readIdle t s

/-! ### Writes (R58, R65, R67, R68, R70) -/

/-- W1C (R28): writing 1 clears a bit. -/
def clearOnes (x : BitVec 2) (v : Word) : BitVec 2 := x &&& ~~~(v.setWidth 2)

/-- A write to FREQ or TOTAL (R51, R34): dropped with SEQ while TREE_VALID = 1 (R224). -/
def unlessFrozen (write : State → State) (s : State) : State :=
  if s.treeValid then recordErr .seq s else write s

/-- A register write while BUSY = 0 (R25-R50, R58); a write to a read-only register does nothing. -/
def writeReg (r : Reg) (v : Word) (s : State) : State :=
  match r with
  | .cmd => { s with pending := some v }
  | .errClr => clearErr s
  | .irqEn => { s with irqEn := v.setWidth 2 }
  | .irqStat => { s with irqStat := clearOnes s.irqStat v }
  | .inLen => { s with inLen := v.setWidth 15 }
  | .ipos => { s with ipos := v.setWidth 15 }
  | .ibitpos => { s with ibitpos := v.setWidth 18 }
  | .outLen => { s with outLen := v.setWidth 15 }
  | .total => unlessFrozen (fun s => { s with total := v }) s
  | .nodeSel => { s with nodeSel := v.setWidth 9 }
  | .codeSel => { s with codeSel := v.setWidth 8 }
  | .id | .version | .status | .config | .nsym | .root | .acc | .encCount | .encBitsLo | .encBitsHi
  | .decNode | .decCount | .nodeLink | .nodeSym | .nodeFreq | .codeLen | .codeW _ => s

/-- A write while BUSY = 0. -/
def writeIdle (t : Target) (v : Word) (s : State) : State :=
  match t with
  | .reg r => writeReg r v s
  | .freq b => unlessFrozen (fun s => { s with freq := symSet s.freq b v }) s
  | .ibuf i => { s with ibuf := Memory.writeList s.ibuf i (bytesOf v) }
  | .obuf i => { s with obuf := Memory.writeList s.obuf i (bytesOf v) }

/-- The registers whose writes R65 drops with BUSY_WRITE while BUSY = 1: CMD and the RW registers of R30-R34, R43, R48. -/
def Reg.droppedBusy : Reg → Bool
  | .cmd | .inLen | .ipos | .ibitpos | .outLen | .total | .nodeSel | .codeSel => true
  | .id | .version | .status | .errClr | .irqEn | .irqStat | .config | .nsym | .root | .acc | .encCount | .encBitsLo
  | .encBitsHi | .decNode | .decCount | .nodeLink | .nodeSym | .nodeFreq | .codeLen | .codeW _ => false

/-- A write while BUSY = 1 (R65, R223): as usual, ignored, or dropped with BUSY_WRITE. -/
def writeBusy (t : Target) (v : Word) (s : State) : State :=
  match t with
  | .reg r => if r.droppedBusy then recordErr .busyWrite s else writeReg r v s
  | .freq _ | .ibuf _ | .obuf _ => recordErr .busyWrite s

/-- A write to the window. -/
def writeTarget (t : Target) (v : Word) (s : State) : State :=
  if s.busy then writeBusy t v s else writeIdle t v s

/-! ### Accesses (R62-R64, R73) -/

/-- A bus error (R64): data 0 with the error response, recorded as a host-side fault; nothing of the HTB changes. -/
def busError (a : Offset) (s : State) : State :=
  { s with response := some ⟨0, true⟩, busFaults := .busError a :: s.busFaults }

/-- One host access, one atomic step (R73). -/
def hostAccess (x : Access) (s : State) : State :=
  match x with
  | .read a w =>
    match reach s.cfg a w with
    | none => busError a s
    | some t =>
      let (v, s1) := readTarget t s
      { s1 with response := some ⟨v, false⟩ }
  | .write a w v =>
    match reach s.cfg a w with
    | none => busError a s
    | some t => { writeTarget t v s with response := some ⟨0, false⟩ }

/-- The reset input (R250, R251): every register at its reset value, a command in flight abandoned, the buffers unwritten.
The build and the model's own fields are left alone (log 15). -/
def hardwareReset (s : State) : State :=
  { State.resetWith s.cfg with
    timeline := s.timeline
    response := s.response
    busFaults := s.busFaults
    draws := s.draws }

end Sys2Proof.Machine
end

