-- ==== Sys2Proof/Machine/CodeTable.lean ====
section
/-! DEFINITION. The code-table generator GENCODES (spec/43_code_table.md R170-R172). -/

namespace Sys2Proof.Machine

/-- The loop of R172 from node x, the bits found so far in `bits`, for at most k more steps. R172 ends within n − 1 ≤ 255 steps
on every tree BUILD makes; where it would not, or would leave the arena, the model stops (log 10). -/
def walkUp (a : Vector Entry 511) (root : Index) : Nat → Index → List Bool → Except Fault (List Bool)
  | k, x, bits =>
    if x = root then .ok bits
    else match k with
      | 0 => .error .noTermination
      | k + 1 =>
        match entryAt a x with
        | none => .error .outsideStore
        | some e => walkUp a root k e.parent (e.side :: bits)

/-- The longest code (R47, R174c). -/
def maxCodeLen : Nat := 255

/-- `pathcode(k)` for a tree of n leaves: [0] when n = 1 (R171), else the walk (R172). -/
def pathcode (a : Vector Entry 511) (root : Index) (n k : Nat) : Except Fault (List Bool) :=
  if n = 1 then .ok [false] else walkUp a root maxCodeLen (BitVec.ofNat 9 k) []

/-- The loop of R170 over the given leaves, into the table t. -/
def codesOf (a : Vector Entry 511) (root : Index) (n : Nat) :
    List Nat → Vector (List Bool) 256 → Except Fault (Vector (List Bool) 256)
  | [], t => .ok t
  | k :: ks, t =>
    match entryAt a (BitVec.ofNat 9 k) with
    | none => .error .outsideStore
    | some e =>
      if e.sym.toNat < 256 then
        match pathcode a root n k with
        | .ok bits => codesOf a root n ks (symSet t (e.sym.setWidth 8) bits)
        | .error f => .error f
      else .error .outsideStore

/-- The code store GENCODES writes (R170): every entry empty, then one code per leaf in arena order. -/
def codeTable (a : Vector Entry 511) (root : Index) (n : Nat) : Except Fault (Vector (List Bool) 256) :=
  codesOf a root n (List.range n) (Vector.replicate 256 [])

/-- GENCODES (R170). -/
def genCodesBody (s : State) : Result :=
  match codeTable s.node s.root s.nsym.toNat with
  | .error f => .fault f
  | .ok t => stopWith .done { s with
      code := t
      accBits := 0
      accN := 0
      encCount := 0
      encBits := 0
      codesValid := true
      encClosed := false }

/-- GENCODES (R170). -/
def execGenCodes (s : State) : Host.Outcome State Fault Refusal := runCommand .genCodes genCodesBody s

end Sys2Proof.Machine
end

