-- ==== Sys2Proof/Machine/Decoder.lean ====
section
/-! DEFINITION. The decoder HDR_LOAD and DECODE (spec/45_decoder.md R200-R209). -/

namespace Sys2Proof.Machine

/-- HDR_LOAD (R200): the 257 words of the header, if they are all there and the sum is right (R105, R201). -/
def hdrLoadBody (s : State) : Result :=
  if s.inLen.toNat - s.ipos.toNat < headerSize then raise .corruptHeader s
  else
    let (ws, s1) := readWords 257 s.ipos.toNat s
    let t := tableOf ws
    let total := ws.getD 256 0
    if freqSum t ≠ total.toNat then raise .corruptHeader s1
    else stopWith .done { s1 with
      freq := t
      total := total
      ipos := s1.ipos + 1028
      ibitpos := BitVec.ofNat 18 (8 * (s1.ipos.toNat + headerSize)) }

/-- HDR_LOAD (R200). -/
def execHdrLoad (s : State) : Host.Outcome State Fault Refusal := runCommand .hdrLoad hdrLoadBody s

/-- `emit(sym[7:0])` and DEC_COUNT <- DEC_COUNT + 1 (R204); none where DEC_COUNT would wrap (log 10). -/
def emitSymbol (e : Entry) (s : State) : Option State :=
  match bump s.decCount 1 with
  | some c => some { emit (e.sym.setWidth 8) s with decCount := c }
  | none => none

/-- One pass of DECODE's loop (R204). -/
def decodeTurn (last : Bool) (s : State) : Turn :=
  if s.decCount = s.total then .ends s .done
  else match entryAt s.node s.decNode with
  | none => .faults .outsideStore
  | some x =>
    if x.isLeaf then
      if s.outLen.toNat = s.cfg.obufBytes then .ends s .outFull
      else match emitSymbol x s with
        | some s' => .again s'
        | none => .faults .counterWrap
    else if s.ibitpos.toNat = 8 * s.inLen.toNat then
      if last then Turn.raise .truncatedPayload s else .ends s .inEmpty
    else
      let (c, s1) := readBit s.ibitpos.toNat s
      let y := if c then x.right else x.left
      match entryAt s1.node y with
      | none => .faults .outsideStore
      | some e =>
        if e.isLeaf then
          if s1.outLen.toNat = s1.cfg.obufBytes then .ends s1 .outFull
          else match emitSymbol e { s1 with ibitpos := s1.ibitpos + 1 } with
            | some s' => .again { s' with decNode := s'.root }
            | none => .faults .counterWrap
        else .again { s1 with ibitpos := s1.ibitpos + 1, decNode := y }

/-- DECODE (R204). Each pass but the last consumes a bit or fills a byte of OBUF, which bounds the passes. -/
def decodeBody (last : Bool) (s : State) : Result :=
  loop (decodeTurn last)
    ((8 * s.inLen.toNat - s.ibitpos.toNat) + (s.cfg.obufBytes - s.outLen.toNat) + 1) s

/-- DECODE (R204). -/
def execDecode (last : Bool) (s : State) : Host.Outcome State Fault Refusal :=
  runCommand (.decode last) (decodeBody last) s

end Sys2Proof.Machine
end

