-- ==== Sys2Proof/Machine/Encoder.lean ====
section
/-! DEFINITION. The encoder HDR_EMIT, ENCODE and FLUSH (spec/44_encoder.md R180-R191). -/

namespace Sys2Proof.Machine

/-- HDR_EMIT (R180): all 1028 bytes, or OUT_FULL with none. -/
def hdrEmitBody (s : State) : Result :=
  if s.outLen.toNat + headerSize > s.cfg.obufBytes then stopWith .outFull s
  else stopWith .done (emitAll (headerBytes s.freq s.total) s)

/-- HDR_EMIT (R180). -/
def execHdrEmit (s : State) : Host.Outcome State Fault Refusal := runCommand .hdrEmit hdrEmitBody s

/-- One pass of ENCODE's loop (R182, R183, R185). IPOS itself plays the pseudocode's p (log 11). -/
def encodeTurn (s : State) : Turn :=
  if s.ipos = s.inLen then .ends s .done
  else
    let (b, s1) := readIbuf s.ipos.toNat s
    let bits := symGet s1.code b
    if bits.length = 0 then Turn.raise .noCode s1
    else if s1.encCount = s1.total then Turn.raise .excessSymbol s1
    else if s1.outLen.toNat + (s1.accN.toNat + bits.length) / 8 > s1.cfg.obufBytes then .ends s1 .outFull
    else
      match bump s1.encCount 1, bump s1.encBits bits.length with
      | some c, some n => .again { putbits bits s1 with encCount := c, encBits := n, ipos := s1.ipos + 1 }
      | _, _ => .faults .counterWrap

/-- ENCODE (R182): IN_LEN − IPOS bytes, then the test that ends the loop. -/
def encodeBody (s : State) : Result := loop encodeTurn (s.inLen.toNat - s.ipos.toNat + 1) s

/-- ENCODE (R182). -/
def execEncode (s : State) : Host.Outcome State Fault Refusal := runCommand .encode encodeBody s

/-- FLUSH (R190, R191). -/
def flushBody (s : State) : Result :=
  if s.encCount ≠ s.total then raise .incomplete s
  else if s.accN ≠ 0 then
    if s.outLen.toNat = s.cfg.obufBytes then stopWith .outFull s
    else stopWith .done { emit s.accBits s with accBits := 0, accN := 0, encClosed := true }
  else stopWith .done { s with encClosed := true }

/-- FLUSH (R190). -/
def execFlush (s : State) : Host.Outcome State Fault Refusal := runCommand .flush flushBody s

end Sys2Proof.Machine
end

