-- ==== Sys2Proof/Machine/Frequency.lean ====
section
/-! DEFINITION. The frequency table builder COUNT (spec/41_frequency.md R140, R141). -/

namespace Sys2Proof.Machine

/-- One pass of COUNT's loop. IPOS itself plays the pseudocode's p (log 11): each of R140's three exits leaves IPOS = p. -/
def countTurn (s : State) : Turn :=
  if s.ipos = s.inLen then .ends s .done
  else
    let (b, s1) := readIbuf s.ipos.toNat s
    if symGet s1.freq b = 0xFFFFFFFF#32 ∨ s1.total = 0xFFFFFFFF#32 then Turn.raise .countOverflow s1
    else .again { s1 with
      freq := symSet s1.freq b (symGet s1.freq b + 1)
      total := s1.total + 1
      ipos := s1.ipos + 1 }

/-- COUNT (R140): IN_LEN − IPOS bytes, then the test that ends the loop. -/
def countBody (s : State) : Result := loop countTurn (s.inLen.toNat - s.ipos.toNat + 1) s

/-- COUNT (R140). -/
def execCount (s : State) : Host.Outcome State Fault Refusal := runCommand .count countBody s

end Sys2Proof.Machine
end

