-- ==== Sys2Proof/Machine/TreeBuild.lean ====
section
/-! DEFINITION. The tree builder BUILD (spec/42_tree_build.md R150-R156): the leaf list, the least pair of (frequency, index),
the merge loop, and the arena it leaves. -/

namespace Sys2Proof.Machine

/-- The leaf of symbol s with count f (R150). -/
def leafEntry (s : Nat) (f : Word) : Entry :=
  ⟨true, true, BitVec.ofNat 9 s, f, Index.none, Index.none, Index.none, false⟩

/-- Step 1 of R150 from symbol s on: one leaf per non-zero count, in ascending symbol order. -/
def leavesFrom : Nat → List Word → List Entry
  | _, [] => []
  | s, f :: fs => if f = 0 then leavesFrom (s + 1) fs else leafEntry s f :: leavesFrom (s + 1) fs

/-- The leaf list of a table (R150). -/
def leaves (t : Vector Word 256) : List Entry := leavesFrom 0 t.toList

/-- The frequency of node i (R151); the nodes made so far are a list, node i its i-th entry. -/
def freqOf (ns : List Entry) (i : Nat) : Nat := (ns.getD i Entry.cleared).f.toNat

/-- (node[i].f, i) lies before (node[j].f, j) in lexicographic order (R151). -/
def keyLt (ns : List Entry) (i j : Nat) : Bool :=
  decide (freqOf ns i < freqOf ns j ∨ (freqOf ns i = freqOf ns j ∧ i < j))

/-- `minkey(Q)` (R151), or none on the empty set. -/
def minkey (ns : List Entry) : List Nat → Option Nat
  | [] => none
  | i :: q =>
    match minkey ns q with
    | none => some i
    | some j => if keyLt ns i j then some i else some j

/-- The internal node over a and b (R152). -/
def internalEntry (ns : List Entry) (a b : Nat) : Entry :=
  ⟨true, false, internalMark, (ns.getD a Entry.cleared).f + (ns.getD b Entry.cleared).f,
    BitVec.ofNat 9 a, BitVec.ofNat 9 b, Index.none, false⟩

/-- node[a].parent <- p, node[a].side <- side (R152). -/
def linkUp (ns : List Entry) (a p : Nat) (side : Bool) : List Entry :=
  ns.modify a (fun e => { e with parent := BitVec.ofNat 9 p, side := side })

/-- One pass of the merge loop (R152): the least node becomes the left child, the next the right child of a new node, which
takes the next index. None when fewer than two nodes are left. -/
def mergeOnce (ns : List Entry) (q : List Nat) : Option (List Entry × List Nat) :=
  match minkey ns q with
  | none => none
  | some a =>
    match minkey ns (q.erase a) with
    | none => none
    | some b =>
      let next := ns.length
      some (linkUp (linkUp ns a next false) b next true ++ [internalEntry ns a b], (q.erase a).erase b ++ [next])

/-- The merge loop (R152), at most k passes. -/
def merge : Nat → List Entry → List Nat → List Entry × List Nat
  | 0, ns, q => (ns, q)
  | k + 1, ns, q =>
    match mergeOnce ns q with
    | none => (ns, q)
    | some (ns', q') => merge k ns' q'

/-- The nodes and the queue that the merge of a leaf list leaves: n − 1 passes for n leaves (R152). -/
def mergeLeaves (ls : List Entry) : List Entry × List Nat :=
  merge (ls.length - 1) ls (List.range ls.length)

/-- The arena whose first entries are the list's and whose others are cleared (R153). -/
def arenaOf (ns : List Entry) : Vector Entry 511 := padded 511 ns Entry.cleared

/-- ROOT from the queue: its only element (R152), or NONE for the empty table (R155). -/
def rootOf : List Nat → Index
  | [] => Index.none
  | r :: _ => BitVec.ofNat 9 r

/-- `buildArena(FREQ)` (R157). -/
def buildArena (t : Vector Word 256) : Vector Entry 511 := arenaOf (mergeLeaves (leaves t)).1

/-- The root BUILD finds for a table. -/
def buildRoot (t : Vector Word 256) : Index := rootOf (mergeLeaves (leaves t)).2

/-- n of R150: how many symbols have a non-zero count. -/
def symbolCount (t : Vector Word 256) : Nat := (leaves t).length

/-- BUILD (R150). -/
def buildBody (s : State) : Result :=
  if freqSum s.freq ≠ s.total.toNat then raise .corruptHeader s
  else stopWith .done { s with
    node := buildArena s.freq
    root := buildRoot s.freq
    nsym := BitVec.ofNat 9 (symbolCount s.freq)
    decNode := buildRoot s.freq
    decCount := 0
    treeValid := true }

/-- BUILD (R150). -/
def execBuild (s : State) : Host.Outcome State Fault Refusal := runCommand .build buildBody s

end Sys2Proof.Machine
end

