-- ==== Sys2Proof/Machine/Engine.lean ====
section
/-! DEFINITION. The engine's completion step (spec/40_control.md R120, R121) and the order of the agents' steps. -/

namespace Sys2Proof.Machine

/-- The completion step (R121): enabled exactly when BUSY = 1; an engine's turn without a command changes nothing (log 19). -/
def engineStep (s : State) : Host.Outcome State Fault Refusal :=
  match s.pending with
  | none => .next s
  | some w =>
    match decode w with
    | .ok i => exec i s
    | .error _ => runInvalid w s

/-- One event. -/
def takeEvent (e : Event) (s : State) : Host.Outcome State Fault Refusal :=
  match e with
  | .host x => .next (hostAccess x s)
  | .engine => engineStep s
  | .reset => .next (hardwareReset s)

/-- The next event of the timeline; after its end the engine has every turn (R262), and an idle block holds its state
(60_exceptions.md R245). Log 1. -/
def advance (s : State) : Host.Outcome State Fault Refusal :=
  match s.timeline with
  | [] => engineStep s
  | e :: es => takeEvent e { s with timeline := es }

/-- `s` with the command word w accepted and the engine's turn next (log 2). -/
def withCommand (w : Word) (s : State) : State :=
  { s with pending := some w, timeline := .engine :: s.timeline }

end Sys2Proof.Machine
end

