-- ==== Sys2Proof/Machine/Step.lean ====
section
/-! DEFINITION. One step of the machine, and how an instruction's word is placed for the next step. -/

namespace Sys2Proof.Machine

/-- One step: one host access, one completion, or a reset (spec/20_memory.md R73; spec/40_control.md R120). -/
def step (s : State) : Host.Outcome State Fault Refusal := advance s

/-- s with the low `nbits` bits of w as the command in flight, the engine's turn next (log 2): what an accepted CMD write
(spec/10_state.md R25) leaves. -/
def State.withFetchWord (s : State) (nbits w : Nat) : State :=
  withCommand (BitVec.ofNat 32 (w % 2 ^ nbits)) s

end Sys2Proof.Machine
end

