-- ==== Sys2Proof/Machine/HostProgram.lean ====
section
/-! DEFINITION. The host's programs (spec/30_encoding.md R95-R97): statements, the bus accesses they stand for, the
pseudo-instructions, and a host that runs a program against the machine, one access a step. The host's own control flow
(jstop, jmp, labels) is no part of the HTB (R95). -/

namespace Sys2Proof.Machine

/-- The offset of a word of the window: `off(REG)`, `FREQ[s]`, and the buffer words (R95). -/
def Target.offset : Target → Nat
  | .reg r => r.offset
  | .freq s => 0x400 + 4 * s.toNat
  | .ibuf i => 0x4000 + i
  | .obuf i => 0x8000 + i

/-- The v of a statement: a number, or `$REG`, the value of an earlier `rd REG` (R95). -/
inductive Value where
  | lit (v : Word)
  | named (t : Target)
deriving DecidableEq, Repr

/-- A statement (R95, R96). -/
inductive Stmt where
  /-- `wr REG, v` -/
  | wr (t : Target) (v : Value)
  /-- `rd REG`: the value is `$REG` for later lines. -/
  | rd (t : Target)
  /-- `rd REG, expect v`: the same access; that the value is v is the program's claim. -/
  | rdExpect (t : Target) (v : Value)
  /-- `cmd M`; `cmd DECODE.last` is `cmd (.decode true)`. -/
  | cmd (i : Instr)
  /-- `wait`: poll STATUS until bit 0 = 0. -/
  | wait
  /-- `jstop S, L` -/
  | jstop (w : Stop) (l : String)
  /-- `jmp L` (R96) -/
  | jmp (l : String)
  /-- `L:` -/
  | label (l : String)
  /-- `drain` (R96): how many words it reads depends on the OUT_LEN it reads first. -/
  | drain
deriving DecidableEq, Repr

/-- `MemRead(off, 4)`. An offset past the 64 KiB window (OBUF.w[k] or IBUF.w[k] for a large k) is left open by R95 and R96; it is
taken modulo 2^16: DESIGN CHOICE (log 27). -/
def readOf (t : Target) : Access := .read (BitVec.ofNat 16 t.offset) .word

/-- `MemWrite(off, 4, v)`; an offset past the window as in `readOf`: DESIGN CHOICE (log 27). -/
def writeOf (t : Target) (v : Word) : Access := .write (BitVec.ofNat 16 t.offset) .word v

/-- The bus transactions of `drain` when OUT_LEN reads n (R96). -/
def drainAccesses (n : Nat) : List Access :=
  [readOf (.reg .outLen)] ++ (List.range ((n + 3) / 4)).map (fun k => readOf (.obuf (4 * k))) ++
    [writeOf (.reg .outLen) 0]

/-- The values named so far: at most one for each word of the window. -/
abbrev Names := List (Target × Word)

/-- `$REG`; none where no line has named it. -/
def Names.get (ns : Names) (t : Target) : Option Word := List.lookup t ns

/-- `$REG` is v from now on; with no v, nothing is. -/
def Names.set (ns : Names) (t : Target) (v : Option Word) : Names :=
  (v.map (fun x => (t, x))).toList ++ ns.filter (fun p => p.1 ≠ t)

/-- What a `v` stands for. -/
def Value.eval (ns : Names) : Value → Option Word
  | .lit v => some v
  | .named t => ns.get t

/-- The bus transactions of a statement (R95) where ns are named; one poll for `wait`, and `drain` for an OUT_LEN of n. -/
def Stmt.accesses (ns : Names) (n : Nat) : Stmt → List Access
  | .wr t v => ((v.eval ns).map (writeOf t)).toList
  | .rd t => [readOf t]
  | .rdExpect t v => ((v.eval ns).map (fun _ => readOf t)).toList
  | .cmd i => [writeOf (.reg .cmd) (Sys2Proof.encode i)]
  | .wait => [readOf (.reg .status)]
  | .jstop _ _ => []
  | .jmp _ => []
  | .label _ => []
  | .drain => drainAccesses n

/-! ### Pseudo-instructions (R96) -/

/-- `run M` -/
def run (i : Instr) : List Stmt := [.cmd i, .wait]

/-- The words of `load_in`: four bytes each, little-endian, missing bytes 0. -/
def loadWords : Nat → List Byte → List Stmt
  | _, [] => []
  | k, [b0] => [.wr (.ibuf (4 * k)) (.lit (wordOf b0 0 0 0))]
  | k, [b0, b1] => [.wr (.ibuf (4 * k)) (.lit (wordOf b0 b1 0 0))]
  | k, [b0, b1, b2] => [.wr (.ibuf (4 * k)) (.lit (wordOf b0 b1 b2 0))]
  | k, b0 :: b1 :: b2 :: b3 :: bs => .wr (.ibuf (4 * k)) (.lit (wordOf b0 b1 b2 b3)) :: loadWords (k + 1) bs

/-- `load_in b_0 … b_{m−1}` -/
def loadIn (bs : List Byte) : List Stmt :=
  loadWords 0 bs ++ [.wr (.reg .inLen) (.lit (BitVec.ofNat 32 bs.length)), .wr (.reg .ipos) (.lit 0),
    .wr (.reg .ibitpos) (.lit 0)]

/-- `recover` -/
def recover : List Stmt := [.wr (.reg .errClr) (.lit 0)]

/-- A label of the k-th chunk. -/
def chunkLabel (name : String) (k : Nat) : String := name ++ toString k

/-- The counting pass of `compress_chunked`. -/
def countChunks (chunks : List (List Byte)) : List Stmt := chunks.flatMap (fun c => loadIn c ++ run .count)

/-- The encoding pass of `compress_chunked`, from chunk k on. -/
def encodeChunks : Nat → List (List Byte) → List Stmt
  | _, [] => []
  | k, c :: cs =>
    loadIn c ++ [.label (chunkLabel "E" k)] ++ run .encode ++
      [.jstop .outFull (chunkLabel "D" k), .jmp (chunkLabel "N" k), .label (chunkLabel "D" k), .drain,
       .jmp (chunkLabel "E" k), .label (chunkLabel "N" k)] ++ encodeChunks (k + 1) cs

/-- `compress_chunked` -/
def compressChunked (chunks : List (List Byte)) : List Stmt :=
  run .clear ++ countChunks chunks ++ run .build ++ run .genCodes ++ run .hdrEmit ++ encodeChunks 0 chunks ++
    run .flush ++ [.jstop .outFull "F", .jmp "G", .label "F", .drain] ++ run .flush ++ [.label "G", .drain]

/-- The decoding pass of `decompress_chunked`, from chunk k on; `loaded` says that the first chunk is already in IBUF. Where
DECODE stops ERROR or REFUSED, which R96 does not name, the program is done as on DONE: DESIGN CHOICE (log 23). -/
def decodeChunks : Nat → Bool → List (List Byte) → List Stmt
  | _, _, [] => []
  | k, loaded, c :: cs =>
    (if loaded then [] else loadIn c) ++ [.label (chunkLabel "X" k)] ++ run (.decode cs.isEmpty) ++
      [.jstop .outFull (chunkLabel "Y" k), .jstop .inEmpty (chunkLabel "N" k), .jmp "Z", .label (chunkLabel "Y" k), .drain,
       .jmp (chunkLabel "X" k), .label (chunkLabel "N" k)] ++ decodeChunks (k + 1) false cs

/-- `decompress_chunked`: done at label Z, with the last output still in OBUF. -/
def decompressChunked (chunks : List (List Byte)) : List Stmt :=
  run .clear ++ loadIn (chunks.headD []) ++ run .hdrLoad ++ run .build ++ decodeChunks 0 true chunks ++ [.label "Z"]

/-- `decompress_chunked`, then a `drain` of what it left in OBUF: a program whose drained contents are the whole output, as
spec/45_decoder.md R210 speaks of them. That drain is no part of R96's expansion (log 26). -/
def decompressAndDrain (chunks : List (List Byte)) : List Stmt := decompressChunked chunks ++ [.drain]

/-! ### A host running a program (log 23, log 26) -/

/-- An outcome, and what follows it. -/
def andThen {α β : Type} (x : Host.Outcome α Fault Refusal) (f : α → Host.Outcome β Fault Refusal) :
    Host.Outcome β Fault Refusal :=
  match x with
  | .next a => f a
  | .fault e => .fault e
  | .refused e => .refused e

/-- The host: where it is in its program, the values it has named, the bytes it has drained, whether every `expect` so far was
met, whether a `wait` has ended with an error, the engine's turns, and the machine. -/
structure HostRun where
  pc : Nat
  names : Names
  kept : List Byte
  expectsMet : Bool
  failed : Bool
  /-- Before each access of the host, whether the engine takes its turn first; it does where the list has ended, which is the
  fairness of spec/70_reset_and_hazards.md R262. -/
  turns : List Bool
  machine : State
deriving DecidableEq, Repr

/-- One event, as a step of the machine. -/
def act (e : Event) (m : State) : Host.Outcome State Fault Refusal := step { m with timeline := [e] }

/-- Events in order. -/
def acts : List Event → State → Host.Outcome State Fault Refusal
  | [], m => .next m
  | e :: es, m => andThen (act e m) (acts es)

/-- The data of the last read; none where the bus answered an error. -/
def lastRead (m : State) : Option Word := m.response.bind (fun r => if r.error then none else some r.data)

/-- The engine's turn, where it has one, and an access. -/
def HostRun.access (a : Access) (h : HostRun) : Host.Outcome HostRun Fault Refusal :=
  andThen (acts ((if h.turns.headD true then [.engine] else []) ++ [.host a]) h.machine)
    (fun m => .next { h with turns := h.turns.tail, machine := m })

/-- A read whose value is named `$REG` (R95). -/
def HostRun.read (t : Target) (h : HostRun) : Host.Outcome HostRun Fault Refusal :=
  andThen (h.access (readOf t)) (fun h' => .next { h' with names := h'.names.set t (lastRead h'.machine) })

/-- The next line. -/
def HostRun.advance (h : HostRun) : HostRun := { h with pc := h.pc + 1 }

/-- `rd OBUF.w[k]`, `rd OBUF.w[k+1]`, …: n words, whose bytes are kept. -/
def HostRun.drainWords : Nat → Nat → HostRun → Host.Outcome HostRun Fault Refusal
  | 0, _, h => .next h
  | n + 1, k, h =>
    andThen (h.read (.obuf (4 * k))) (fun h' =>
      HostRun.drainWords n (k + 1) { h' with kept := h'.kept ++ ((lastRead h'.machine).map bytesOf).getD [] })

/-- `drain` (R96): the bytes below `$OUT_LEN` are kept, and OUT_LEN <- 0. -/
def HostRun.drain (h : HostRun) : Host.Outcome HostRun Fault Refusal :=
  andThen (h.read (.reg .outLen)) (fun h1 =>
    let n := ((h1.names.get (.reg .outLen)).getD 0).toNat
    andThen (h1.drainWords ((n + 3) / 4) 0) (fun h2 =>
      { h2 with kept := h2.kept.take (h.kept.length + n) }.access (writeOf (.reg .outLen) 0)))

/-- One pass of `wait`: a poll of STATUS, named `$STATUS`; the line is polled again until bit 0 = 0. The host notes an ERR
that is not 0 (spec/60_exceptions.md R226). -/
def HostRun.poll (h : HostRun) : Host.Outcome HostRun Fault Refusal :=
  andThen (h.read (.reg .status)) (fun h' =>
    let v := (h'.names.get (.reg .status)).getD 0
    .next (if v.getLsbD 0 then h' else { h' with failed := h'.failed || v.extractLsb' 16 8 != 0 }.advance))

/-- Where a label stands; none where it stands nowhere or more than once, which the spec does not speak of: DESIGN CHOICE
(log 26). -/
def labelAt (prog : List Stmt) (l : String) : Option Nat :=
  if prog.count (.label l) = 1 then some (prog.idxOf (.label l)) else none

/-- Control goes to label l. Without one place to go to the host stays at its line: DESIGN CHOICE (log 26). -/
def HostRun.jump (prog : List Stmt) (l : String) (h : HostRun) : HostRun := { h with pc := (labelAt prog l).getD h.pc }

/-- One statement, or one poll of a `wait`. A line that uses a `$REG` which no earlier line has named, as a `jstop` does before
any line has read STATUS, is left open by R95: the host stays at it, a stuck run, DESIGN CHOICE (log 26). -/
def HostRun.stmt (prog : List Stmt) (x : Stmt) (h : HostRun) : Host.Outcome HostRun Fault Refusal :=
  match x with
  | .wr t v =>
    match v.eval h.names with
    | some d => andThen (h.access (writeOf t d)) (fun h' => .next h'.advance)
    | none => .next h
  | .rd t => andThen (h.read t) (fun h' => .next h'.advance)
  | .rdExpect t v =>
    match v.eval h.names with
    | some d =>
      andThen (h.access (readOf t)) (fun h' =>
        .next { h' with expectsMet := h'.expectsMet && lastRead h'.machine == some d }.advance)
    | none => .next h
  | .cmd i => andThen (h.access (writeOf (.reg .cmd) (Sys2Proof.encode i))) (fun h' => .next h'.advance)
  | .wait => h.poll
  | .jstop w l =>
    match h.names.get (.reg .status) with
    | some v => .next (if v.extractLsb' 8 3 = w.code then h.jump prog l else h.advance)
    | none => .next h
  | .jmp l => .next (h.jump prog l)
  | .label _ => .next h.advance
  | .drain => andThen h.drain (fun h' => .next h'.advance)

/-- At most n statements and polls; the run ends where the program does. -/
def HostRun.go (prog : List Stmt) : Nat → HostRun → Host.Outcome HostRun Fault Refusal
  | 0, h => .next h
  | n + 1, h =>
    match prog[h.pc]? with
    | none => .next h
    | some x => andThen (h.stmt prog x) (HostRun.go prog n)

/-- The host has run its program to the end. -/
def HostRun.done (prog : List Stmt) (h : HostRun) : Bool := prog.length ≤ h.pc

/-- What the host has of its stream: nothing after an error, when it must discard every byte drained (R226). -/
def HostRun.output (h : HostRun) : List Byte := if h.failed then [] else h.kept

/-- A program run from a machine with nothing named: no `$STATUS`, so a `jstop` before any read of STATUS is stuck, DESIGN
CHOICE (log 26). -/
def runProgram (prog : List Stmt) (turns : List Bool) (n : Nat) (m : State) : Host.Outcome HostRun Fault Refusal :=
  HostRun.go prog n ⟨0, [], [], true, false, turns, m⟩

end Sys2Proof.Machine
end

