-- ==== Sys2Proof/Safety.lean ====
section
/-! DEFINITION. What a safe state and a final run are: the invariants of spec/10_state.md R56 with what makes them inductive,
the shape of a built tree (spec/42_tree_build.md R153), and the pure readings of a tree and a payload that the whole-machine
rules are stated with (spec/43_code_table.md R173; spec/30_encoding.md R102). -/

namespace Sys2Proof.Machine

/-! ### Invariants of the state (R56) -/

/-- The buffers are in canonical form. -/
def buffersCanonical (s : State) : Prop :=
  Memory.wf s.cfg.ibufBytes s.ibuf ∧ Memory.wf s.cfg.obufBytes s.obuf

/-- The phases are (0,0,0), (1,0,0), (1,1,0), (1,1,1) (R52). -/
def phasesOrdered (s : State) : Prop :=
  (s.codesValid = true → s.treeValid = true) ∧ (s.encClosed = true → s.codesValid = true)

/-- R56 (1): ACC_BITS is 0 below its pending bits; ACC_N ≤ 7 is its type. -/
def accPadded (s : State) : Prop := ∀ k, k < 8 - s.accN.toNat → s.accBits.getLsbD k = false

/-- R56 (2), with the bound of R39 on ENC_BITS. -/
def countersBounded (s : State) : Prop :=
  s.encCount.toNat ≤ s.total.toNat ∧ s.decCount.toNat ≤ s.total.toNat ∧
    s.encBits.toNat ≤ 255 * s.encCount.toNat

/-- R56 (3): a frozen table has the sum TOTAL. -/
def tableFrozen (s : State) : Prop := s.treeValid = true → freqSum s.freq = s.total.toNat

/-- While TREE_VALID = 1 the tree registers are what BUILD makes of the frozen table (R56 (3), R157). -/
def treeFromTable (s : State) : Prop :=
  s.treeValid = true →
    s.node = buildArena s.freq ∧ s.root = buildRoot s.freq ∧ s.nsym.toNat = symbolCount s.freq

/-- While TREE_VALID = 0 the tree registers and the decoder are as reset and CLEAR leave them. -/
def noTreeYet (s : State) : Prop :=
  s.treeValid = false →
    s.node = Vector.replicate 511 Entry.cleared ∧ s.root = Index.none ∧ s.nsym = 0 ∧
      s.decNode = Index.none ∧ s.decCount = 0

/-- R56 (5): without codes every code is empty and the encoder is at its start. -/
def noCodesYet (s : State) : Prop :=
  s.codesValid = false →
    s.code = Vector.replicate 256 [] ∧ s.accBits = 0 ∧ s.accN = 0 ∧ s.encCount = 0 ∧ s.encBits = 0

/-- While CODES_VALID = 1 the code store is what GENCODES makes of the tree (R56 (6)). -/
def codesFromTree (s : State) : Prop :=
  s.codesValid = true → codeTable s.node s.root s.nsym.toNat = .ok s.code

/-- R56 (4): DEC_NODE is ROOT or an internal node in use. -/
def descentInTree (s : State) : Prop :=
  s.treeValid = true →
    s.decNode = s.root ∨ ∃ e, entryAt s.node s.decNode = some e ∧ e.inUse = true ∧ e.isLeaf = false

/-- The state invariants together: what every reachable state meets. -/
structure Inv (s : State) : Prop where
  buffers : buffersCanonical s
  phases : phasesOrdered s
  acc : accPadded s
  counters : countersBounded s
  frozen : tableFrozen s
  tree : treeFromTable s
  noTree : noTreeYet s
  noCodes : noCodesYet s
  codes : codesFromTree s
  descent : descentInTree s

/-! ### Runs -/

/-- A run is final when nothing is left to happen and no host-side fault was recorded (20_memory.md R64: a faulted run is not
final). -/
def finalRun (s : State) : Bool := s.timeline.isEmpty && !s.busy && s.busFaults.isEmpty

/-- Every byte of IBUF from a up to b is written. -/
def writtenFrom (s : State) (a b : Nat) : Prop := ∀ p, a ≤ p → p < b → (Memory.read s.ibuf p).isSome = true

/-- The bytes bs stand, written, in IBUF from a on. -/
def ibufHolds (s : State) (a : Nat) (bs : List Byte) : Prop :=
  ∀ j (h : j < bs.length), Memory.read s.ibuf (a + j) = some bs[j]

/-- The bytes bs stand, written, in OBUF from a on. -/
def obufHolds (s : State) (a : Nat) (bs : List Byte) : Prop :=
  ∀ j (h : j < bs.length), Memory.read s.obuf (a + j) = some bs[j]

/-- The bits stand, in written bytes, in the IBUF bit stream from bit p on (30_encoding.md R103). -/
def ibufBitsHold (s : State) (p : Nat) (bits : List Bool) : Prop :=
  ∀ j (h : j < bits.length), ∃ b, Memory.read s.ibuf ((p + j) / 8) = some b ∧ streamBit b ((p + j) % 8) = bits[j]

/-- OBUF reads in t as in s outside the n bytes from a on. -/
def obufSameOutside (s t : State) (a n : Nat) : Prop :=
  ∀ p, p < a ∨ a + n ≤ p → Memory.read t.obuf p = Memory.read s.obuf p

/-- A read of the word at offset a answers d without an error, and only the model's record of the host moves. -/
def readAnswers (s : State) (a : Offset) (d : Word) : Prop :=
  ∀ rest, step { s with timeline := .host (.read a .word) :: rest } =
    .next { s with timeline := rest, response := some ⟨d, false⟩ }

/-! ### The shape of a built tree (R153) -/

/-- Node i of an arena. -/
def nodeOf (a : Vector Entry 511) (i : Nat) : Entry := (entryAt a (BitVec.ofNat 9 i)).getD Entry.cleared

/-- R153 for a tree of n ≥ 1 leaves: leaves first in ascending symbol order, then internal nodes whose two children come
before them and point back, then cleared entries; the root is node 2n − 2. -/
structure TreeLayout (t : Vector Word 256) (a : Vector Entry 511) (n : Nat) : Prop where
  leaf : ∀ i, i < n → (nodeOf a i).inUse = true ∧ (nodeOf a i).isLeaf = true ∧
    (nodeOf a i).left = Index.none ∧ (nodeOf a i).right = Index.none ∧
    ∃ s : Byte, (nodeOf a i).sym = s.setWidth 9 ∧ (nodeOf a i).f = symGet t s ∧ symGet t s ≠ 0
  ascending : ∀ i j, i < j → j < n → (nodeOf a i).sym.toNat < (nodeOf a j).sym.toNat
  internal : ∀ i, n ≤ i → i < 2 * n - 1 →
    (nodeOf a i).inUse = true ∧ (nodeOf a i).isLeaf = false ∧ (nodeOf a i).sym = internalMark ∧
    ∃ l r, l < i ∧ r < i ∧ l ≠ r ∧
      (nodeOf a i).left = BitVec.ofNat 9 l ∧ (nodeOf a i).right = BitVec.ofNat 9 r ∧
      (nodeOf a i).f = (nodeOf a l).f + (nodeOf a r).f ∧
      (nodeOf a l).parent = BitVec.ofNat 9 i ∧ (nodeOf a l).side = false ∧
      (nodeOf a r).parent = BitVec.ofNat 9 i ∧ (nodeOf a r).side = true
  nonRoot : ∀ x, x < 2 * n - 2 → ∃ p, x < p ∧ n ≤ p ∧ p < 2 * n - 1 ∧ (nodeOf a x).parent = BitVec.ofNat 9 p ∧
    (if (nodeOf a x).side then (nodeOf a p).right else (nodeOf a p).left) = BitVec.ofNat 9 x
  top : (nodeOf a (2 * n - 2)).parent = Index.none ∧ (nodeOf a (2 * n - 2)).side = false
  rest : ∀ i, 2 * n - 1 ≤ i → i < 511 → nodeOf a i = Entry.cleared

/-! ### Pure readings -/

/-- The child a bit leads to (45_decoder.md R204: left on 0 and right on 1). -/
def childOf (e : Entry) (bit : Bool) : Index := if bit then e.right else e.left

/-- The descent of R173: from node x along the bits, through internal nodes only. -/
def descend (a : Vector Entry 511) : Index → List Bool → Option Index
  | x, [] => some x
  | x, bit :: bits =>
    match entryAt a x with
    | none => none
    | some e => if e.inUse && !e.isLeaf then descend a (childOf e bit) bits else none

/-- The payload bits of an input (R102): the codes in input order, without separators. -/
def payloadBits (code : Vector (List Bool) 256) (xs : List Byte) : List Bool := xs.flatMap (fun x => symGet code x)

/-- A byte of eight bits, the first the most significant (R102, R103). -/
def byteOfBits (bits : List Bool) : Byte :=
  (List.range 8).foldl (fun b j => b ||| ((BitVec.ofBool (bits.getD j false)).setWidth 8 <<< (7 - j))) 0

/-- The bits of a byte, the most significant first (R103). -/
def bitsOfByte (b : Byte) : List Bool := (List.range 8).map (fun k => streamBit b k)

/-- The first k bytes of a bit sequence, zero-padded where it ends (R102). -/
def packBits : Nat → List Bool → List Byte
  | 0, _ => []
  | k + 1, bits => byteOfBits (bits.take 8) :: packBits k (bits.drop 8)

/-- The payload of an input (R102): `ceil(B / 8)` bytes, the last zero-padded. -/
def payload (code : Vector (List Bool) 256) (xs : List Byte) : List Byte :=
  packBits (((payloadBits code xs).length + 7) / 8) (payloadBits code xs)

/-- The pending bits of the accumulator, the first first (R37). -/
def pendingBits (s : State) : List Bool := (List.range s.accN.toNat).map (fun k => streamBit s.accBits k)

/-- The state after ENCODE has taken the symbols bs (44_encoder.md R182, R184): pending bits and codes in whole bytes at OUT_LEN,
the rest pending over zeros. -/
def afterEncoding (s : State) (bs : List Byte) : State :=
  let bits := pendingBits s ++ payloadBits s.code bs
  { s with
    obuf := Memory.writeList s.obuf s.outLen.toNat (packBits (bits.length / 8) bits)
    outLen := BitVec.ofNat 15 (s.outLen.toNat + bits.length / 8)
    accBits := byteOfBits (bits.drop (8 * (bits.length / 8)))
    accN := BitVec.ofNat 3 (bits.length % 8)
    encCount := BitVec.ofNat 32 (s.encCount.toNat + bs.length)
    encBits := BitVec.ofNat 64 (s.encBits.toNat + (payloadBits s.code bs).length)
    ipos := BitVec.ofNat 15 (s.ipos.toNat + bs.length) }

/-- The state after DECODE has written the symbols ys, consumed k bits and come to node n (45_decoder.md R204). -/
def afterDecoding (s : State) (ys : List Byte) (k : Nat) (n : Index) : State :=
  { s with
    obuf := Memory.writeList s.obuf s.outLen.toNat ys
    outLen := BitVec.ofNat 15 (s.outLen.toNat + ys.length)
    ibitpos := BitVec.ofNat 18 (s.ibitpos.toNat + k)
    decNode := n
    decCount := BitVec.ofNat 32 (s.decCount.toNat + ys.length) }

/-- How often each symbol occurs (41_frequency.md R140, R142). -/
def occurrences (xs : List Byte) (b : Byte) : Nat := xs.count b

/-- The table of an input counts its bytes. -/
def tableCounts (t : Vector Word 256) (xs : List Byte) : Prop := ∀ b : Byte, (symGet t b).toNat = occurrences xs b

end Sys2Proof.Machine
end

