-- ==== Sys2Proof/Certificates/Slice0/Obligations.lean ====
section
/-! DEFINITION. The statements for the provers, from the numbered rules of spec/. A completion is written out in full: what
stands in the record update is everything the step changes, so each equation is its own frame. -/

open Sys2Proof Sys2Proof.Machine

/-! ### Encoding (spec/30_encoding.md) -/

/-- R91, R92: decoding the word of a command gives the command, LAST included; and a word decodes to a command exactly when it
matches the command's row of the table (DECODE: with LAST = bit 8), so each word has one meaning. -/
def Obligations.DecodeFollowsTheOpcodeTable : Prop :=
  (∀ i : Instr, decode (encode i) = .ok i) ∧
  (∀ (w : Word) (i : Instr), decode w = .ok i ↔
    (w &&& (opcodeRow i).mask = (opcodeRow i).value ∧ ∀ last, i = .decode last → w.getLsbD 8 = last)) ∧
  ∀ (w : Word) (i : Instr), decode w = .ok i → encode i = w

/-- R92, R93: exactly the reserved and illegal words are Invalid, each named by the first check of R92 it fails. -/
def Obligations.IllegalWordsAreInvalid : Prop :=
  ∀ w : Word,
    (decode w = .error .reservedBits ↔ w.toNat / 2 ^ 9 ≠ 0) ∧
    (decode w = .error .lastNotDecode ↔ w.toNat / 2 ^ 9 = 0 ∧ w.toNat % 2 ^ 8 ≠ 9 ∧ 2 ^ 8 ≤ w.toNat) ∧
    (decode w = .error .reservedOpcode ↔ 0x0A ≤ w.toNat ∧ w.toNat < 2 ^ 8)

/-- R91: the eleven legal words, written out. -/
def Obligations.TableWordsDecodeAsTheirRows : Prop :=
  decode 0x00000000 = .ok .nop ∧ decode 0x00000001 = .ok .clear ∧ decode 0x00000002 = .ok .count ∧
  decode 0x00000003 = .ok .build ∧ decode 0x00000004 = .ok .genCodes ∧ decode 0x00000005 = .ok .hdrEmit ∧
  decode 0x00000006 = .ok .hdrLoad ∧ decode 0x00000007 = .ok .encode ∧ decode 0x00000008 = .ok .flush ∧
  decode 0x00000009 = .ok (.decode false) ∧ decode 0x00000109 = .ok (.decode true)

/-! ### The completion step (spec/40_control.md R120-R132; spec/60_exceptions.md R222) -/

/-- R121: an engine's turn with a legal word in flight is exec of that command; R120, R245: with none in flight the completion step
is not enabled and the block holds its state (that the turn is a step that only uses up its event is the model's choice,
log 19). The timeline is the model's own (log 1): its event is used up, and after its end every turn is the engine's. -/
def Obligations.StepRunsTheDecodedCommand : Prop :=
  (∀ (s : State) (w : Word) (i : Instr), s.pending = some w → decode w = .ok i →
    (∀ rest, s.timeline = .engine :: rest → step s = exec i { s with timeline := rest }) ∧
    (s.timeline = [] → step s = exec i s)) ∧
  ∀ s : State, s.pending = none →
    (∀ rest, s.timeline = .engine :: rest → step s = .next { s with timeline := rest }) ∧
    (s.timeline = [] → step s = .next s)

/-- R122: an Invalid word raises BAD_CMD and changes nothing besides the frame. -/
def Obligations.InvalidWordRaisesBadCmd : Prop :=
  ∀ (s : State) (w : Word) (e : Invalid) (rest : List Event),
    s.timeline = .engine :: rest → s.pending = some w → decode w = .error e → s.err = .none →
    step s = .next { s with
      timeline := rest, lastOp := w.extractLsb' 0 8, err := .badCmd, stop := .error,
      irqStat := s.irqStat ||| 0b11#2, pending := none }

/-- R123: while ERR ≠ 0 every word but 0x00000001, legal or not, is refused and changes only LAST_OP, STOP, IRQ_STAT[0], BUSY
and PENDING. -/
def Obligations.ErrorRefusesEveryWordButClear : Prop :=
  ∀ (s : State) (w : Word) (rest : List Event),
    s.timeline = .engine :: rest → s.pending = some w → s.err ≠ .none → w ≠ 0x00000001#32 →
    step s = .next { s with
      timeline := rest, lastOp := w.extractLsb' 0 8, stop := .refused, irqStat := s.irqStat ||| 0b01#2, pending := none }

/-- R130: the phase table; a command out of phase raises SEQ and changes nothing else. -/
def Obligations.OutOfPhaseCommandRaisesSeq : Prop :=
  ∀ (i : Instr) (s : State), s.err = .none →
    (match i with
      | .nop => False
      | .clear => False
      | .count => s.treeValid = true
      | .hdrLoad => s.treeValid = true
      | .build => s.treeValid = true
      | .genCodes => s.treeValid = false ∨ s.codesValid = true
      | .hdrEmit => s.treeValid = false ∨ s.encCount ≠ 0 ∨ s.encClosed = true
      | .encode => s.codesValid = false ∨ s.encClosed = true
      | .flush => s.codesValid = false ∨ s.encClosed = true
      | .decode _ => s.treeValid = false) →
    exec i s = .next { s with
      lastOp := opcodeOf i, err := .seq, stop := .error, irqStat := s.irqStat ||| 0b11#2, pending := none }

/-- R131, R132: the bounds table; a command in phase and out of range raises BOUNDS and changes nothing else. -/
def Obligations.OutOfRangeCommandRaisesBounds : Prop :=
  ∀ (i : Instr) (s : State), s.err = .none →
    (match i with
      | .nop => False
      | .clear => False
      | .build => False
      | .genCodes => False
      | .count => s.treeValid = false ∧ (s.cfg.ibufBytes < s.inLen.toNat ∨ s.inLen.toNat < s.ipos.toNat)
      | .hdrLoad => s.treeValid = false ∧ (s.cfg.ibufBytes < s.inLen.toNat ∨ s.inLen.toNat < s.ipos.toNat)
      | .encode => s.codesValid = true ∧ s.encClosed = false ∧
          (s.cfg.ibufBytes < s.inLen.toNat ∨ s.inLen.toNat < s.ipos.toNat ∨ s.cfg.obufBytes < s.outLen.toNat)
      | .hdrEmit => s.treeValid = true ∧ s.encCount = 0 ∧ s.encClosed = false ∧ s.cfg.obufBytes < s.outLen.toNat
      | .flush => s.codesValid = true ∧ s.encClosed = false ∧ s.cfg.obufBytes < s.outLen.toNat
      | .decode _ => s.treeValid = true ∧
          (s.cfg.ibufBytes < s.inLen.toNat ∨ 8 * s.inLen.toNat < s.ibitpos.toNat ∨ s.cfg.obufBytes < s.outLen.toNat)) →
    exec i s = .next { s with
      lastOp := opcodeOf i, err := .bounds, stop := .error, irqStat := s.irqStat ||| 0b11#2, pending := none }

/-- R121: whatever a completion does, it leaves BUSY = 0, LAST_OP the word's low byte, IRQ_STAT[0] set, and a STOP that is
not NONE. -/
def Obligations.CompletionEndsTheCommand : Prop :=
  ∀ (s t : State) (w : Word) (rest : List Event),
    s.timeline = .engine :: rest → s.pending = some w → step s = .next t →
    t.pending = none ∧ t.busy = false ∧ t.lastOp = w.extractLsb' 0 8 ∧ t.irqStat.getLsbD 0 = true ∧ t.stop ≠ .none ∧
      t.timeline = rest

/-- R222, R28, R229: ERR keeps its first error: a step changes a non-zero ERR only to 0, and only by reset, by a write to
ERR_CLR, or by the completion of CLEAR; and a step that changes ERR from 0 sets IRQ_STAT.ERR. -/
def Obligations.FirstErrorIsKept : Prop :=
  ∀ s t : State, step s = .next t → t.err ≠ s.err →
    (s.err ≠ .none →
      t.err = .none ∧
      ((∃ rest, s.timeline = .reset :: rest) ∨
       (∃ v rest, s.timeline = .host (.write 0x010#16 .word v) :: rest) ∨
       (s.pending = some 0x00000001#32 ∧ (s.timeline = [] ∨ ∃ rest, s.timeline = .engine :: rest)))) ∧
    (s.err = .none → t.irqStat.getLsbD 1 = true)

/-! ### NOP, CLEAR and reset (R124, R125; spec/70_reset_and_hazards.md R250-R252) -/

/-- R124: NOP does the frame and nothing else. -/
def Obligations.NopOnlyCompletes : Prop :=
  ∀ s : State, s.err = .none →
    exec .nop s = .next { s with
      lastOp := 0x00, stop := .done, irqStat := s.irqStat ||| 0b01#2, pending := none }

/-- R125: CLEAR runs in every state, ERR or not, and returns the datapath to its reset values; the buffers, IRQ_EN, NODE_SEL
and CODE_SEL stay. -/
def Obligations.ClearResetsTheDatapath : Prop :=
  ∀ s : State,
    exec .clear s = .next { s with
      freq := Vector.replicate 256 0, code := Vector.replicate 256 [], total := 0, nsym := 0, root := 0x1FF,
      node := Vector.replicate 511 ⟨false, false, 0x100, 0, 0x1FF, 0x1FF, 0x1FF, false⟩,
      treeValid := false, codesValid := false, encClosed := false,
      accBits := 0, accN := 0, encCount := 0, encBits := 0, decNode := 0x1FF, decCount := 0,
      inLen := 0, ipos := 0, ibitpos := 0, outLen := 0, err := .none,
      lastOp := 0x01, stop := .done, irqStat := s.irqStat ||| 0b01#2, pending := none }

/-- R250, R251: the reset input, at any time, also with a command in flight; the buffers become unwritten. The model's own
fields stay (log 15). -/
def Obligations.ResetInputGivesTheResetTable : Prop :=
  ∀ (s : State) (rest : List Event), s.timeline = .reset :: rest →
    step s = .next { s with
      pending := none, stop := .none, err := .none, lastOp := 0, irqEn := 0, irqStat := 0,
      inLen := 0, ipos := 0, ibitpos := 0, outLen := 0,
      freq := Vector.replicate 256 0, total := 0, treeValid := false, codesValid := false, encClosed := false,
      nsym := 0, root := 0x1FF,
      node := Vector.replicate 511 ⟨false, false, 0x100, 0, 0x1FF, 0x1FF, 0x1FF, false⟩,
      code := Vector.replicate 256 [], accBits := 0, accN := 0, encCount := 0, encBits := 0,
      decNode := 0x1FF, decCount := 0, nodeSel := 0, codeSel := 0, ibuf := [], obuf := [], timeline := rest }

/-! ### COUNT (spec/41_frequency.md) -/

/-- R140: COUNT of written bytes without overflow adds each byte's occurrences to FREQ and their number to TOTAL, and ends
DONE with IPOS = IN_LEN. -/
def Obligations.CountAddsOccurrences : Prop :=
  ∀ (s : State) (bs : List Byte), s.err = .none → s.treeValid = false →
    s.inLen.toNat ≤ s.cfg.ibufBytes → s.ipos.toNat + bs.length = s.inLen.toNat → ibufHolds s s.ipos.toNat bs →
    s.total.toNat + bs.length < 2 ^ 32 → (∀ b, (symGet s.freq b).toNat + bs.count b < 2 ^ 32) →
    ∃ f : Vector Word 256, (∀ b, (symGet f b).toNat = (symGet s.freq b).toNat + bs.count b) ∧
      exec .count s = .next { s with
        freq := f, total := BitVec.ofNat 32 (s.total.toNat + bs.length), ipos := s.inLen,
        lastOp := 0x02, stop := .done, irqStat := s.irqStat ||| 0b01#2, pending := none }

/-- R140, R141: at the first byte whose count, or the total, is already 2^32 − 1, COUNT raises COUNT_OVERFLOW: the bytes before
it stay counted and IPOS is its index. -/
def Obligations.CountStopsBeforeOverflow : Prop :=
  ∀ (s : State) (pre post : List Byte) (b : Byte), s.err = .none → s.treeValid = false →
    s.inLen.toNat ≤ s.cfg.ibufBytes → s.ipos.toNat + (pre ++ b :: post).length = s.inLen.toNat →
    ibufHolds s s.ipos.toNat (pre ++ [b]) →
    s.total.toNat + pre.length < 2 ^ 32 → (∀ c, (symGet s.freq c).toNat + pre.count c < 2 ^ 32) →
    ((symGet s.freq b).toNat + pre.count b = 2 ^ 32 - 1 ∨ s.total.toNat + pre.length = 2 ^ 32 - 1) →
    ∃ f : Vector Word 256, (∀ c, (symGet f c).toNat = (symGet s.freq c).toNat + pre.count c) ∧
      exec .count s = .next { s with
        freq := f, total := BitVec.ofNat 32 (s.total.toNat + pre.length),
        ipos := BitVec.ofNat 15 (s.ipos.toNat + pre.length), err := .countOverflow,
        lastOp := 0x02, stop := .error, irqStat := s.irqStat ||| 0b11#2, pending := none }

/-- R140, R71: COUNT in phase and in range completes on any bytes, written or not (a draw moves only the model's draw counter,
log 3), counting as many as it passes, and ends DONE at IN_LEN or with COUNT_OVERFLOW before it. -/
def Obligations.CountCompletesOnAnyBytes : Prop :=
  ∀ s : State, s.err = .none → s.treeValid = false →
    s.inLen.toNat ≤ s.cfg.ibufBytes → s.ipos.toNat ≤ s.inLen.toNat →
    ∃ t : State, exec .count s = .next t ∧
      t = { s with
        freq := t.freq, total := t.total, ipos := t.ipos, err := t.err, draws := t.draws,
        lastOp := 0x02, stop := t.stop, irqStat := t.irqStat, pending := none } ∧
      s.ipos.toNat ≤ t.ipos.toNat ∧ t.total.toNat = s.total.toNat + (t.ipos.toNat - s.ipos.toNat) ∧
      ((t.stop = .done ∧ t.ipos = s.inLen ∧ t.err = .none ∧ t.irqStat = s.irqStat ||| 0b01#2) ∨
       (t.stop = .error ∧ t.ipos.toNat < s.inLen.toNat ∧ t.err = .countOverflow ∧ t.irqStat = s.irqStat ||| 0b11#2))

/-! ### BUILD (spec/42_tree_build.md) -/

/-- R150, R154: BUILD of a table whose sum is TOTAL writes the arena, ROOT, NSYM, DEC_NODE, DEC_COUNT and TREE_VALID, where NSYM is
the number of symbols with a non-zero count; a wrong sum raises CORRUPT_HEADER, and BUILD writes nothing. -/
def Obligations.BuildWritesTheTreeOfARightSum : Prop :=
  ∀ s : State, s.err = .none → s.treeValid = false →
    (freqSum s.freq = s.total.toNat →
      exec .build s = .next { s with
        node := buildArena s.freq, root := buildRoot s.freq, decNode := buildRoot s.freq, decCount := 0, treeValid := true,
        nsym := BitVec.ofNat 9 ((s.freq.toList.filter (fun f => f ≠ 0)).length),
        lastOp := 0x03, stop := .done, irqStat := s.irqStat ||| 0b01#2, pending := none }) ∧
    (freqSum s.freq ≠ s.total.toNat →
      exec .build s = .next { s with
        err := .corruptHeader, lastOp := 0x03, stop := .error, irqStat := s.irqStat ||| 0b11#2, pending := none })

/-- R151: minkey gives a member of the queue whose pair (frequency, index) is least, ties going to the lower index. -/
def Obligations.MinkeyIsTheLeastPair : Prop :=
  ∀ (ns : List Entry) (q : List Nat), q ≠ [] →
    ∃ i, minkey ns q = some i ∧ i ∈ q ∧
      ∀ j ∈ q, j = i ∨ freqOf ns i < freqOf ns j ∨ (freqOf ns i = freqOf ns j ∧ i < j)

/-- R153: what BUILD leaves for n ≥ 1 leaves: leaves in ascending symbol order, internal nodes with two children that point
back, cleared entries after them, and ROOT = 2n − 2. -/
def Obligations.BuiltTreeHasTheLayout : Prop :=
  ∀ t : Vector Word 256, 1 ≤ symbolCount t →
    TreeLayout t (buildArena t) (symbolCount t) ∧ buildRoot t = BitVec.ofNat 9 (2 * symbolCount t - 2)

/-- R152: no node frequency wraps: each internal frequency is the exact sum of its children's, and the root's is the sum of the table. -/
def Obligations.RootFrequencyIsTheTotal : Prop :=
  ∀ t : Vector Word 256, 1 ≤ symbolCount t → freqSum t < 2 ^ 32 →
    (nodeOf (buildArena t) (2 * symbolCount t - 2)).f.toNat = freqSum t ∧
    ∀ i l r, symbolCount t ≤ i → i < 2 * symbolCount t - 1 →
      (nodeOf (buildArena t) i).left = BitVec.ofNat 9 l → (nodeOf (buildArena t) i).right = BitVec.ofNat 9 r →
      l < 511 → r < 511 →
      (nodeOf (buildArena t) i).f.toNat = (nodeOf (buildArena t) l).f.toNat + (nodeOf (buildArena t) r).f.toNat

/-- R155, R156: BUILD of the all-zero table succeeds with no tree; of one distinct symbol, that leaf, node 0, is the root. -/
def Obligations.DegenerateTablesBuildTheirTrees : Prop :=
  ∀ s : State, s.err = .none → s.treeValid = false →
    ((∀ b, symGet s.freq b = 0) → s.total = 0 →
      exec .build s = .next { s with
        node := Vector.replicate 511 Entry.cleared, root := 0x1FF, decNode := 0x1FF, nsym := 0, decCount := 0,
        treeValid := true, lastOp := 0x03, stop := .done, irqStat := s.irqStat ||| 0b01#2, pending := none }) ∧
    (∀ b : Byte, symGet s.freq b = s.total → s.total ≠ 0 → (∀ c, c ≠ b → symGet s.freq c = 0) →
      exec .build s = .next { s with
        node := (Vector.replicate 511 Entry.cleared).set 0
          ⟨true, true, b.setWidth 9, s.total, 0x1FF, 0x1FF, 0x1FF, false⟩,
        root := 0, decNode := 0, nsym := 1, decCount := 0, treeValid := true,
        lastOp := 0x03, stop := .done, irqStat := s.irqStat ||| 0b01#2, pending := none })

/-- R159: the arena of the known tree A:5, B:9, C:12, D:13, E:16, F:45, entry for entry. -/
def Obligations.KnownTreeHasItsArena : Prop :=
  mergeLeaves (leavesFrom 0x41 [5, 9, 12, 13, 16, 45]) =
    ([⟨true, true, 0x41, 5, 0x1FF, 0x1FF, 6, false⟩, ⟨true, true, 0x42, 9, 0x1FF, 0x1FF, 6, true⟩,
      ⟨true, true, 0x43, 12, 0x1FF, 0x1FF, 7, false⟩, ⟨true, true, 0x44, 13, 0x1FF, 0x1FF, 7, true⟩,
      ⟨true, true, 0x45, 16, 0x1FF, 0x1FF, 8, true⟩, ⟨true, true, 0x46, 45, 0x1FF, 0x1FF, 10, false⟩,
      ⟨true, false, 0x100, 14, 0, 1, 8, false⟩, ⟨true, false, 0x100, 25, 2, 3, 9, false⟩,
      ⟨true, false, 0x100, 30, 6, 4, 9, true⟩, ⟨true, false, 0x100, 55, 7, 8, 10, true⟩,
      ⟨true, false, 0x100, 100, 5, 9, 0x1FF, false⟩], [10])

/-! ### GENCODES (spec/43_code_table.md) -/

/-- R170, R171: GENCODES on a built tree gives each leaf's symbol its path code and every other symbol no code, and the encoder
starts empty; the only code of a one-symbol tree is [0]. It runs on every built tree, the empty one too. -/
def Obligations.GenCodesWritesEveryPathCode : Prop :=
  ∀ s : State, s.err = .none → s.treeValid = true → s.codesValid = false → treeFromTable s →
    ∃ c : Vector (List Bool) 256,
      exec .genCodes s = .next { s with
        code := c, accBits := 0, accN := 0, encCount := 0, encBits := 0, codesValid := true, encClosed := false,
        lastOp := 0x04, stop := .done, irqStat := s.irqStat ||| 0b01#2, pending := none } ∧
      (∀ b, symGet s.freq b = 0 → symGet c b = []) ∧
      (∀ k, k < s.nsym.toNat → ∃ b : Byte, (nodeOf s.node k).sym = b.setWidth 9 ∧
        pathcode s.node s.root s.nsym.toNat k = .ok (symGet c b)) ∧
      (s.nsym = 1 → ∀ b, symGet s.freq b ≠ 0 → symGet c b = [false])

/-- R173: the path code of a leaf, walked down from ROOT, 0 to the left and 1 to the right, ends at that leaf. -/
def Obligations.PathCodeLeadsDownToItsLeaf : Prop :=
  ∀ (t : Vector Word 256) (k : Nat), 2 ≤ symbolCount t → k < symbolCount t →
    ∃ bits, pathcode (buildArena t) (buildRoot t) (symbolCount t) k = .ok bits ∧
      descend (buildArena t) (buildRoot t) bits = some (BitVec.ofNat 9 k)

/-- R174 (b): for two symbols or more no code is a prefix of another. -/
def Obligations.CodesArePrefixFree : Prop :=
  ∀ (t : Vector Word 256) (c : Vector (List Bool) 256) (a b : Byte), 2 ≤ symbolCount t →
    codeTable (buildArena t) (buildRoot t) (symbolCount t) = .ok c →
    symGet t a ≠ 0 → symGet t b ≠ 0 → a ≠ b → ¬ symGet c a <+: symGet c b

/-- R174 (a), (c): for n ≥ 2 symbols, a symbol has a code exactly when its count is not 0, and no code is longer than n − 1. -/
def Obligations.CodeLengthsAreBounded : Prop :=
  ∀ (t : Vector Word 256) (c : Vector (List Bool) 256), 2 ≤ symbolCount t →
    codeTable (buildArena t) (buildRoot t) (symbolCount t) = .ok c →
    ∀ b, (1 ≤ (symGet c b).length ↔ symGet t b ≠ 0) ∧ (symGet c b).length ≤ symbolCount t - 1 ∧
      symbolCount t - 1 ≤ 255

/-! ### HDR_EMIT and HDR_LOAD (spec/30_encoding.md R104; spec/44_encoder.md R180; spec/45_decoder.md R200) -/

/-- R104: the header is 1028 bytes, each field little-endian. -/
def Obligations.HeaderIsLittleEndianFields : Prop :=
  ∀ (t : Vector Word 256) (total : Word), (headerBytes t total).length = 1028 ∧
    (∀ (s : Byte) (j : Nat), j < 4 →
      (headerBytes t total)[4 * s.toNat + j]? = some (BitVec.ofNat 8 ((symGet t s).toNat / 2 ^ (8 * j)))) ∧
    ∀ j, j < 4 → (headerBytes t total)[1024 + j]? = some (BitVec.ofNat 8 (total.toNat / 2 ^ (8 * j)))

/-- R180, R61: with room, HDR_EMIT appends the whole header at OUT_LEN, and every byte of OBUF outside those 1028 reads as before;
without, it stops OUT_FULL and nothing is written. -/
def Obligations.HdrEmitAppendsTheHeaderOrNothing : Prop :=
  ∀ s : State, s.err = .none → s.treeValid = true → s.encCount = 0 → s.encClosed = false →
    s.outLen.toNat ≤ s.cfg.obufBytes →
    (s.outLen.toNat + 1028 ≤ s.cfg.obufBytes →
      ∃ m : List Host.Cell,
        exec .hdrEmit s = .next { s with
          obuf := m, outLen := BitVec.ofNat 15 (s.outLen.toNat + 1028),
          lastOp := 0x05, stop := .done, irqStat := s.irqStat ||| 0b01#2, pending := none } ∧
        (∀ j, j < 1028 → Memory.read m (s.outLen.toNat + j) = (headerBytes s.freq s.total)[j]?) ∧
        ∀ p, p < s.outLen.toNat ∨ s.outLen.toNat + 1028 ≤ p → Memory.read m p = Memory.read s.obuf p) ∧
    (s.cfg.obufBytes < s.outLen.toNat + 1028 →
      exec .hdrEmit s = .next { s with
        lastOp := 0x05, stop := .outFull, irqStat := s.irqStat ||| 0b01#2, pending := none })

/-- R200, R201, R105: HDR_LOAD of a header in IBUF loads the table it serialises, if the sum is right, and the payload starts
right after it; a wrong sum, or fewer than 1028 bytes, raises CORRUPT_HEADER, and nothing is written. -/
def Obligations.HdrLoadReadsBackAValidHeader : Prop :=
  ∀ s : State, s.err = .none → s.treeValid = false → s.inLen.toNat ≤ s.cfg.ibufBytes →
    (∀ (f : Vector Word 256) (total : Word), s.ipos.toNat + 1028 ≤ s.inLen.toNat →
      ibufHolds s s.ipos.toNat (headerBytes f total) →
      (freqSum f = total.toNat →
        exec .hdrLoad s = .next { s with
          freq := f, total := total, ipos := BitVec.ofNat 15 (s.ipos.toNat + 1028),
          ibitpos := BitVec.ofNat 18 (8 * (s.ipos.toNat + 1028)),
          lastOp := 0x06, stop := .done, irqStat := s.irqStat ||| 0b01#2, pending := none }) ∧
      (freqSum f ≠ total.toNat →
        exec .hdrLoad s = .next { s with
          err := .corruptHeader, lastOp := 0x06, stop := .error, irqStat := s.irqStat ||| 0b11#2, pending := none })) ∧
    (s.ipos.toNat ≤ s.inLen.toNat → s.inLen.toNat < s.ipos.toNat + 1028 →
      exec .hdrLoad s = .next { s with
        err := .corruptHeader, lastOp := 0x06, stop := .error, irqStat := s.irqStat ||| 0b11#2, pending := none })

/-- R200, R71: HDR_LOAD in phase and in range completes on any bytes, written or not (draws: log 3): DONE with a valid table, or
CORRUPT_HEADER with nothing but the frame. -/
def Obligations.HdrLoadCompletesOnAnyBytes : Prop :=
  ∀ s : State, s.err = .none → s.treeValid = false →
    s.inLen.toNat ≤ s.cfg.ibufBytes → s.ipos.toNat ≤ s.inLen.toNat →
    ∃ t : State, exec .hdrLoad s = .next t ∧
      ((freqSum t.freq = t.total.toNat ∧ s.ipos.toNat + 1028 ≤ s.inLen.toNat ∧
        t = { s with
          freq := t.freq, total := t.total, ipos := BitVec.ofNat 15 (s.ipos.toNat + 1028),
          ibitpos := BitVec.ofNat 18 (8 * (s.ipos.toNat + 1028)), draws := t.draws,
          lastOp := 0x06, stop := .done, irqStat := s.irqStat ||| 0b01#2, pending := none }) ∨
       t = { s with
          err := .corruptHeader, draws := t.draws,
          lastOp := 0x06, stop := .error, irqStat := s.irqStat ||| 0b11#2, pending := none })

/-! ### ENCODE and FLUSH (spec/44_encoder.md) -/

/-- R182, R184: ENCODE of written bytes that all have codes, within TOTAL and within OBUF: the pending bits and the codes, in
order and MSB first, go out in whole bytes at OUT_LEN, and the rest is pending, left-justified over zeros. -/
def Obligations.EncodePacksTheCodes : Prop :=
  ∀ (s : State) (bs : List Byte), s.err = .none → s.codesValid = true → s.encClosed = false → accPadded s →
    s.inLen.toNat ≤ s.cfg.ibufBytes → s.outLen.toNat ≤ s.cfg.obufBytes →
    s.ipos.toNat + bs.length = s.inLen.toNat → ibufHolds s s.ipos.toNat bs →
    (∀ b ∈ bs, symGet s.code b ≠ []) → s.encCount.toNat + bs.length ≤ s.total.toNat →
    s.encBits.toNat + (payloadBits s.code bs).length < 2 ^ 64 →
    s.outLen.toNat + (pendingBits s ++ payloadBits s.code bs).length / 8 ≤ s.cfg.obufBytes →
    exec .encode s = .next { s with
      obuf := Memory.writeList s.obuf s.outLen.toNat
        (packBits ((pendingBits s ++ payloadBits s.code bs).length / 8) (pendingBits s ++ payloadBits s.code bs)),
      outLen := BitVec.ofNat 15 (s.outLen.toNat + (pendingBits s ++ payloadBits s.code bs).length / 8),
      accBits := byteOfBits ((pendingBits s ++ payloadBits s.code bs).drop
        (8 * ((pendingBits s ++ payloadBits s.code bs).length / 8))),
      accN := BitVec.ofNat 3 ((pendingBits s ++ payloadBits s.code bs).length % 8),
      encCount := BitVec.ofNat 32 (s.encCount.toNat + bs.length),
      encBits := BitVec.ofNat 64 (s.encBits.toNat + (payloadBits s.code bs).length),
      ipos := s.inLen, lastOp := 0x07, stop := .done, irqStat := s.irqStat ||| 0b01#2, pending := none }

/-- R182, R183, R185, R225, R227 (a): at the byte it cannot take ENCODE stops, NO_CODE tested before EXCESS_SYMBOL and both before
OUT_FULL. At the byte at IPOS each leaves everything but the frame (and ERR) as it is; in mid-chunk the symbols before the
byte stay encoded and IPOS is its index. -/
def Obligations.EncodeStopsAtTheByteItCannotTake : Prop :=
  ∀ (s : State) (b : Byte), s.err = .none → s.codesValid = true → s.encClosed = false →
    s.inLen.toNat ≤ s.cfg.ibufBytes → s.outLen.toNat ≤ s.cfg.obufBytes →
    (s.ipos.toNat < s.inLen.toNat → Memory.read s.ibuf s.ipos.toNat = some b →
      (symGet s.code b = [] →
        exec .encode s = .next { s with
          err := .noCode, lastOp := 0x07, stop := .error, irqStat := s.irqStat ||| 0b11#2, pending := none }) ∧
      (symGet s.code b ≠ [] → s.encCount = s.total →
        exec .encode s = .next { s with
          err := .excessSymbol, lastOp := 0x07, stop := .error, irqStat := s.irqStat ||| 0b11#2, pending := none }) ∧
      (symGet s.code b ≠ [] → s.encCount ≠ s.total →
        s.cfg.obufBytes < s.outLen.toNat + (s.accN.toNat + (symGet s.code b).length) / 8 →
        exec .encode s = .next { s with
          lastOp := 0x07, stop := .outFull, irqStat := s.irqStat ||| 0b01#2, pending := none })) ∧
    (∀ pre post : List Byte, accPadded s → s.ipos.toNat + (pre ++ b :: post).length = s.inLen.toNat →
      ibufHolds s s.ipos.toNat (pre ++ [b]) → (∀ x ∈ pre, symGet s.code x ≠ []) →
      s.encCount.toNat + pre.length ≤ s.total.toNat → s.encBits.toNat + (payloadBits s.code pre).length < 2 ^ 64 →
      s.outLen.toNat + (pendingBits s ++ payloadBits s.code pre).length / 8 ≤ s.cfg.obufBytes →
      (symGet s.code b = [] →
        exec .encode s = .next { afterEncoding s pre with
          err := .noCode, lastOp := 0x07, stop := .error, irqStat := s.irqStat ||| 0b11#2, pending := none }) ∧
      (symGet s.code b ≠ [] → s.encCount.toNat + pre.length = s.total.toNat →
        exec .encode s = .next { afterEncoding s pre with
          err := .excessSymbol, lastOp := 0x07, stop := .error, irqStat := s.irqStat ||| 0b11#2, pending := none }) ∧
      (symGet s.code b ≠ [] → s.encCount.toNat + pre.length < s.total.toNat →
        s.cfg.obufBytes < s.outLen.toNat + (pendingBits s ++ payloadBits s.code (pre ++ [b])).length / 8 →
        exec .encode s = .next { afterEncoding s pre with
          lastOp := 0x07, stop := .outFull, irqStat := s.irqStat ||| 0b01#2, pending := none }))

/-- R182, R184 with the invariants of R56: ENCODE in phase and in range completes on any bytes, written or not (draws: log 3). It
takes some symbols xs, IBUF's own wherever they are written, and leaves them packed: what it stores is OBUF from OUT_LEN on,
one byte for every eight bits pending or produced, and nothing else changes. -/
def Obligations.EncodeCompletesOnAnyBytes : Prop :=
  ∀ s : State, Inv s → s.err = .none → s.codesValid = true → s.encClosed = false →
    s.inLen.toNat ≤ s.cfg.ibufBytes → s.ipos.toNat ≤ s.inLen.toNat → s.outLen.toNat ≤ s.cfg.obufBytes →
    ∃ (t : State) (xs : List Byte), exec .encode s = .next t ∧
      t = { afterEncoding s xs with
        err := t.err, draws := t.draws, lastOp := 0x07, stop := t.stop, irqStat := t.irqStat, pending := none } ∧
      (∀ x ∈ xs, symGet s.code x ≠ []) ∧
      (∀ j b, j < xs.length → Memory.read s.ibuf (s.ipos.toNat + j) = some b → xs[j]? = some b) ∧
      t.ipos.toNat = s.ipos.toNat + xs.length ∧ t.ipos.toNat ≤ s.inLen.toNat ∧
      t.encCount.toNat = s.encCount.toNat + xs.length ∧
      t.encBits.toNat = s.encBits.toNat + (payloadBits s.code xs).length ∧
      t.outLen.toNat = s.outLen.toNat + (s.accN.toNat + (t.encBits.toNat - s.encBits.toNat)) / 8 ∧
      obufSameOutside s t s.outLen.toNat ((s.accN.toNat + (t.encBits.toNat - s.encBits.toNat)) / 8) ∧
      ((t.stop = .done ∧ t.ipos = s.inLen ∧ t.err = .none ∧ t.irqStat = s.irqStat ||| 0b01#2) ∨
       (t.stop = .outFull ∧ t.ipos.toNat < s.inLen.toNat ∧ t.err = .none ∧ t.irqStat = s.irqStat ||| 0b01#2) ∨
       (t.stop = .error ∧ t.ipos.toNat < s.inLen.toNat ∧ (t.err = .noCode ∨ t.err = .excessSymbol) ∧
        t.irqStat = s.irqStat ||| 0b11#2))

/-- R185: with OUT_LEN = 0 the room is always there: ENCODE takes the symbol at IPOS, if it has a code and TOTAL is not reached. -/
def Obligations.DrainedOutputTakesTheNextSymbol : Prop :=
  ∀ (s : State) (b : Byte), Inv s → s.err = .none → s.codesValid = true → s.encClosed = false → s.outLen = 0 →
    s.inLen.toNat ≤ s.cfg.ibufBytes → s.ipos.toNat < s.inLen.toNat → Memory.read s.ibuf s.ipos.toNat = some b →
    symGet s.code b ≠ [] → s.encCount ≠ s.total →
    ∃ t : State, exec .encode s = .next t ∧ s.ipos.toNat < t.ipos.toNat ∧ s.encCount.toNat < t.encCount.toNat ∧
      s.encBits.toNat + (symGet s.code b).length ≤ t.encBits.toNat

/-- R190, R191: FLUSH: INCOMPLETE unless ENC_COUNT = TOTAL; OUT_FULL, not closed, when a byte is pending and OBUF is full; else the
pending byte is written at OUT_LEN, padded, and the stream is closed. -/
def Obligations.FlushWritesThePaddedLastByte : Prop :=
  ∀ s : State, s.err = .none → s.codesValid = true → s.encClosed = false → s.outLen.toNat ≤ s.cfg.obufBytes →
    (s.encCount ≠ s.total →
      exec .flush s = .next { s with
        err := .incomplete, lastOp := 0x08, stop := .error, irqStat := s.irqStat ||| 0b11#2, pending := none }) ∧
    (s.encCount = s.total → s.accN ≠ 0 → s.outLen.toNat = s.cfg.obufBytes →
      exec .flush s = .next { s with
        lastOp := 0x08, stop := .outFull, irqStat := s.irqStat ||| 0b01#2, pending := none }) ∧
    (s.encCount = s.total → s.accN ≠ 0 → s.outLen.toNat < s.cfg.obufBytes →
      exec .flush s = .next { s with
        obuf := Memory.write s.obuf s.outLen.toNat s.accBits, outLen := s.outLen + 1, accBits := 0, accN := 0,
        encClosed := true, lastOp := 0x08, stop := .done, irqStat := s.irqStat ||| 0b01#2, pending := none }) ∧
    (s.encCount = s.total → s.accN = 0 →
      exec .flush s = .next { s with
        encClosed := true, lastOp := 0x08, stop := .done, irqStat := s.irqStat ||| 0b01#2, pending := none })

/-! ### DECODE (spec/45_decoder.md) -/

/-- R205, R207: once DEC_COUNT = TOTAL, DECODE is DONE and reads no bit, so padding and trailing bytes are never consumed; before
that, when the chunk's bits are used up inside a code, LAST = 1 raises TRUNCATED_PAYLOAD and LAST = 0 stops IN_EMPTY. -/
def Obligations.DecodeEndsByTotalThenByLast : Prop :=
  ∀ s : State, s.err = .none → s.treeValid = true → s.inLen.toNat ≤ s.cfg.ibufBytes → s.outLen.toNat ≤ s.cfg.obufBytes →
    (∀ last, s.decCount = s.total → s.ibitpos.toNat ≤ 8 * s.inLen.toNat →
      exec (.decode last) s = .next { s with
        lastOp := 0x09, stop := .done, irqStat := s.irqStat ||| 0b01#2, pending := none }) ∧
    (∀ e : Entry, s.decCount ≠ s.total → entryAt s.node s.decNode = some e → e.isLeaf = false →
      s.ibitpos.toNat = 8 * s.inLen.toNat →
      exec (.decode true) s = .next { s with
        err := .truncatedPayload, lastOp := 0x09, stop := .error, irqStat := s.irqStat ||| 0b11#2, pending := none } ∧
      exec (.decode false) s = .next { s with
        lastOp := 0x09, stop := .inEmpty, irqStat := s.irqStat ||| 0b01#2, pending := none })

/-- R206: when the root is a leaf, DECODE emits its symbol until TOTAL or until OBUF is full, and consumes no bit. -/
def Obligations.SingleSymbolDecodeReadsNoBits : Prop :=
  ∀ (s : State) (last : Bool) (e : Entry) (m : Nat), s.err = .none → s.treeValid = true →
    entryAt s.node s.decNode = some e → e.isLeaf = true → s.decCount.toNat ≤ s.total.toNat →
    s.inLen.toNat ≤ s.cfg.ibufBytes → s.ibitpos.toNat ≤ 8 * s.inLen.toNat → s.outLen.toNat ≤ s.cfg.obufBytes →
    m = min (s.total.toNat - s.decCount.toNat) (s.cfg.obufBytes - s.outLen.toNat) →
    exec (.decode last) s = .next { s with
      obuf := Memory.writeList s.obuf s.outLen.toNat (List.replicate m (e.sym.setWidth 8)),
      outLen := BitVec.ofNat 15 (s.outLen.toNat + m), decCount := BitVec.ofNat 32 (s.decCount.toNat + m),
      lastOp := 0x09, stop := if s.decCount.toNat + m = s.total.toNat then .done else .outFull,
      irqStat := s.irqStat ||| 0b01#2, pending := none }

/-- R204, R205, R207, R208: on a built tree of two symbols or more, DECODE inverts the codes from any DEC_NODE that the bits `seen`
before IBITPOS lead to. Where those and the IBUF bits from IBITPOS on make the codes of ys and a part of one more code, DECODE
writes ys and comes to the node of that part: it is DONE after ys if TOTAL wants no more; at the end of the chunk inside the
next code it stops IN_EMPTY, or TRUNCATED_PAYLOAD with LAST = 1; with OBUF full it stops OUT_FULL before the next code's
last bit. -/
def Obligations.DecodeInvertsTheCodes : Prop :=
  ∀ (s : State) (c : Vector (List Bool) 256) (seen bits part : List Bool) (ys : List Byte) (n : Index) (e : Entry),
    s.err = .none → s.treeValid = true → treeFromTable s → 2 ≤ symbolCount s.freq →
    codeTable s.node s.root s.nsym.toNat = .ok c →
    descend s.node s.root seen = some s.decNode → entryAt s.node s.decNode = some e → e.isLeaf = false →
    (∀ y ∈ ys, symGet s.freq y ≠ 0) → seen ++ bits = payloadBits c ys ++ part → descend s.node s.root part = some n →
    ibufBitsHold s s.ibitpos.toNat bits →
    s.inLen.toNat ≤ s.cfg.ibufBytes → s.ibitpos.toNat + bits.length ≤ 8 * s.inLen.toNat →
    s.outLen.toNat + ys.length ≤ s.cfg.obufBytes →
    (∀ last, part = [] → s.decCount.toNat + ys.length = s.total.toNat →
      exec (.decode last) s = .next { afterDecoding s ys bits.length s.root with
        lastOp := 0x09, stop := .done, irqStat := s.irqStat ||| 0b01#2, pending := none }) ∧
    (∀ y, s.decCount.toNat + ys.length < s.total.toNat → part <+: symGet c y → part ≠ symGet c y →
      s.ibitpos.toNat + bits.length = 8 * s.inLen.toNat →
      exec (.decode false) s = .next { afterDecoding s ys bits.length n with
        lastOp := 0x09, stop := .inEmpty, irqStat := s.irqStat ||| 0b01#2, pending := none } ∧
      exec (.decode true) s = .next { afterDecoding s ys bits.length n with
        err := .truncatedPayload, lastOp := 0x09, stop := .error, irqStat := s.irqStat ||| 0b11#2, pending := none }) ∧
    (∀ last y x, s.decCount.toNat + ys.length < s.total.toNat → symGet c y = part ++ [x] →
      ibufBitsHold s s.ibitpos.toNat (bits ++ [x]) → s.ibitpos.toNat + bits.length < 8 * s.inLen.toNat →
      s.outLen.toNat + ys.length = s.cfg.obufBytes →
      exec (.decode last) s = .next { afterDecoding s ys bits.length n with
        lastOp := 0x09, stop := .outFull, irqStat := s.irqStat ||| 0b01#2, pending := none })

/-- R211, R207: with fewer bits than the codes of the symbols TOTAL still wants, DECODE with LAST = 1 raises TRUNCATED_PAYLOAD
with DEC_COUNT < TOTAL. -/
def Obligations.ShortPayloadIsTruncated : Prop :=
  ∀ (s : State) (c : Vector (List Bool) 256) (xs : List Byte), s.err = .none → s.treeValid = true →
    treeFromTable s → 2 ≤ symbolCount s.freq → codeTable s.node s.root s.nsym.toNat = .ok c →
    s.decNode = s.root → (∀ x ∈ xs, symGet s.freq x ≠ 0) → s.decCount.toNat + xs.length = s.total.toNat →
    s.inLen.toNat ≤ s.cfg.ibufBytes → s.ibitpos.toNat ≤ 8 * s.inLen.toNat →
    8 * s.inLen.toNat < s.ibitpos.toNat + (payloadBits c xs).length →
    ibufBitsHold s s.ibitpos.toNat ((payloadBits c xs).take (8 * s.inLen.toNat - s.ibitpos.toNat)) →
    s.outLen.toNat + xs.length ≤ s.cfg.obufBytes →
    ∃ t : State, exec (.decode true) s = .next t ∧ t.stop = .error ∧ t.err = .truncatedPayload ∧
      t.ibitpos.toNat = 8 * s.inLen.toNat ∧ t.decCount.toNat < s.total.toNat ∧ t.total = s.total

/-- R204 with the invariants of R56: DECODE in phase and in range completes on any bits, written or not (draws: log 3). What it
stores is one byte per symbol, each a symbol of the table, from OUT_LEN on, and nothing else changes. -/
def Obligations.DecodeCompletesOnAnyBits : Prop :=
  ∀ (s : State) (last : Bool), Inv s → s.err = .none → s.treeValid = true →
    s.inLen.toNat ≤ s.cfg.ibufBytes → s.ibitpos.toNat ≤ 8 * s.inLen.toNat → s.outLen.toNat ≤ s.cfg.obufBytes →
    ∃ (t : State) (ys : List Byte) (k : Nat), exec (.decode last) s = .next t ∧
      t = { afterDecoding s ys k t.decNode with
        err := t.err, draws := t.draws, lastOp := 0x09, stop := t.stop, irqStat := t.irqStat, pending := none } ∧
      (∀ y ∈ ys, symGet s.freq y ≠ 0) ∧
      t.ibitpos.toNat = s.ibitpos.toNat + k ∧ t.ibitpos.toNat ≤ 8 * s.inLen.toNat ∧
      t.decCount.toNat = s.decCount.toNat + ys.length ∧ t.decCount.toNat ≤ s.total.toNat ∧
      t.outLen.toNat = s.outLen.toNat + ys.length ∧ obufSameOutside s t s.outLen.toNat ys.length ∧
      ((t.stop = .done ∧ t.decCount = s.total ∧ t.err = .none ∧ t.irqStat = s.irqStat ||| 0b01#2) ∨
       (t.stop = .outFull ∧ t.outLen.toNat = s.cfg.obufBytes ∧ t.err = .none ∧ t.irqStat = s.irqStat ||| 0b01#2) ∨
       (t.stop = .inEmpty ∧ last = false ∧ t.ibitpos.toNat = 8 * s.inLen.toNat ∧ t.err = .none ∧
        t.irqStat = s.irqStat ||| 0b01#2) ∨
       (t.stop = .error ∧ last = true ∧ t.ibitpos.toNat = 8 * s.inLen.toNat ∧ t.err = .truncatedPayload ∧
        t.irqStat = s.irqStat ||| 0b11#2))

/-- R210 for a payload in one chunk: with the tree rebuilt from the counts of xs, and the payload of xs (R102, zero padding
included) in IBUF, DECODE.last writes xs: for the empty input, one symbol, and more. -/
def Obligations.PayloadDecodesToItsInput : Prop :=
  ∀ (s : State) (c : Vector (List Bool) 256) (xs : List Byte) (p : Nat), s.err = .none → s.treeValid = true →
    treeFromTable s → codeTable s.node s.root s.nsym.toNat = .ok c → tableCounts s.freq xs →
    s.total.toNat = xs.length → s.decCount = 0 → s.decNode = s.root →
    s.ibitpos.toNat = 8 * p → s.inLen.toNat = p + (payload c xs).length → s.inLen.toNat ≤ s.cfg.ibufBytes →
    ibufHolds s p (payload c xs) → s.outLen.toNat + xs.length ≤ s.cfg.obufBytes →
    ∃ t : State, exec (.decode true) s = .next t ∧ t.stop = .done ∧ t.err = .none ∧ t.decCount = s.total ∧
      t.outLen.toNat = s.outLen.toNat + xs.length ∧ obufHolds t s.outLen.toNat xs ∧
      obufSameOutside s t s.outLen.toNat xs.length

/-! ### The host's side (spec/10_state.md; spec/20_memory.md) -/

/-- R22, R23, R29, R60 and the table of 10_state.md section 2: every word of the map is reached at its offset, written out from
that table, and the constant registers read their constants, busy or not. -/
def Obligations.EveryMappedWordIsReached : Prop :=
  (∀ c : Config,
    (∀ p ∈ [(0x000#16, Reg.id), (0x004#16, .version), (0x008#16, .cmd), (0x00C#16, .status), (0x010#16, .errClr),
        (0x014#16, .irqEn), (0x018#16, .irqStat), (0x01C#16, .config), (0x020#16, .inLen), (0x024#16, .ipos),
        (0x028#16, .ibitpos), (0x02C#16, .outLen), (0x030#16, .total), (0x034#16, .nsym), (0x038#16, .root),
        (0x03C#16, .acc), (0x040#16, .encCount), (0x044#16, .encBitsLo), (0x048#16, .encBitsHi), (0x04C#16, .decNode),
        (0x050#16, .decCount), (0x054#16, .nodeSel), (0x058#16, .nodeLink), (0x05C#16, .nodeSym), (0x060#16, .nodeFreq),
        (0x064#16, .codeSel), (0x068#16, .codeLen)],
      reach c p.1 .word = some (.reg p.2)) ∧
    (∀ k : Fin 8, reach c (BitVec.ofNat 16 (0x06C + 4 * k.val)) .word = some (.reg (.codeW k))) ∧
    (∀ b : Byte, reach c (BitVec.ofNat 16 (0x400 + 4 * b.toNat)) .word = some (.freq b)) ∧
    (∀ k, 4 * k < c.ibufBytes → reach c (BitVec.ofNat 16 (0x4000 + 4 * k)) .word = some (.ibuf (4 * k))) ∧
    (∀ k, 4 * k < c.obufBytes → reach c (BitVec.ofNat 16 (0x8000 + 4 * k)) .word = some (.obuf (4 * k)))) ∧
  ∀ s : State, (readTarget (.reg .id) s).1 = 0x48554646 ∧ (readTarget (.reg .version) s).1 = 0x00010000 ∧
    (readTarget (.reg .config) s).1.toNat = s.cfg.ibufBytes + 2 ^ 16 * s.cfg.obufBytes

/-- R62, R63, R64, R74: a narrow, misaligned or reserved access, busy or not, changes no HTB state and answers data 0 with an
error; the model records the host-side fault (log 7). -/
def Obligations.BusErrorHasNoEffect : Prop :=
  ∀ (s : State) (a : Offset) (w : Width) (x : Access) (rest : List Event),
    s.timeline = .host x :: rest → (x = .read a w ∨ ∃ v, x = .write a w v) →
    (w ≠ .word ∨ a.toNat % 4 ≠ 0 ∨ (0x8C ≤ a.toNat ∧ a.toNat < 0x400) ∨ (0x800 ≤ a.toNat ∧ a.toNat < 0x4000) ∨
      (0x4000 + s.cfg.ibufBytes ≤ a.toNat ∧ a.toNat < 0x8000) ∨
      (0x8000 + s.cfg.obufBytes ≤ a.toNat ∧ a.toNat < 0xC000) ∨ 0xC000 ≤ a.toNat) →
    step s = .next { s with
      timeline := rest, response := some ⟨0, true⟩, busFaults := .busError a :: s.busFaults }

/-- R65, R223: while BUSY = 1, a write to CMD, an RW register of R30-R34, R43, R48, FREQ or a buffer is dropped with BUSY_WRITE
(recorded if ERR was 0); a write to any other register but IRQ_EN, IRQ_STAT and ERR_CLR is ignored. That a dropped write leaves
IRQ_STAT[1] as it is where ERR was not 0 is the model's reading of R223 by R222 and R28 (log 13). -/
def Obligations.BusyDropsWrites : Prop :=
  ∀ (s : State) (a : Offset) (v : Word) (rest : List Event) (g : Target),
    s.timeline = .host (.write a .word v) :: rest → s.busy = true → reach s.cfg a .word = some g →
    ((g ∈ [Target.reg .cmd, .reg .inLen, .reg .ipos, .reg .ibitpos, .reg .outLen, .reg .total, .reg .nodeSel, .reg .codeSel] ∨
        (∃ b, g = .freq b) ∨ (∃ i, g = .ibuf i) ∨ (∃ i, g = .obuf i)) →
      step s = .next { s with
        timeline := rest, response := some ⟨0, false⟩,
        err := if s.err = .none then .busyWrite else s.err,
        irqStat := if s.err = .none then s.irqStat ||| 0b10#2 else s.irqStat }) ∧
    ((∃ r, g = .reg r ∧ r ∉ [Reg.cmd, .inLen, .ipos, .ibitpos, .outLen, .total, .nodeSel, .codeSel, .irqEn, .irqStat, .errClr]) →
      step s = .next { s with timeline := rest, response := some ⟨0, false⟩ })

/-- R26, R27, R28: ERR_CLR clears ERR alone, IRQ_EN stores two bits, IRQ_STAT clears the bits written 1; all three also while
BUSY = 1. -/
def Obligations.InterruptWritesWorkWhileBusy : Prop :=
  ∀ (s : State) (v : Word) (rest : List Event),
    (s.timeline = .host (.write 0x010#16 .word v) :: rest →
      step s = .next { s with timeline := rest, response := some ⟨0, false⟩, err := .none }) ∧
    (s.timeline = .host (.write 0x014#16 .word v) :: rest →
      step s = .next { s with timeline := rest, response := some ⟨0, false⟩, irqEn := v.extractLsb' 0 2 }) ∧
    (s.timeline = .host (.write 0x018#16 .word v) :: rest →
      step s = .next { s with
        timeline := rest, response := some ⟨0, false⟩, irqStat := s.irqStat &&& ~~~(v.extractLsb' 0 2) })

/-- R25, R58: while BUSY = 0 a write to CMD, ERR or not, puts the word in flight and does nothing else; an RW register stores the
low bits of its width and drops the rest; a write to a read-only register is ignored and raises no error. -/
def Obligations.IdleWritesStoreTheirFields : Prop :=
  ∀ (s : State) (v : Word) (rest : List Event), s.pending = none →
    (s.timeline = .host (.write 0x008#16 .word v) :: rest →
      step s = .next { s with timeline := rest, response := some ⟨0, false⟩, pending := some v }) ∧
    (s.timeline = .host (.write 0x020#16 .word v) :: rest →
      step s = .next { s with timeline := rest, response := some ⟨0, false⟩, inLen := v.extractLsb' 0 15 }) ∧
    (s.timeline = .host (.write 0x024#16 .word v) :: rest →
      step s = .next { s with timeline := rest, response := some ⟨0, false⟩, ipos := v.extractLsb' 0 15 }) ∧
    (s.timeline = .host (.write 0x028#16 .word v) :: rest →
      step s = .next { s with timeline := rest, response := some ⟨0, false⟩, ibitpos := v.extractLsb' 0 18 }) ∧
    (s.timeline = .host (.write 0x02C#16 .word v) :: rest →
      step s = .next { s with timeline := rest, response := some ⟨0, false⟩, outLen := v.extractLsb' 0 15 }) ∧
    (s.timeline = .host (.write 0x054#16 .word v) :: rest →
      step s = .next { s with timeline := rest, response := some ⟨0, false⟩, nodeSel := v.extractLsb' 0 9 }) ∧
    (s.timeline = .host (.write 0x064#16 .word v) :: rest →
      step s = .next { s with timeline := rest, response := some ⟨0, false⟩, codeSel := v.extractLsb' 0 8 }) ∧
    (∀ a ∈ [0x000#16, 0x004#16, 0x00C#16, 0x01C#16, 0x034#16, 0x038#16, 0x03C#16, 0x040#16, 0x044#16, 0x048#16, 0x04C#16,
        0x050#16, 0x058#16, 0x05C#16, 0x060#16, 0x068#16, 0x06C#16, 0x070#16, 0x074#16, 0x078#16, 0x07C#16, 0x080#16,
        0x084#16, 0x088#16],
      s.timeline = .host (.write a .word v) :: rest →
        step s = .next { s with timeline := rest, response := some ⟨0, false⟩ })

/-- R51, R34, R224: while BUSY = 0, a write to FREQ[b] or TOTAL stores the word while TREE_VALID = 0, and is dropped with SEQ
while TREE_VALID = 1. -/
def Obligations.FrozenTableRejectsWrites : Prop :=
  ∀ (s : State) (v : Word) (b : Byte) (rest : List Event), s.pending = none →
    (s.timeline = .host (.write (BitVec.ofNat 16 (0x400 + 4 * b.toNat)) .word v) :: rest ∨
      s.timeline = .host (.write 0x030#16 .word v) :: rest) →
    (s.treeValid = true →
      step s = .next { s with
        timeline := rest, response := some ⟨0, false⟩,
        err := if s.err = .none then .seq else s.err,
        irqStat := if s.err = .none then s.irqStat ||| 0b10#2 else s.irqStat }) ∧
    (s.treeValid = false →
      (s.timeline = .host (.write 0x030#16 .word v) :: rest →
        step s = .next { s with timeline := rest, response := some ⟨0, false⟩, total := v }) ∧
      (s.timeline = .host (.write (BitVec.ofNat 16 (0x400 + 4 * b.toNat)) .word v) :: rest →
        step s = .next { s with timeline := rest, response := some ⟨0, false⟩, freq := symSet s.freq b v }))

/-- R67, R68, R70: a buffer word written while BUSY = 0 is four bytes, least significant first, and reads back as the word;
every other byte of both buffers reads as before. -/
def Obligations.BufferWordsAreLittleEndian : Prop :=
  ∀ (s : State) (v : Word) (k : Nat), s.pending = none →
    (4 * k < s.cfg.ibufBytes →
      s.timeline = [.host (.write (BitVec.ofNat 16 (0x4000 + 4 * k)) .word v),
        .host (.read (BitVec.ofNat 16 (0x4000 + 4 * k)) .word)] →
      ∃ t u, step s = .next t ∧ step t = .next u ∧ u.response = some ⟨v, false⟩ ∧ u.draws = s.draws ∧
        (∀ j, j < 4 → Memory.read t.ibuf (4 * k + j) = some (BitVec.ofNat 8 (v.toNat / 2 ^ (8 * j)))) ∧
        (∀ p, p < 4 * k ∨ 4 * k + 4 ≤ p → Memory.read t.ibuf p = Memory.read s.ibuf p) ∧
        t = { s with ibuf := t.ibuf, timeline := t.timeline, response := t.response }) ∧
    (4 * k < s.cfg.obufBytes →
      s.timeline = [.host (.write (BitVec.ofNat 16 (0x8000 + 4 * k)) .word v),
        .host (.read (BitVec.ofNat 16 (0x8000 + 4 * k)) .word)] →
      ∃ t u, step s = .next t ∧ step t = .next u ∧ u.response = some ⟨v, false⟩ ∧ u.draws = s.draws ∧
        (∀ j, j < 4 → Memory.read t.obuf (4 * k + j) = some (BitVec.ofNat 8 (v.toNat / 2 ^ (8 * j)))) ∧
        (∀ p, p < 4 * k ∨ 4 * k + 4 ≤ p → Memory.read t.obuf p = Memory.read s.obuf p) ∧
        t = { s with obuf := t.obuf, timeline := t.timeline, response := t.response })

/-- R72: a read, of any offset, width and time, changes no state of the HTB: only the model's own fields move. -/
def Obligations.ReadsHaveNoSideEffect : Prop :=
  ∀ (s t : State) (a : Offset) (w : Width) (rest : List Event),
    s.timeline = .host (.read a w) :: rest → step s = .next t →
    t = { s with timeline := rest, response := t.response, busFaults := t.busFaults, draws := t.draws }

/-- R24, R66, R220: STATUS while BUSY = 0, field by field, with the code of every error and of every STOP value; while BUSY = 1 it
shows BUSY and ERR, whatever the draw. -/
def Obligations.StatusShowsItsFields : Prop :=
  ∀ (s t : State) (rest : List Event), s.timeline = .host (.read 0x00C#16 .word) :: rest → step s = .next t →
    ∃ d : Word, t.response = some ⟨d, false⟩ ∧
      d.getLsbD 0 = s.pending.isSome ∧
      d.extractLsb' 16 8 = (match s.err with
        | .none => 0x00#8
        | .badCmd => 0x01#8
        | .seq => 0x02#8
        | .bounds => 0x03#8
        | .corruptHeader => 0x04#8
        | .truncatedPayload => 0x05#8
        | .countOverflow => 0x06#8
        | .noCode => 0x07#8
        | .excessSymbol => 0x08#8
        | .incomplete => 0x09#8
        | .busyWrite => 0x0A#8) ∧
      (s.pending = none →
        d.getLsbD 1 = s.treeValid ∧ d.getLsbD 2 = s.codesValid ∧ d.getLsbD 3 = s.encClosed ∧
        d.getLsbD 4 = (s.treeValid && decide (s.decCount = s.total)) ∧ d.extractLsb' 5 3 = 0 ∧
        d.extractLsb' 8 3 = (match s.stop with
          | .none => 0#3
          | .done => 1#3
          | .inEmpty => 2#3
          | .outFull => 3#3
          | .error => 4#3
          | .refused => 5#3) ∧
        d.extractLsb' 11 5 = 0 ∧ d.extractLsb' 24 8 = s.lastOp)

/-- R43-R46, R37, R50, R230: read while BUSY = 0 at their offsets, NODE_LINK, NODE_SYM and NODE_FREQ show the fields of the selected
entry, the cleared entry where NODE_SEL = 0x1FF; ACC shows ACC_BITS and ACC_N; code bit i of the selected code sits at bit
31 − (i mod 32) of CODE_W(i div 32), every other bit 0; irq is the enabled pending bits. -/
def Obligations.ViewsShowTheState : Prop :=
  (∀ s : State, s.pending = none →
    (∀ e : Entry, entryAt s.node s.nodeSel = some e →
      (∃ d : Word, readAnswers s 0x058 d ∧
        d.extractLsb' 0 9 = e.left ∧ d.extractLsb' 9 9 = e.right ∧ d.extractLsb' 18 9 = e.parent ∧ d.getLsbD 27 = e.side ∧
        d.getLsbD 28 = e.isLeaf ∧ d.getLsbD 29 = e.inUse ∧ d.extractLsb' 30 2 = 0) ∧
      readAnswers s 0x05C (e.sym.setWidth 32) ∧ readAnswers s 0x060 e.f) ∧
    (s.nodeSel = 0x1FF →
      readAnswers s 0x058 0x07FFFFFF ∧ readAnswers s 0x05C 0x100 ∧ readAnswers s 0x060 0) ∧
    readAnswers s 0x03C (BitVec.ofNat 32 (s.accBits.toNat + 2 ^ 8 * s.accN.toNat)) ∧
    (∀ k : Fin 8, ∃ d : Word, readAnswers s (BitVec.ofNat 16 (0x06C + 4 * k.val)) d ∧
      ∀ j, j < 32 → d.getLsbD (31 - j) = (symGet s.code s.codeSel).getD (32 * k.val + j) false)) ∧
  ∀ s : State, s.irq = ((s.irqStat.getLsbD 0 && s.irqEn.getLsbD 0) || (s.irqStat.getLsbD 1 && s.irqEn.getLsbD 1))

/-- R22, R23, R25-R36, R38, R39, R41-R43, R48, R49, R51, R58, R66: a word read while BUSY = 0 answers the register's value over
zeros, and CMD and ERR_CLR read 0; ID, VERSION, CONFIG, IRQ_EN and IRQ_STAT answer theirs also while BUSY = 1. A read changes
nothing else but the model's record of it (log 7). -/
def Obligations.ReadsAnswerTheirValues : Prop :=
  (∀ s : State, readAnswers s 0x000 0x48554646 ∧ readAnswers s 0x004 0x00010000 ∧
    readAnswers s 0x014 (s.irqEn.setWidth 32) ∧ readAnswers s 0x018 (s.irqStat.setWidth 32) ∧
    readAnswers s 0x01C (BitVec.ofNat 32 (s.cfg.ibufBytes + 2 ^ 16 * s.cfg.obufBytes))) ∧
  ∀ s : State, s.pending = none →
    readAnswers s 0x008 0 ∧ readAnswers s 0x010 0 ∧
    readAnswers s 0x020 (s.inLen.setWidth 32) ∧ readAnswers s 0x024 (s.ipos.setWidth 32) ∧
    readAnswers s 0x028 (s.ibitpos.setWidth 32) ∧ readAnswers s 0x02C (s.outLen.setWidth 32) ∧
    readAnswers s 0x030 s.total ∧ readAnswers s 0x034 (s.nsym.setWidth 32) ∧
    readAnswers s 0x038 (s.root.setWidth 32) ∧ readAnswers s 0x040 s.encCount ∧
    readAnswers s 0x044 (s.encBits.extractLsb' 0 32) ∧
    readAnswers s 0x048 (s.encBits.extractLsb' 32 32) ∧
    readAnswers s 0x04C (s.decNode.setWidth 32) ∧ readAnswers s 0x050 s.decCount ∧
    readAnswers s 0x054 (s.nodeSel.setWidth 32) ∧ readAnswers s 0x064 (s.codeSel.setWidth 32) ∧
    ((symGet s.code s.codeSel).length ≤ 255 → readAnswers s 0x068 (BitVec.ofNat 32 (symGet s.code s.codeSel).length)) ∧
    ∀ b : Byte, readAnswers s (BitVec.ofNat 16 (0x400 + 4 * b.toNat)) (symGet s.freq b)

/-! ### Whole-machine rules -/

/-- R52: the three phase flags move only by reset, CLEAR, BUILD, GENCODES and FLUSH, and only as R52 lists. -/
def Obligations.PhaseFlagsMoveOnlyAsListed : Prop :=
  ∀ s t : State, step s = .next t →
    (t.treeValid = s.treeValid ∧ t.codesValid = s.codesValid ∧ t.encClosed = s.encClosed) ∨
    ((∃ rest, s.timeline = .reset :: rest) ∧ t.treeValid = false ∧ t.codesValid = false ∧ t.encClosed = false) ∨
    ((s.timeline = [] ∨ ∃ rest, s.timeline = .engine :: rest) ∧ t.stop = .done ∧
      ((s.pending = some 0x00000001#32 ∧ t.treeValid = false ∧ t.codesValid = false ∧ t.encClosed = false) ∨
       (s.pending = some 0x00000003#32 ∧ t.treeValid = true ∧ t.codesValid = s.codesValid ∧ t.encClosed = s.encClosed) ∨
       (s.pending = some 0x00000004#32 ∧ t.treeValid = s.treeValid ∧ t.codesValid = true ∧ t.encClosed = false) ∨
       (s.pending = some 0x00000008#32 ∧ t.treeValid = s.treeValid ∧ t.codesValid = s.codesValid ∧ t.encClosed = true)))

/-- R51 (the table is built once and never mutated afterward): while TREE_VALID stays 1, no step changes FREQ, TOTAL, the
arena, NSYM or ROOT. -/
def Obligations.BuiltTableIsNeverMutated : Prop :=
  ∀ s t : State, step s = .next t → s.treeValid = true → t.treeValid = true →
    t.freq = s.freq ∧ t.total = s.total ∧ t.node = s.node ∧ t.nsym = s.nsym ∧ t.root = s.root

/-- R67, R30, R27, R43, R48: no command writes IBUF, IRQ_EN, NODE_SEL or CODE_SEL, and none but CLEAR writes IN_LEN; the build
and the model's own record of the host stay too. -/
def Obligations.CommandsLeaveTheHostsStateAlone : Prop :=
  ∀ (i : Instr) (s t : State), exec i s = .next t →
    t.cfg = s.cfg ∧ t.ibuf = s.ibuf ∧ t.irqEn = s.irqEn ∧ t.nodeSel = s.nodeSel ∧ t.codeSel = s.codeSel ∧
    (i ≠ .clear → t.inLen = s.inLen) ∧
    t.timeline = s.timeline ∧ t.response = s.response ∧ t.busFaults = s.busFaults

/-- R56 (7), for the commands that check OUT_LEN (log 18), and R33: such a command that is neither refused nor ends in SEQ or BOUNDS
leaves OUT_LEN ≤ OBUF_BYTES, and never lower than it was. -/
def Obligations.OutputStaysInRange : Prop :=
  ∀ (i : Instr) (s t : State), i ∈ [Instr.hdrEmit, .encode, .flush, .decode false, .decode true] → s.err = .none →
    exec i s = .next t → t.err ≠ .seq → t.err ≠ .bounds →
    t.outLen.toNat ≤ t.cfg.obufBytes ∧ s.outLen.toNat ≤ t.outLen.toNat

/-- R71, R60: every step keeps both buffers in canonical form, in every state that has it. -/
def Obligations.StepKeepsBuffersCanonical : Prop :=
  ∀ s t : State, buffersCanonical s → step s = .next t → buffersCanonical t

/-- R56: the reset state meets the invariants, whatever the build. -/
def Obligations.ResetMeetsTheInvariants : Prop := ∀ c : Config, Inv (State.resetWith c)

/-- R56: every step keeps the invariants, from every state that meets them. -/
def Obligations.StepKeepsTheInvariants : Prop := ∀ s t : State, Inv s → step s = .next t → Inv t

/-- R10, R61, R133: from a state that meets the invariants every step has a next state: no engine access leaves its store, no
loop runs on, no counter wraps. -/
def Obligations.NoStepStopsTheMachine : Prop := ∀ s : State, Inv s → ∃ t, step s = .next t
end

