-- ==== Sys2Proof/Laws/HostProgram.lean ====
section
/-! SUPPORT. What a host running a program does: the values it names, what an access leaves alone, when a `wait` goes on, and
where a `jstop` goes. -/

namespace Sys2Proof.Machine

@[simp] theorem andThen_next {α β : Type} (a : α) (f : α → Host.Outcome β Fault Refusal) : andThen (.next a) f = f a := rfl

/-- What follows is next only after a next. -/
theorem andThen_eq_next {α β : Type} {x : Host.Outcome α Fault Refusal} {f : α → Host.Outcome β Fault Refusal} {b : β} :
    andThen x f = .next b ↔ ∃ a, x = .next a ∧ f a = .next b := by
  cases x <;> simp [andThen]

/-- `$REG` is what its last read answered. -/
@[simp] theorem Names.get_set_self (ns : Names) (t : Target) (v : Option Word) : (ns.set t v).get t = v := by
  cases v with
  | some x => simp [Names.set, Names.get]
  | none =>
    simp only [Names.set, Names.get, Option.map_none, Option.toList_none, List.nil_append, List.lookup_eq_none_iff]
    intro p hp
    have hne : p.1 ≠ t := by simpa using (List.mem_filter.1 hp).2
    simpa using hne.symm

/-- Reading one word names no other. -/
theorem Names.get_set_ne (ns : Names) {t u : Target} (v : Option Word) (h : u ≠ t) : (ns.set t v).get u = ns.get u := by
  have hf : List.lookup u (ns.filter (fun p => p.1 ≠ t)) = List.lookup u ns := by
    induction ns with
    | nil => rfl
    | cons p ns ih =>
      obtain ⟨w, x⟩ := p
      by_cases hw : w = t
      · subst hw
        have hb : (u == w) = false := by simpa using h
        simp [List.lookup_cons, hb] at ih ⊢
        exact ih
      · simp [List.lookup_cons, hw] at ih ⊢
        rw [ih]
  have hb : (u == t) = false := by simpa using h
  cases v <;> simpa [Names.set, Names.get, List.lookup_cons, hb] using hf

/-- An access changes the machine and uses up a turn, and nothing else of the host. -/
theorem HostRun.access_frame {a : Access} {h h' : HostRun} (hn : h.access a = .next h') :
    h' = { h with turns := h.turns.tail, machine := h'.machine } := by
  obtain ⟨m, -, hm⟩ := andThen_eq_next.1 hn
  cases hm
  rfl

/-- A read leaves the host at its line and names the value it was answered. -/
theorem HostRun.read_frame {t : Target} {h h' : HostRun} (hn : h.read t = .next h') :
    h' = { h with names := h.names.set t (lastRead h'.machine), turns := h.turns.tail, machine := h'.machine } := by
  obtain ⟨h1, h1n, hm⟩ := andThen_eq_next.1 hn
  have hf := HostRun.access_frame h1n
  cases hm
  rw [hf]

/-- A `wait` names `$STATUS` by the value it polled, and goes on exactly when that value's bit 0 is 0. -/
theorem HostRun.poll_spec {h h' : HostRun} (hn : h.poll = .next h') :
    h'.names.get (.reg .status) = lastRead h'.machine ∧
      h'.pc = if ((lastRead h'.machine).getD 0).getLsbD 0 then h.pc else h.pc + 1 := by
  obtain ⟨h1, h1n, hm⟩ := andThen_eq_next.1 hn
  have hf := HostRun.read_frame h1n
  rw [hf] at hm
  cases hm
  split <;> rename_i hb <;> simp at hb <;> simp [hb, HostRun.advance]

/-- The lowest bit of two fields side by side is the lower field's. -/
theorem getLsbD_zero_append {n k : Nat} (x : BitVec n) (y : BitVec (k + 1)) : (x ++ y).getLsbD 0 = y.getLsbD 0 := by
  rw [BitVec.getLsbD_append]
  simp

/-- Bit 0 of a read of STATUS is BUSY, busy or not (spec/20_memory.md R66). -/
theorem acts_status (m : State) : ∃ m' v, acts [.host (readOf (.reg .status))] m = .next m' ∧
    lastRead m' = some v ∧ v.getLsbD 0 = m.busy := by
  have hr : ∀ c, reach c (BitVec.ofNat 16 (Target.reg .status).offset) .word = some (.reg .status) := fun _ => rfl
  cases hb : m.busy with
  | true =>
    have hb' : (State.busy { m with timeline := [] }) = true := hb
    refine ⟨_, busyStatus (drawWord m).2 (drawWord m).1, rfl, ?_, ?_⟩
    · simp only [readOf, hostAccess, hr, readTarget, hb', if_true]
      rfl
    · iterate 3 refine (getLsbD_zero_append _ _).trans ?_
      rfl
  | false =>
    have hb' : (State.busy { m with timeline := [] }) = false := hb
    refine ⟨_, m.statusWord, rfl, ?_, ?_⟩
    · simp only [readOf, hostAccess, hr, readTarget, hb']
      rfl
    · iterate 9 refine (getLsbD_zero_append _ _).trans ?_
      simp [hb]

/-- A poll with no turn of the engine before it stays at the `wait` while BUSY = 1, and goes on when BUSY = 0. -/
theorem HostRun.poll_without_turn {h : HostRun} (ht : h.turns.headD true = false) :
    ∃ h', h.poll = .next h' ∧ h'.pc = if h.machine.busy then h.pc else h.pc + 1 := by
  obtain ⟨m, v, hm, hv, hb⟩ := acts_status h.machine
  have hp : ∃ h', h.poll = .next h' ∧ h'.machine = m := by
    simp only [HostRun.poll, HostRun.read, HostRun.access, ht, Bool.false_eq_true, if_false, List.nil_append, hm, andThen_next]
    refine ⟨_, rfl, ?_⟩
    split <;> rfl
  obtain ⟨h', hn, hm'⟩ := hp
  refine ⟨h', hn, ?_⟩
  rw [(HostRun.poll_spec hn).2, hm', hv, Option.getD_some, hb]

/-- A `jstop` tests `$STATUS`, whichever line named it. -/
theorem HostRun.stmt_jstop {h : HostRun} {v : Word} (prog : List Stmt) (w : Stop) (l : String)
    (hs : h.names.get (.reg .status) = some v) :
    h.stmt prog (.jstop w l) = .next (if v.extractLsb' 8 3 = w.code then h.jump prog l else h.advance) := by
  simp [HostRun.stmt, hs]

/-- After `rd REG`, `$REG` is the value the bus answered. -/
theorem HostRun.stmt_rd {h h' : HostRun} {prog : List Stmt} {t : Target} (hn : h.stmt prog (.rd t) = .next h') :
    h'.pc = h.pc + 1 ∧ h'.names.get t = lastRead h'.machine := by
  obtain ⟨h1, h1n, hm⟩ := andThen_eq_next.1 hn
  have hf := HostRun.read_frame h1n
  cases hm
  constructor
  · rw [hf]; rfl
  · simp only [HostRun.advance]; rw [hf]; simp

/-- The host's own control flow makes no access. -/
theorem HostRun.stmt_control {h h' : HostRun} {prog : List Stmt} {x : Stmt} (hx : ∀ ns n, x.accesses ns n = [])
    (hn : h.stmt prog x = .next h') : h'.machine = h.machine := by
  cases x with
  | jstop w l =>
    simp only [HostRun.stmt] at hn
    split at hn <;> cases hn
    · split <;> rfl
    · rfl
  | jmp l => cases hn; rfl
  | label l => cases hn; rfl
  | wr t v =>
    have := hx h.names 0
    simp only [HostRun.stmt] at hn
    split at hn
    · rename_i d hd; simp [Stmt.accesses, hd] at this
    · cases hn; rfl
  | rd t => simp [Stmt.accesses] at hx
  | rdExpect t v =>
    have := hx h.names 0
    simp only [HostRun.stmt] at hn
    split at hn
    · rename_i d hd; simp [Stmt.accesses, hd] at this
    · cases hn; rfl
  | cmd i => simp [Stmt.accesses] at hx
  | wait => simp [Stmt.accesses] at hx
  | drain => simp [Stmt.accesses, drainAccesses] at hx

end Sys2Proof.Machine
end

