-- ==== Sys2Proof/Laws/Memory.lean ====
section
/-! SUPPORT. The laws of the buffers: read after write, the rest untouched, and the canonical form kept. -/

namespace Sys2Proof.Machine

theorem Memory.read_write_same (m : List Host.Cell) (a : Nat) (b : Byte) :
    Memory.read (Memory.write m a b) a = some b := by
  induction m with
  | nil => simp [Memory.write, Memory.read]
  | cons c m ih =>
    obtain ⟨k, v⟩ := c
    unfold Memory.write
    split
    · simp [Memory.read]
    · split
      · simp [Memory.read]
      · rename_i h1 h2
        have : ¬ k = a := fun h => h2 h.symm
        simp [Memory.read, this, ih]

theorem Memory.read_write_other (m : List Host.Cell) {a p : Nat} (b : Byte) (h : p ≠ a) :
    Memory.read (Memory.write m a b) p = Memory.read m p := by
  induction m with
  | nil =>
    have : ¬ a = p := fun e => h e.symm
    simp [Memory.write, Memory.read, this]
  | cons c m ih =>
    obtain ⟨k, v⟩ := c
    have hp : ¬ a = p := fun e => h e.symm
    unfold Memory.write
    split
    · simp [Memory.read, hp]
    · split
      · rename_i h1 h2
        subst h2
        simp [Memory.read, hp]
      · simp only [Memory.read, ih]

theorem Memory.mem_write {m : List Host.Cell} {a : Nat} {b : Byte} {c : Host.Cell}
    (h : c ∈ Memory.write m a b) : c = (a, b) ∨ c ∈ m := by
  induction m with
  | nil => simpa [Memory.write] using h
  | cons d m ih =>
    obtain ⟨k, v⟩ := d
    unfold Memory.write at h
    split at h
    · simpa using h
    · split at h
      · rcases List.mem_cons.mp h with h | h
        · exact .inl h
        · exact .inr (List.mem_cons_of_mem _ h)
      · rcases List.mem_cons.mp h with h | h
        · exact .inr (by simp [h])
        · rcases ih h with h | h
          · exact .inl h
          · exact .inr (List.mem_cons_of_mem _ h)

theorem Memory.write_wf {n : Nat} {m : List Host.Cell} {a : Nat} {b : Byte} (h : Memory.wf n m) (ha : a < n) :
    Memory.wf n (Memory.write m a b) := by
  obtain ⟨hp, hb⟩ := h
  refine ⟨?_, fun c hc => ?_⟩
  · clear hb
    induction m with
    | nil => simp [Memory.write]
    | cons d m ih =>
      obtain ⟨k, v⟩ := d
      obtain ⟨hk, hm⟩ := List.pairwise_cons.mp hp
      unfold Memory.write
      split
      · rename_i hlt
        refine List.pairwise_cons.mpr ⟨fun c hc => ?_, hp⟩
        rcases List.mem_cons.mp hc with rfl | hc
        · exact hlt
        · exact Nat.lt_trans hlt (hk c hc)
      · split
        · rename_i h1 h2
          subst h2
          exact List.pairwise_cons.mpr ⟨hk, hm⟩
        · rename_i h1 h2
          refine List.pairwise_cons.mpr ⟨fun c hc => ?_, ih hm⟩
          rcases Memory.mem_write hc with rfl | hc
          · exact Nat.lt_of_le_of_ne (Nat.le_of_not_lt h1) (fun e => h2 e.symm)
          · exact hk c hc
  · rcases Memory.mem_write hc with rfl | hc
    · exact ha
    · exact hb c hc

theorem Memory.writeList_wf {n : Nat} {m : List Host.Cell} {a : Nat} {bs : List Byte} (h : Memory.wf n m)
    (ha : a + bs.length ≤ n) : Memory.wf n (Memory.writeList m a bs) := by
  induction bs generalizing m a with
  | nil => exact h
  | cons b bs ih =>
    simp only [List.length_cons] at ha
    exact ih (Memory.write_wf h (by omega)) (by omega)

theorem Memory.read_writeList_other {m : List Host.Cell} {a p : Nat} {bs : List Byte}
    (h : p < a ∨ a + bs.length ≤ p) : Memory.read (Memory.writeList m a bs) p = Memory.read m p := by
  induction bs generalizing m a with
  | nil => rfl
  | cons b bs ih =>
    simp only [List.length_cons] at h
    rw [Memory.writeList, ih (by omega), Memory.read_write_other _ _ (by omega)]

theorem Memory.read_writeList_at {m : List Host.Cell} {a j : Nat} {bs : List Byte} (h : j < bs.length) :
    Memory.read (Memory.writeList m a bs) (a + j) = some bs[j] := by
  induction bs generalizing m a j with
  | nil => simp at h
  | cons b bs ih =>
    rw [Memory.writeList]
    cases j with
    | zero => rw [Memory.read_writeList_other (.inl (by omega))]; simpa using Memory.read_write_same m a b
    | succ j =>
      have := ih (m := Memory.write m a b) (a := a + 1) (j := j) (by simpa using h)
      rw [show a + (j + 1) = a + 1 + j by omega, this]
      rfl

theorem Memory.writeList_append (m : List Host.Cell) (a : Nat) (xs ys : List Byte) :
    Memory.writeList m a (xs ++ ys) = Memory.writeList (Memory.writeList m a xs) (a + xs.length) ys := by
  induction xs generalizing m a with
  | nil => rfl
  | cons x xs ih =>
    simp only [List.cons_append, Memory.writeList, ih, List.length_cons]
    congr 1
    omega

theorem Memory.nil_wf (n : Nat) : Memory.wf n [] := ⟨List.Pairwise.nil, by simp⟩

end Sys2Proof.Machine
end

