-- ==== Sys2Proof/Laws/State.lean ====
section
/-! SUPPORT. One lemma per field per named update of the state, true by rfl, so that no proof unfolds a record update. -/

namespace Sys2Proof.Machine

/-! ### recordErr -/

@[simp] theorem recordErr_cfg (e : ErrCode) (s : State) : (recordErr e s).cfg = s.cfg := rfl
@[simp] theorem recordErr_freq (e : ErrCode) (s : State) : (recordErr e s).freq = s.freq := rfl
@[simp] theorem recordErr_total (e : ErrCode) (s : State) : (recordErr e s).total = s.total := rfl
@[simp] theorem recordErr_treeValid (e : ErrCode) (s : State) : (recordErr e s).treeValid = s.treeValid := rfl
@[simp] theorem recordErr_codesValid (e : ErrCode) (s : State) : (recordErr e s).codesValid = s.codesValid := rfl
@[simp] theorem recordErr_encClosed (e : ErrCode) (s : State) : (recordErr e s).encClosed = s.encClosed := rfl
@[simp] theorem recordErr_nsym (e : ErrCode) (s : State) : (recordErr e s).nsym = s.nsym := rfl
@[simp] theorem recordErr_root (e : ErrCode) (s : State) : (recordErr e s).root = s.root := rfl
@[simp] theorem recordErr_node (e : ErrCode) (s : State) : (recordErr e s).node = s.node := rfl
@[simp] theorem recordErr_code (e : ErrCode) (s : State) : (recordErr e s).code = s.code := rfl
@[simp] theorem recordErr_accBits (e : ErrCode) (s : State) : (recordErr e s).accBits = s.accBits := rfl
@[simp] theorem recordErr_accN (e : ErrCode) (s : State) : (recordErr e s).accN = s.accN := rfl
@[simp] theorem recordErr_encCount (e : ErrCode) (s : State) : (recordErr e s).encCount = s.encCount := rfl
@[simp] theorem recordErr_encBits (e : ErrCode) (s : State) : (recordErr e s).encBits = s.encBits := rfl
@[simp] theorem recordErr_decNode (e : ErrCode) (s : State) : (recordErr e s).decNode = s.decNode := rfl
@[simp] theorem recordErr_decCount (e : ErrCode) (s : State) : (recordErr e s).decCount = s.decCount := rfl
@[simp] theorem recordErr_inLen (e : ErrCode) (s : State) : (recordErr e s).inLen = s.inLen := rfl
@[simp] theorem recordErr_ipos (e : ErrCode) (s : State) : (recordErr e s).ipos = s.ipos := rfl
@[simp] theorem recordErr_ibitpos (e : ErrCode) (s : State) : (recordErr e s).ibitpos = s.ibitpos := rfl
@[simp] theorem recordErr_outLen (e : ErrCode) (s : State) : (recordErr e s).outLen = s.outLen := rfl
@[simp] theorem recordErr_nodeSel (e : ErrCode) (s : State) : (recordErr e s).nodeSel = s.nodeSel := rfl
@[simp] theorem recordErr_codeSel (e : ErrCode) (s : State) : (recordErr e s).codeSel = s.codeSel := rfl
@[simp] theorem recordErr_ibuf (e : ErrCode) (s : State) : (recordErr e s).ibuf = s.ibuf := rfl
@[simp] theorem recordErr_obuf (e : ErrCode) (s : State) : (recordErr e s).obuf = s.obuf := rfl
@[simp] theorem recordErr_err (e : ErrCode) (s : State) : (recordErr e s).err = if s.err = .none then e else s.err := rfl
@[simp] theorem recordErr_stop (e : ErrCode) (s : State) : (recordErr e s).stop = s.stop := rfl
@[simp] theorem recordErr_lastOp (e : ErrCode) (s : State) : (recordErr e s).lastOp = s.lastOp := rfl
@[simp] theorem recordErr_irqEn (e : ErrCode) (s : State) : (recordErr e s).irqEn = s.irqEn := rfl
@[simp] theorem recordErr_irqStat (e : ErrCode) (s : State) : (recordErr e s).irqStat = if s.err = .none then s.irqStat ||| 0b10#2 else s.irqStat := rfl
@[simp] theorem recordErr_pending (e : ErrCode) (s : State) : (recordErr e s).pending = s.pending := rfl
@[simp] theorem recordErr_timeline (e : ErrCode) (s : State) : (recordErr e s).timeline = s.timeline := rfl
@[simp] theorem recordErr_response (e : ErrCode) (s : State) : (recordErr e s).response = s.response := rfl
@[simp] theorem recordErr_busFaults (e : ErrCode) (s : State) : (recordErr e s).busFaults = s.busFaults := rfl
@[simp] theorem recordErr_draws (e : ErrCode) (s : State) : (recordErr e s).draws = s.draws := rfl

/-! ### clearErr -/

@[simp] theorem clearErr_cfg (s : State) : (clearErr s).cfg = s.cfg := rfl
@[simp] theorem clearErr_freq (s : State) : (clearErr s).freq = s.freq := rfl
@[simp] theorem clearErr_total (s : State) : (clearErr s).total = s.total := rfl
@[simp] theorem clearErr_treeValid (s : State) : (clearErr s).treeValid = s.treeValid := rfl
@[simp] theorem clearErr_codesValid (s : State) : (clearErr s).codesValid = s.codesValid := rfl
@[simp] theorem clearErr_encClosed (s : State) : (clearErr s).encClosed = s.encClosed := rfl
@[simp] theorem clearErr_nsym (s : State) : (clearErr s).nsym = s.nsym := rfl
@[simp] theorem clearErr_root (s : State) : (clearErr s).root = s.root := rfl
@[simp] theorem clearErr_node (s : State) : (clearErr s).node = s.node := rfl
@[simp] theorem clearErr_code (s : State) : (clearErr s).code = s.code := rfl
@[simp] theorem clearErr_accBits (s : State) : (clearErr s).accBits = s.accBits := rfl
@[simp] theorem clearErr_accN (s : State) : (clearErr s).accN = s.accN := rfl
@[simp] theorem clearErr_encCount (s : State) : (clearErr s).encCount = s.encCount := rfl
@[simp] theorem clearErr_encBits (s : State) : (clearErr s).encBits = s.encBits := rfl
@[simp] theorem clearErr_decNode (s : State) : (clearErr s).decNode = s.decNode := rfl
@[simp] theorem clearErr_decCount (s : State) : (clearErr s).decCount = s.decCount := rfl
@[simp] theorem clearErr_inLen (s : State) : (clearErr s).inLen = s.inLen := rfl
@[simp] theorem clearErr_ipos (s : State) : (clearErr s).ipos = s.ipos := rfl
@[simp] theorem clearErr_ibitpos (s : State) : (clearErr s).ibitpos = s.ibitpos := rfl
@[simp] theorem clearErr_outLen (s : State) : (clearErr s).outLen = s.outLen := rfl
@[simp] theorem clearErr_nodeSel (s : State) : (clearErr s).nodeSel = s.nodeSel := rfl
@[simp] theorem clearErr_codeSel (s : State) : (clearErr s).codeSel = s.codeSel := rfl
@[simp] theorem clearErr_ibuf (s : State) : (clearErr s).ibuf = s.ibuf := rfl
@[simp] theorem clearErr_obuf (s : State) : (clearErr s).obuf = s.obuf := rfl
@[simp] theorem clearErr_err (s : State) : (clearErr s).err = .none := rfl
@[simp] theorem clearErr_stop (s : State) : (clearErr s).stop = s.stop := rfl
@[simp] theorem clearErr_lastOp (s : State) : (clearErr s).lastOp = s.lastOp := rfl
@[simp] theorem clearErr_irqEn (s : State) : (clearErr s).irqEn = s.irqEn := rfl
@[simp] theorem clearErr_irqStat (s : State) : (clearErr s).irqStat = s.irqStat := rfl
@[simp] theorem clearErr_pending (s : State) : (clearErr s).pending = s.pending := rfl
@[simp] theorem clearErr_timeline (s : State) : (clearErr s).timeline = s.timeline := rfl
@[simp] theorem clearErr_response (s : State) : (clearErr s).response = s.response := rfl
@[simp] theorem clearErr_busFaults (s : State) : (clearErr s).busFaults = s.busFaults := rfl
@[simp] theorem clearErr_draws (s : State) : (clearErr s).draws = s.draws := rfl

/-! ### finish -/

@[simp] theorem finish_cfg (w : Stop) (s : State) : (finish w s).cfg = s.cfg := rfl
@[simp] theorem finish_freq (w : Stop) (s : State) : (finish w s).freq = s.freq := rfl
@[simp] theorem finish_total (w : Stop) (s : State) : (finish w s).total = s.total := rfl
@[simp] theorem finish_treeValid (w : Stop) (s : State) : (finish w s).treeValid = s.treeValid := rfl
@[simp] theorem finish_codesValid (w : Stop) (s : State) : (finish w s).codesValid = s.codesValid := rfl
@[simp] theorem finish_encClosed (w : Stop) (s : State) : (finish w s).encClosed = s.encClosed := rfl
@[simp] theorem finish_nsym (w : Stop) (s : State) : (finish w s).nsym = s.nsym := rfl
@[simp] theorem finish_root (w : Stop) (s : State) : (finish w s).root = s.root := rfl
@[simp] theorem finish_node (w : Stop) (s : State) : (finish w s).node = s.node := rfl
@[simp] theorem finish_code (w : Stop) (s : State) : (finish w s).code = s.code := rfl
@[simp] theorem finish_accBits (w : Stop) (s : State) : (finish w s).accBits = s.accBits := rfl
@[simp] theorem finish_accN (w : Stop) (s : State) : (finish w s).accN = s.accN := rfl
@[simp] theorem finish_encCount (w : Stop) (s : State) : (finish w s).encCount = s.encCount := rfl
@[simp] theorem finish_encBits (w : Stop) (s : State) : (finish w s).encBits = s.encBits := rfl
@[simp] theorem finish_decNode (w : Stop) (s : State) : (finish w s).decNode = s.decNode := rfl
@[simp] theorem finish_decCount (w : Stop) (s : State) : (finish w s).decCount = s.decCount := rfl
@[simp] theorem finish_inLen (w : Stop) (s : State) : (finish w s).inLen = s.inLen := rfl
@[simp] theorem finish_ipos (w : Stop) (s : State) : (finish w s).ipos = s.ipos := rfl
@[simp] theorem finish_ibitpos (w : Stop) (s : State) : (finish w s).ibitpos = s.ibitpos := rfl
@[simp] theorem finish_outLen (w : Stop) (s : State) : (finish w s).outLen = s.outLen := rfl
@[simp] theorem finish_nodeSel (w : Stop) (s : State) : (finish w s).nodeSel = s.nodeSel := rfl
@[simp] theorem finish_codeSel (w : Stop) (s : State) : (finish w s).codeSel = s.codeSel := rfl
@[simp] theorem finish_ibuf (w : Stop) (s : State) : (finish w s).ibuf = s.ibuf := rfl
@[simp] theorem finish_obuf (w : Stop) (s : State) : (finish w s).obuf = s.obuf := rfl
@[simp] theorem finish_err (w : Stop) (s : State) : (finish w s).err = s.err := rfl
@[simp] theorem finish_stop (w : Stop) (s : State) : (finish w s).stop = w := rfl
@[simp] theorem finish_lastOp (w : Stop) (s : State) : (finish w s).lastOp = s.lastOp := rfl
@[simp] theorem finish_irqEn (w : Stop) (s : State) : (finish w s).irqEn = s.irqEn := rfl
@[simp] theorem finish_irqStat (w : Stop) (s : State) : (finish w s).irqStat = s.irqStat ||| 0b01#2 := rfl
@[simp] theorem finish_pending (w : Stop) (s : State) : (finish w s).pending = none := rfl
@[simp] theorem finish_timeline (w : Stop) (s : State) : (finish w s).timeline = s.timeline := rfl
@[simp] theorem finish_response (w : Stop) (s : State) : (finish w s).response = s.response := rfl
@[simp] theorem finish_busFaults (w : Stop) (s : State) : (finish w s).busFaults = s.busFaults := rfl
@[simp] theorem finish_draws (w : Stop) (s : State) : (finish w s).draws = s.draws := rfl

/-! ### emit -/

@[simp] theorem emit_cfg (b : Byte) (s : State) : (emit b s).cfg = s.cfg := rfl
@[simp] theorem emit_freq (b : Byte) (s : State) : (emit b s).freq = s.freq := rfl
@[simp] theorem emit_total (b : Byte) (s : State) : (emit b s).total = s.total := rfl
@[simp] theorem emit_treeValid (b : Byte) (s : State) : (emit b s).treeValid = s.treeValid := rfl
@[simp] theorem emit_codesValid (b : Byte) (s : State) : (emit b s).codesValid = s.codesValid := rfl
@[simp] theorem emit_encClosed (b : Byte) (s : State) : (emit b s).encClosed = s.encClosed := rfl
@[simp] theorem emit_nsym (b : Byte) (s : State) : (emit b s).nsym = s.nsym := rfl
@[simp] theorem emit_root (b : Byte) (s : State) : (emit b s).root = s.root := rfl
@[simp] theorem emit_node (b : Byte) (s : State) : (emit b s).node = s.node := rfl
@[simp] theorem emit_code (b : Byte) (s : State) : (emit b s).code = s.code := rfl
@[simp] theorem emit_accBits (b : Byte) (s : State) : (emit b s).accBits = s.accBits := rfl
@[simp] theorem emit_accN (b : Byte) (s : State) : (emit b s).accN = s.accN := rfl
@[simp] theorem emit_encCount (b : Byte) (s : State) : (emit b s).encCount = s.encCount := rfl
@[simp] theorem emit_encBits (b : Byte) (s : State) : (emit b s).encBits = s.encBits := rfl
@[simp] theorem emit_decNode (b : Byte) (s : State) : (emit b s).decNode = s.decNode := rfl
@[simp] theorem emit_decCount (b : Byte) (s : State) : (emit b s).decCount = s.decCount := rfl
@[simp] theorem emit_inLen (b : Byte) (s : State) : (emit b s).inLen = s.inLen := rfl
@[simp] theorem emit_ipos (b : Byte) (s : State) : (emit b s).ipos = s.ipos := rfl
@[simp] theorem emit_ibitpos (b : Byte) (s : State) : (emit b s).ibitpos = s.ibitpos := rfl
@[simp] theorem emit_outLen (b : Byte) (s : State) : (emit b s).outLen = s.outLen + 1 := rfl
@[simp] theorem emit_nodeSel (b : Byte) (s : State) : (emit b s).nodeSel = s.nodeSel := rfl
@[simp] theorem emit_codeSel (b : Byte) (s : State) : (emit b s).codeSel = s.codeSel := rfl
@[simp] theorem emit_ibuf (b : Byte) (s : State) : (emit b s).ibuf = s.ibuf := rfl
@[simp] theorem emit_obuf (b : Byte) (s : State) : (emit b s).obuf = Memory.write s.obuf s.outLen.toNat b := rfl
@[simp] theorem emit_err (b : Byte) (s : State) : (emit b s).err = s.err := rfl
@[simp] theorem emit_stop (b : Byte) (s : State) : (emit b s).stop = s.stop := rfl
@[simp] theorem emit_lastOp (b : Byte) (s : State) : (emit b s).lastOp = s.lastOp := rfl
@[simp] theorem emit_irqEn (b : Byte) (s : State) : (emit b s).irqEn = s.irqEn := rfl
@[simp] theorem emit_irqStat (b : Byte) (s : State) : (emit b s).irqStat = s.irqStat := rfl
@[simp] theorem emit_pending (b : Byte) (s : State) : (emit b s).pending = s.pending := rfl
@[simp] theorem emit_timeline (b : Byte) (s : State) : (emit b s).timeline = s.timeline := rfl
@[simp] theorem emit_response (b : Byte) (s : State) : (emit b s).response = s.response := rfl
@[simp] theorem emit_busFaults (b : Byte) (s : State) : (emit b s).busFaults = s.busFaults := rfl
@[simp] theorem emit_draws (b : Byte) (s : State) : (emit b s).draws = s.draws := rfl

/-! ### drawByte -/

@[simp] theorem drawByte_cfg (s : State) : (drawByte s).2.cfg = s.cfg := rfl
@[simp] theorem drawByte_freq (s : State) : (drawByte s).2.freq = s.freq := rfl
@[simp] theorem drawByte_total (s : State) : (drawByte s).2.total = s.total := rfl
@[simp] theorem drawByte_treeValid (s : State) : (drawByte s).2.treeValid = s.treeValid := rfl
@[simp] theorem drawByte_codesValid (s : State) : (drawByte s).2.codesValid = s.codesValid := rfl
@[simp] theorem drawByte_encClosed (s : State) : (drawByte s).2.encClosed = s.encClosed := rfl
@[simp] theorem drawByte_nsym (s : State) : (drawByte s).2.nsym = s.nsym := rfl
@[simp] theorem drawByte_root (s : State) : (drawByte s).2.root = s.root := rfl
@[simp] theorem drawByte_node (s : State) : (drawByte s).2.node = s.node := rfl
@[simp] theorem drawByte_code (s : State) : (drawByte s).2.code = s.code := rfl
@[simp] theorem drawByte_accBits (s : State) : (drawByte s).2.accBits = s.accBits := rfl
@[simp] theorem drawByte_accN (s : State) : (drawByte s).2.accN = s.accN := rfl
@[simp] theorem drawByte_encCount (s : State) : (drawByte s).2.encCount = s.encCount := rfl
@[simp] theorem drawByte_encBits (s : State) : (drawByte s).2.encBits = s.encBits := rfl
@[simp] theorem drawByte_decNode (s : State) : (drawByte s).2.decNode = s.decNode := rfl
@[simp] theorem drawByte_decCount (s : State) : (drawByte s).2.decCount = s.decCount := rfl
@[simp] theorem drawByte_inLen (s : State) : (drawByte s).2.inLen = s.inLen := rfl
@[simp] theorem drawByte_ipos (s : State) : (drawByte s).2.ipos = s.ipos := rfl
@[simp] theorem drawByte_ibitpos (s : State) : (drawByte s).2.ibitpos = s.ibitpos := rfl
@[simp] theorem drawByte_outLen (s : State) : (drawByte s).2.outLen = s.outLen := rfl
@[simp] theorem drawByte_nodeSel (s : State) : (drawByte s).2.nodeSel = s.nodeSel := rfl
@[simp] theorem drawByte_codeSel (s : State) : (drawByte s).2.codeSel = s.codeSel := rfl
@[simp] theorem drawByte_ibuf (s : State) : (drawByte s).2.ibuf = s.ibuf := rfl
@[simp] theorem drawByte_obuf (s : State) : (drawByte s).2.obuf = s.obuf := rfl
@[simp] theorem drawByte_err (s : State) : (drawByte s).2.err = s.err := rfl
@[simp] theorem drawByte_stop (s : State) : (drawByte s).2.stop = s.stop := rfl
@[simp] theorem drawByte_lastOp (s : State) : (drawByte s).2.lastOp = s.lastOp := rfl
@[simp] theorem drawByte_irqEn (s : State) : (drawByte s).2.irqEn = s.irqEn := rfl
@[simp] theorem drawByte_irqStat (s : State) : (drawByte s).2.irqStat = s.irqStat := rfl
@[simp] theorem drawByte_pending (s : State) : (drawByte s).2.pending = s.pending := rfl
@[simp] theorem drawByte_timeline (s : State) : (drawByte s).2.timeline = s.timeline := rfl
@[simp] theorem drawByte_response (s : State) : (drawByte s).2.response = s.response := rfl
@[simp] theorem drawByte_busFaults (s : State) : (drawByte s).2.busFaults = s.busFaults := rfl
@[simp] theorem drawByte_draws (s : State) : (drawByte s).2.draws = s.draws + 1 := rfl

/-! ### drawWord -/

@[simp] theorem drawWord_cfg (s : State) : (drawWord s).2.cfg = s.cfg := rfl
@[simp] theorem drawWord_freq (s : State) : (drawWord s).2.freq = s.freq := rfl
@[simp] theorem drawWord_total (s : State) : (drawWord s).2.total = s.total := rfl
@[simp] theorem drawWord_treeValid (s : State) : (drawWord s).2.treeValid = s.treeValid := rfl
@[simp] theorem drawWord_codesValid (s : State) : (drawWord s).2.codesValid = s.codesValid := rfl
@[simp] theorem drawWord_encClosed (s : State) : (drawWord s).2.encClosed = s.encClosed := rfl
@[simp] theorem drawWord_nsym (s : State) : (drawWord s).2.nsym = s.nsym := rfl
@[simp] theorem drawWord_root (s : State) : (drawWord s).2.root = s.root := rfl
@[simp] theorem drawWord_node (s : State) : (drawWord s).2.node = s.node := rfl
@[simp] theorem drawWord_code (s : State) : (drawWord s).2.code = s.code := rfl
@[simp] theorem drawWord_accBits (s : State) : (drawWord s).2.accBits = s.accBits := rfl
@[simp] theorem drawWord_accN (s : State) : (drawWord s).2.accN = s.accN := rfl
@[simp] theorem drawWord_encCount (s : State) : (drawWord s).2.encCount = s.encCount := rfl
@[simp] theorem drawWord_encBits (s : State) : (drawWord s).2.encBits = s.encBits := rfl
@[simp] theorem drawWord_decNode (s : State) : (drawWord s).2.decNode = s.decNode := rfl
@[simp] theorem drawWord_decCount (s : State) : (drawWord s).2.decCount = s.decCount := rfl
@[simp] theorem drawWord_inLen (s : State) : (drawWord s).2.inLen = s.inLen := rfl
@[simp] theorem drawWord_ipos (s : State) : (drawWord s).2.ipos = s.ipos := rfl
@[simp] theorem drawWord_ibitpos (s : State) : (drawWord s).2.ibitpos = s.ibitpos := rfl
@[simp] theorem drawWord_outLen (s : State) : (drawWord s).2.outLen = s.outLen := rfl
@[simp] theorem drawWord_nodeSel (s : State) : (drawWord s).2.nodeSel = s.nodeSel := rfl
@[simp] theorem drawWord_codeSel (s : State) : (drawWord s).2.codeSel = s.codeSel := rfl
@[simp] theorem drawWord_ibuf (s : State) : (drawWord s).2.ibuf = s.ibuf := rfl
@[simp] theorem drawWord_obuf (s : State) : (drawWord s).2.obuf = s.obuf := rfl
@[simp] theorem drawWord_err (s : State) : (drawWord s).2.err = s.err := rfl
@[simp] theorem drawWord_stop (s : State) : (drawWord s).2.stop = s.stop := rfl
@[simp] theorem drawWord_lastOp (s : State) : (drawWord s).2.lastOp = s.lastOp := rfl
@[simp] theorem drawWord_irqEn (s : State) : (drawWord s).2.irqEn = s.irqEn := rfl
@[simp] theorem drawWord_irqStat (s : State) : (drawWord s).2.irqStat = s.irqStat := rfl
@[simp] theorem drawWord_pending (s : State) : (drawWord s).2.pending = s.pending := rfl
@[simp] theorem drawWord_timeline (s : State) : (drawWord s).2.timeline = s.timeline := rfl
@[simp] theorem drawWord_response (s : State) : (drawWord s).2.response = s.response := rfl
@[simp] theorem drawWord_busFaults (s : State) : (drawWord s).2.busFaults = s.busFaults := rfl
@[simp] theorem drawWord_draws (s : State) : (drawWord s).2.draws = s.draws + 1 := rfl

/-! ### busError -/

@[simp] theorem busError_cfg (a : Offset) (s : State) : (busError a s).cfg = s.cfg := rfl
@[simp] theorem busError_freq (a : Offset) (s : State) : (busError a s).freq = s.freq := rfl
@[simp] theorem busError_total (a : Offset) (s : State) : (busError a s).total = s.total := rfl
@[simp] theorem busError_treeValid (a : Offset) (s : State) : (busError a s).treeValid = s.treeValid := rfl
@[simp] theorem busError_codesValid (a : Offset) (s : State) : (busError a s).codesValid = s.codesValid := rfl
@[simp] theorem busError_encClosed (a : Offset) (s : State) : (busError a s).encClosed = s.encClosed := rfl
@[simp] theorem busError_nsym (a : Offset) (s : State) : (busError a s).nsym = s.nsym := rfl
@[simp] theorem busError_root (a : Offset) (s : State) : (busError a s).root = s.root := rfl
@[simp] theorem busError_node (a : Offset) (s : State) : (busError a s).node = s.node := rfl
@[simp] theorem busError_code (a : Offset) (s : State) : (busError a s).code = s.code := rfl
@[simp] theorem busError_accBits (a : Offset) (s : State) : (busError a s).accBits = s.accBits := rfl
@[simp] theorem busError_accN (a : Offset) (s : State) : (busError a s).accN = s.accN := rfl
@[simp] theorem busError_encCount (a : Offset) (s : State) : (busError a s).encCount = s.encCount := rfl
@[simp] theorem busError_encBits (a : Offset) (s : State) : (busError a s).encBits = s.encBits := rfl
@[simp] theorem busError_decNode (a : Offset) (s : State) : (busError a s).decNode = s.decNode := rfl
@[simp] theorem busError_decCount (a : Offset) (s : State) : (busError a s).decCount = s.decCount := rfl
@[simp] theorem busError_inLen (a : Offset) (s : State) : (busError a s).inLen = s.inLen := rfl
@[simp] theorem busError_ipos (a : Offset) (s : State) : (busError a s).ipos = s.ipos := rfl
@[simp] theorem busError_ibitpos (a : Offset) (s : State) : (busError a s).ibitpos = s.ibitpos := rfl
@[simp] theorem busError_outLen (a : Offset) (s : State) : (busError a s).outLen = s.outLen := rfl
@[simp] theorem busError_nodeSel (a : Offset) (s : State) : (busError a s).nodeSel = s.nodeSel := rfl
@[simp] theorem busError_codeSel (a : Offset) (s : State) : (busError a s).codeSel = s.codeSel := rfl
@[simp] theorem busError_ibuf (a : Offset) (s : State) : (busError a s).ibuf = s.ibuf := rfl
@[simp] theorem busError_obuf (a : Offset) (s : State) : (busError a s).obuf = s.obuf := rfl
@[simp] theorem busError_err (a : Offset) (s : State) : (busError a s).err = s.err := rfl
@[simp] theorem busError_stop (a : Offset) (s : State) : (busError a s).stop = s.stop := rfl
@[simp] theorem busError_lastOp (a : Offset) (s : State) : (busError a s).lastOp = s.lastOp := rfl
@[simp] theorem busError_irqEn (a : Offset) (s : State) : (busError a s).irqEn = s.irqEn := rfl
@[simp] theorem busError_irqStat (a : Offset) (s : State) : (busError a s).irqStat = s.irqStat := rfl
@[simp] theorem busError_pending (a : Offset) (s : State) : (busError a s).pending = s.pending := rfl
@[simp] theorem busError_timeline (a : Offset) (s : State) : (busError a s).timeline = s.timeline := rfl
@[simp] theorem busError_response (a : Offset) (s : State) : (busError a s).response = some ⟨0, true⟩ := rfl
@[simp] theorem busError_busFaults (a : Offset) (s : State) : (busError a s).busFaults = .busError a :: s.busFaults := rfl
@[simp] theorem busError_draws (a : Offset) (s : State) : (busError a s).draws = s.draws := rfl

/-! ### withCommand -/

@[simp] theorem withCommand_cfg (w : Word) (s : State) : (withCommand w s).cfg = s.cfg := rfl
@[simp] theorem withCommand_freq (w : Word) (s : State) : (withCommand w s).freq = s.freq := rfl
@[simp] theorem withCommand_total (w : Word) (s : State) : (withCommand w s).total = s.total := rfl
@[simp] theorem withCommand_treeValid (w : Word) (s : State) : (withCommand w s).treeValid = s.treeValid := rfl
@[simp] theorem withCommand_codesValid (w : Word) (s : State) : (withCommand w s).codesValid = s.codesValid := rfl
@[simp] theorem withCommand_encClosed (w : Word) (s : State) : (withCommand w s).encClosed = s.encClosed := rfl
@[simp] theorem withCommand_nsym (w : Word) (s : State) : (withCommand w s).nsym = s.nsym := rfl
@[simp] theorem withCommand_root (w : Word) (s : State) : (withCommand w s).root = s.root := rfl
@[simp] theorem withCommand_node (w : Word) (s : State) : (withCommand w s).node = s.node := rfl
@[simp] theorem withCommand_code (w : Word) (s : State) : (withCommand w s).code = s.code := rfl
@[simp] theorem withCommand_accBits (w : Word) (s : State) : (withCommand w s).accBits = s.accBits := rfl
@[simp] theorem withCommand_accN (w : Word) (s : State) : (withCommand w s).accN = s.accN := rfl
@[simp] theorem withCommand_encCount (w : Word) (s : State) : (withCommand w s).encCount = s.encCount := rfl
@[simp] theorem withCommand_encBits (w : Word) (s : State) : (withCommand w s).encBits = s.encBits := rfl
@[simp] theorem withCommand_decNode (w : Word) (s : State) : (withCommand w s).decNode = s.decNode := rfl
@[simp] theorem withCommand_decCount (w : Word) (s : State) : (withCommand w s).decCount = s.decCount := rfl
@[simp] theorem withCommand_inLen (w : Word) (s : State) : (withCommand w s).inLen = s.inLen := rfl
@[simp] theorem withCommand_ipos (w : Word) (s : State) : (withCommand w s).ipos = s.ipos := rfl
@[simp] theorem withCommand_ibitpos (w : Word) (s : State) : (withCommand w s).ibitpos = s.ibitpos := rfl
@[simp] theorem withCommand_outLen (w : Word) (s : State) : (withCommand w s).outLen = s.outLen := rfl
@[simp] theorem withCommand_nodeSel (w : Word) (s : State) : (withCommand w s).nodeSel = s.nodeSel := rfl
@[simp] theorem withCommand_codeSel (w : Word) (s : State) : (withCommand w s).codeSel = s.codeSel := rfl
@[simp] theorem withCommand_ibuf (w : Word) (s : State) : (withCommand w s).ibuf = s.ibuf := rfl
@[simp] theorem withCommand_obuf (w : Word) (s : State) : (withCommand w s).obuf = s.obuf := rfl
@[simp] theorem withCommand_err (w : Word) (s : State) : (withCommand w s).err = s.err := rfl
@[simp] theorem withCommand_stop (w : Word) (s : State) : (withCommand w s).stop = s.stop := rfl
@[simp] theorem withCommand_lastOp (w : Word) (s : State) : (withCommand w s).lastOp = s.lastOp := rfl
@[simp] theorem withCommand_irqEn (w : Word) (s : State) : (withCommand w s).irqEn = s.irqEn := rfl
@[simp] theorem withCommand_irqStat (w : Word) (s : State) : (withCommand w s).irqStat = s.irqStat := rfl
@[simp] theorem withCommand_pending (w : Word) (s : State) : (withCommand w s).pending = some w := rfl
@[simp] theorem withCommand_timeline (w : Word) (s : State) : (withCommand w s).timeline = .engine :: s.timeline := rfl
@[simp] theorem withCommand_response (w : Word) (s : State) : (withCommand w s).response = s.response := rfl
@[simp] theorem withCommand_busFaults (w : Word) (s : State) : (withCommand w s).busFaults = s.busFaults := rfl
@[simp] theorem withCommand_draws (w : Word) (s : State) : (withCommand w s).draws = s.draws := rfl

/-! ### clearDatapath and hardwareReset: what they keep -/

@[simp] theorem clearDatapath_cfg (s : State) : (clearDatapath s).cfg = s.cfg := rfl
@[simp] theorem clearDatapath_nodeSel (s : State) : (clearDatapath s).nodeSel = s.nodeSel := rfl
@[simp] theorem clearDatapath_codeSel (s : State) : (clearDatapath s).codeSel = s.codeSel := rfl
@[simp] theorem clearDatapath_ibuf (s : State) : (clearDatapath s).ibuf = s.ibuf := rfl
@[simp] theorem clearDatapath_obuf (s : State) : (clearDatapath s).obuf = s.obuf := rfl
@[simp] theorem clearDatapath_err (s : State) : (clearDatapath s).err = s.err := rfl
@[simp] theorem clearDatapath_stop (s : State) : (clearDatapath s).stop = s.stop := rfl
@[simp] theorem clearDatapath_lastOp (s : State) : (clearDatapath s).lastOp = s.lastOp := rfl
@[simp] theorem clearDatapath_irqEn (s : State) : (clearDatapath s).irqEn = s.irqEn := rfl
@[simp] theorem clearDatapath_irqStat (s : State) : (clearDatapath s).irqStat = s.irqStat := rfl
@[simp] theorem clearDatapath_pending (s : State) : (clearDatapath s).pending = s.pending := rfl
@[simp] theorem clearDatapath_timeline (s : State) : (clearDatapath s).timeline = s.timeline := rfl
@[simp] theorem clearDatapath_response (s : State) : (clearDatapath s).response = s.response := rfl
@[simp] theorem clearDatapath_busFaults (s : State) : (clearDatapath s).busFaults = s.busFaults := rfl
@[simp] theorem clearDatapath_draws (s : State) : (clearDatapath s).draws = s.draws := rfl
@[simp] theorem hardwareReset_cfg (s : State) : (hardwareReset s).cfg = s.cfg := rfl
@[simp] theorem hardwareReset_timeline (s : State) : (hardwareReset s).timeline = s.timeline := rfl
@[simp] theorem hardwareReset_response (s : State) : (hardwareReset s).response = s.response := rfl
@[simp] theorem hardwareReset_busFaults (s : State) : (hardwareReset s).busFaults = s.busFaults := rfl
@[simp] theorem hardwareReset_draws (s : State) : (hardwareReset s).draws = s.draws := rfl

end Sys2Proof.Machine
end

