-- ==== Sys2Proof/Laws/Ops.lean ====
section
/-! SUPPORT. One lemma per shared operation that says once what it can do: tables, counters, output, loops, the frame of
the completion step. -/

namespace Sys2Proof.Machine

/-! ### Tables -/

theorem symGet_symSet_same {α : Type} (t : Vector α 256) (b : Byte) (x : α) : symGet (symSet t b x) b = x := by
  simp [symGet, symSet]

theorem symGet_symSet_other {α : Type} (t : Vector α 256) {b c : Byte} (x : α) (h : c ≠ b) :
    symGet (symSet t b x) c = symGet t c := by
  have : ¬ b.toNat = c.toNat := fun e => h (BitVec.eq_of_toNat_eq e.symm)
  simp [symGet, symSet, this]

theorem symGet_symSet {α : Type} (t : Vector α 256) (b c : Byte) (x : α) :
    symGet (symSet t b x) c = if c = b then x else symGet t c := by
  split
  · rename_i h; rw [h, symGet_symSet_same]
  · rename_i h; exact symGet_symSet_other t x h

theorem symGet_replicate {α : Type} (x : α) (b : Byte) : symGet (Vector.replicate 256 x) b = x := by
  simp [symGet]

theorem symGet_ext {α : Type} {t u : Vector α 256} (h : ∀ b, symGet t b = symGet u b) : t = u := by
  ext i hi
  have := h (BitVec.ofNat 8 i)
  simpa [symGet, Nat.mod_eq_of_lt hi] using this

/-! ### Counters -/

theorem bump_eq_some {n : Nat} {x y : BitVec n} {k : Nat} :
    bump x k = some y ↔ x.toNat + k < 2 ^ n ∧ y = BitVec.ofNat n (x.toNat + k) := by
  unfold bump
  split <;> simp_all [eq_comm]

theorem bump_of_lt {n : Nat} (x : BitVec n) {k : Nat} (h : x.toNat + k < 2 ^ n) :
    bump x k = some (BitVec.ofNat n (x.toNat + k)) := bump_eq_some.mpr ⟨h, rfl⟩

theorem bump_toNat {n : Nat} {x y : BitVec n} {k : Nat} (h : bump x k = some y) : y.toNat = x.toNat + k := by
  obtain ⟨h1, rfl⟩ := bump_eq_some.mp h
  simp [Nat.mod_eq_of_lt h1]

theorem bump_eq_none {n : Nat} {x : BitVec n} {k : Nat} : bump x k = none ↔ 2 ^ n ≤ x.toNat + k := by
  unfold bump
  split <;> simp <;> omega

/-! ### Output -/

theorem emitAll_eq (bs : List Byte) (s : State) (h : s.outLen.toNat + bs.length < 2 ^ 15) :
    emitAll bs s = { s with
      obuf := Memory.writeList s.obuf s.outLen.toNat bs
      outLen := BitVec.ofNat 15 (s.outLen.toNat + bs.length) } := by
  induction bs generalizing s with
  | nil => simp [emitAll, Memory.writeList]
  | cons b bs ih =>
    simp only [List.length_cons] at h
    have ho : (s.outLen + 1).toNat = s.outLen.toNat + 1 := by
      rw [BitVec.toNat_add]
      exact Nat.mod_eq_of_lt (by simp; omega)
    rw [emitAll, ih _ (by simp only [emit_outLen, ho]; omega)]
    simp only [emit, ho, Memory.writeList, List.length_cons]
    congr 2
    omega

@[simp] theorem putbit_accN (x : Bool) (s : State) :
    (putbit x s).accN = if s.accN = 7 then 0 else s.accN + 1 := by
  unfold putbit; split <;> rfl

/-- What `putbit` changes: ACC, OBUF and OUT_LEN. -/
theorem putbit_frame (x : Bool) (s : State) :
    putbit x s = { s with
      accBits := (putbit x s).accBits
      accN := (putbit x s).accN
      obuf := (putbit x s).obuf
      outLen := (putbit x s).outLen } := by
  unfold putbit; split <;> rfl

/-- What `putbits` changes: ACC, OBUF and OUT_LEN. -/
theorem putbits_frame (xs : List Bool) (s : State) :
    putbits xs s = { s with
      accBits := (putbits xs s).accBits
      accN := (putbits xs s).accN
      obuf := (putbits xs s).obuf
      outLen := (putbits xs s).outLen } := by
  induction xs generalizing s with
  | nil => rfl
  | cons x xs ih =>
    rw [putbits, ih, putbit_frame x s]

theorem withBit_getLsbD (b : Byte) {k : Nat} (x : Bool) (j : Nat) (hk : k < 8) :
    (withBit b k x).getLsbD j = if j = k then x else b.getLsbD j := by
  unfold withBit
  by_cases hj : j < 8
  · interval_cases k <;> interval_cases j <;> cases x <;> simp [BitVec.ofBool]
  · simp [BitVec.getLsbD_of_ge _ _ (show 8 ≤ j by omega)]
    omega

/-! ### Loops -/

/-- The rule for loops: a property that every turn keeps holds where the loop ends. -/
theorem loop_induct {turn : State → Turn} {I : State → Prop} {Q : State → Stop → Prop}
    (again : ∀ s s', I s → turn s = .again s' → I s')
    (ends : ∀ s s' w, I s → turn s = .ends s' w → Q s' w) :
    ∀ n s s' w, I s → loop turn n s = .next (s', w) → Q s' w := by
  intro n
  induction n with
  | zero => intro s s' w _ h; simp [loop] at h
  | succ n ih =>
    intro s s' w hi h
    rw [loop] at h
    split at h
    · rename_i s1 e
      exact ih s1 s' w (again _ _ hi e) h
    · rename_i s1 w1 e
      obtain ⟨rfl, rfl⟩ : s1 = s' ∧ w1 = w := by simpa using h
      exact ends _ _ _ hi e
    · simp at h

/-- A loop ends without a fault when no turn faults and each turn that goes on lowers a measure below the bound. -/
theorem loop_ends {turn : State → Turn} {I : State → Prop} (μ : State → Nat)
    (again : ∀ s s', I s → turn s = .again s' → I s' ∧ μ s' < μ s)
    (safe : ∀ s f, I s → turn s ≠ .faults f) :
    ∀ n s, I s → μ s < n → ∃ r, loop turn n s = .next r := by
  intro n
  induction n with
  | zero => intro s _ h; omega
  | succ n ih =>
    intro s hi h
    rw [loop]
    split
    · rename_i s1 e
      obtain ⟨h1, h2⟩ := again _ _ hi e
      exact ih s1 h1 (by omega)
    · exact ⟨_, rfl⟩
    · rename_i f e
      exact absurd e (safe _ _ hi)

theorem loop_succ_again {turn : State → Turn} {s s' : State} (n : Nat) (h : turn s = .again s') :
    loop turn (n + 1) s = loop turn n s' := by rw [loop, h]

theorem loop_succ_ends {turn : State → Turn} {s s' : State} {w : Stop} (n : Nat) (h : turn s = .ends s' w) :
    loop turn (n + 1) s = .next (s', w) := by rw [loop, h]

/-- A loop never refuses. -/
theorem loop_not_refused {turn : State → Turn} (n : Nat) (s : State) (r : Refusal) : loop turn n s ≠ .refused r := by
  induction n generalizing s with
  | zero => simp [loop]
  | succ n ih =>
    rw [loop]
    split
    · exact ih _
    · simp
    · simp

/-! ### The frame (R121) -/

/-- A refused word (R123). -/
theorem completion_refused {w : Word} {s : State} (body : State → Result) (he : s.err ≠ .none) (hw : w ≠ clearWord) :
    completion w body s = .next (finish .refused { s with lastOp := opcodeByte w }) := by
  simp [completion, he, hw, stopWith]

/-- A word that is not refused runs its body. -/
theorem completion_runs {w : Word} {s : State} {body : State → Result} {s' : State} {st : Stop}
    (he : s.err = .none ∨ w = clearWord) (hb : body { s with lastOp := opcodeByte w } = .next (s', st)) :
    completion w body s = .next (finish st s') := by
  have : ¬ (s.err ≠ .none ∧ w ≠ clearWord) := by tauto
  simp only [completion, if_neg this, hb]

/-- Everything the frame can answer. -/
theorem completion_next {w : Word} {s t : State} {body : State → Result} (h : completion w body s = .next t) :
    (s.err ≠ .none ∧ w ≠ clearWord ∧ t = finish .refused { s with lastOp := opcodeByte w }) ∨
    ((s.err = .none ∨ w = clearWord) ∧ ∃ s' st, body { s with lastOp := opcodeByte w } = .next (s', st) ∧ t = finish st s') := by
  unfold completion at h
  by_cases hc : s.err ≠ .none ∧ w ≠ clearWord
  · simp only [if_pos hc, stopWith, Host.Outcome.next.injEq] at h
    exact .inl ⟨hc.1, hc.2, h.symm⟩
  · simp only [if_neg hc] at h
    split at h
    · rename_i s' st e
      simp only [Host.Outcome.next.injEq] at h
      exact .inr ⟨by tauto, s', st, e, h.symm⟩
    · simp at h
    · simp at h

theorem opcodeByte_encode (i : Instr) : opcodeByte (encode i) = opcodeOf i := by
  cases i with
  | decode last => cases last <;> decide
  | _ => decide

theorem encode_eq_clearWord {i : Instr} : encode i = clearWord ↔ i = .clear := by
  cases i with
  | decode last => cases last <;> decide
  | _ => decide

/-- The phase and bounds conditions read nothing that the frame writes first. -/
@[simp] theorem phaseOK_lastOp (i : Instr) (s : State) (b : Byte) : phaseOK i { s with lastOp := b } = phaseOK i s := by
  cases i <;> rfl

@[simp] theorem boundsOK_lastOp (i : Instr) (s : State) (b : Byte) : boundsOK i { s with lastOp := b } = boundsOK i s := by
  cases i <;> rfl

/-- Everything a command's completion can answer: refused (R123), SEQ (R130), BOUNDS (R132), or the end of its body. -/
theorem runCommand_next {i : Instr} {s t : State} {body : State → Result} (h : runCommand i body s = .next t) :
    (s.err ≠ .none ∧ i ≠ .clear ∧ t = finish .refused { s with lastOp := opcodeOf i }) ∨
    ((s.err = .none ∨ i = .clear) ∧ phaseOK i s = false ∧
      t = finish .error (recordErr .seq { s with lastOp := opcodeOf i })) ∨
    ((s.err = .none ∨ i = .clear) ∧ phaseOK i s = true ∧ boundsOK i s = false ∧
      t = finish .error (recordErr .bounds { s with lastOp := opcodeOf i })) ∨
    ((s.err = .none ∨ i = .clear) ∧ phaseOK i s = true ∧ boundsOK i s = true ∧
      ∃ s' st, body { s with lastOp := opcodeOf i } = .next (s', st) ∧ t = finish st s') := by
  rcases completion_next h with ⟨he, hw, ht⟩ | ⟨he, s', st, hb, ht⟩
  · rw [opcodeByte_encode] at ht
    exact .inl ⟨he, fun e => hw (encode_eq_clearWord.mpr e), ht⟩
  · rw [encode_eq_clearWord] at he
    simp only [opcodeByte_encode, phaseOK_lastOp, boundsOK_lastOp] at hb
    cases hp : phaseOK i s
    · simp only [hp, Bool.not_false, if_true, raise, Host.Outcome.next.injEq, Prod.mk.injEq] at hb
      obtain ⟨rfl, rfl⟩ := hb
      exact .inr (.inl ⟨he, rfl, ht⟩)
    · cases hq : boundsOK i s
      · simp only [hp, hq, Bool.not_true, Bool.not_false, Bool.false_eq_true, if_false, if_true, raise,
          Host.Outcome.next.injEq, Prod.mk.injEq] at hb
        obtain ⟨rfl, rfl⟩ := hb
        exact .inr (.inr (.inl ⟨he, rfl, rfl, ht⟩))
      · simp only [hp, hq, Bool.not_true, Bool.false_eq_true, if_false] at hb
        exact .inr (.inr (.inr ⟨he, rfl, rfl, s', st, hb, ht⟩))

/-- A command in phase and in range that is not refused runs its body. -/
theorem runCommand_runs {i : Instr} {s : State} {body : State → Result} {s' : State} {st : Stop}
    (he : s.err = .none ∨ i = .clear) (hp : phaseOK i s = true) (hq : boundsOK i s = true)
    (hb : body { s with lastOp := opcodeOf i } = .next (s', st)) :
    runCommand i body s = .next (finish st s') := by
  unfold runCommand
  refine completion_runs (by rwa [encode_eq_clearWord]) ?_
  simp only [opcodeByte_encode, phaseOK_lastOp, boundsOK_lastOp, hp, hq]
  simpa using hb

end Sys2Proof.Machine
end

