-- ==== Sys2Proof/Laws/Operands.lean ====
section
/-! SUPPORT. What the operand reads do: the value where the bytes are written, and that only the draw counter moves. -/

namespace Sys2Proof.Machine

theorem byteOrDraw_some (v : Byte) (s : State) : byteOrDraw (some v) s = (v, s) := rfl

/-- A read moves the draw counter and nothing else. -/
theorem byteOrDraw_state (b : Option Byte) (s : State) :
    (byteOrDraw b s).2 = { s with draws := (byteOrDraw b s).2.draws } := by
  cases b <;> rfl

theorem readIbuf_some {s : State} {p : Nat} {b : Byte} (h : Memory.read s.ibuf p = some b) : readIbuf p s = (b, s) := by
  simp [readIbuf, h, byteOrDraw]

theorem readIbuf_state (p : Nat) (s : State) : (readIbuf p s).2 = { s with draws := (readIbuf p s).2.draws } :=
  byteOrDraw_state _ s

theorem readObuf_state (p : Nat) (s : State) : (readObuf p s).2 = { s with draws := (readObuf p s).2.draws } :=
  byteOrDraw_state _ s

theorem readBit_state (p : Nat) (s : State) : (readBit p s).2 = { s with draws := (readBit p s).2.draws } :=
  readIbuf_state _ s

theorem readBit_some {s : State} {p : Nat} {b : Byte} (h : Memory.read s.ibuf (p / 8) = some b) :
    readBit p s = (streamBit b (p % 8), s) := by
  simp [readBit, readIbuf_some h]

theorem readWord_state (p : Nat) (s : State) : (readWord p s).2 = { s with draws := (readWord p s).2.draws } := by
  simp only [readWord]
  rw [readIbuf_state (p + 3), readIbuf_state (p + 2), readIbuf_state (p + 1), readIbuf_state p]

theorem readWords_state (n p : Nat) (s : State) :
    (readWords n p s).2 = { s with draws := (readWords n p s).2.draws } := by
  induction n generalizing p s with
  | zero => rfl
  | succ n ih =>
    simp only [readWords]
    rw [ih, readWord_state]

@[simp] theorem readWords_length (n p : Nat) (s : State) : (readWords n p s).1.length = n := by
  induction n generalizing p s with
  | zero => rfl
  | succ n ih => simp [readWords, ih]

/-- A little-endian word whose four bytes are written. -/
theorem readWord_some {s : State} {p : Nat} {b0 b1 b2 b3 : Byte} (h0 : Memory.read s.ibuf p = some b0)
    (h1 : Memory.read s.ibuf (p + 1) = some b1) (h2 : Memory.read s.ibuf (p + 2) = some b2)
    (h3 : Memory.read s.ibuf (p + 3) = some b3) : readWord p s = (wordOf b0 b1 b2 b3, s) := by
  simp [readWord, readIbuf_some h0, readIbuf_some h1, readIbuf_some h2, readIbuf_some h3]

/-- The bytes of a word give the word back. -/
theorem wordOf_bytes (w : Word) : wordOf (byteOf w 0) (byteOf w 1) (byteOf w 2) (byteOf w 3) = w := by
  apply BitVec.eq_of_getLsbD_eq
  intro i hi
  simp only [wordOf, byteOf, BitVec.getLsbD_append, BitVec.getLsbD_extractLsb']
  interval_cases i <;> simp

@[simp] theorem bytesOf_length (w : Word) : (bytesOf w).length = 4 := rfl

theorem padded_getElem {α : Type} {n : Nat} (l : List α) (x : α) (i : Nat) (h : i < n) :
    (padded n l x)[i] = l.getD i x := by
  simp only [padded, Vector.getElem_mk, List.getElem_toArray, List.getElem_take, List.getElem_append, List.getElem_replicate]
  split
  · rename_i hl; simp [List.getD, hl]
  · rename_i hl; simp [List.getD, List.getElem?_eq_none (Nat.le_of_not_lt hl)]

theorem entryAt_isSome (a : Vector Entry 511) {x : Index} (h : x.toNat < 511) : entryAt a x = some a[x.toNat] := by
  simp [entryAt, h]

theorem entryAt_none (a : Vector Entry 511) : entryAt a Index.none = none := by
  simp [entryAt]

end Sys2Proof.Machine
end

