-- ==== Sys2Proof/Laws/PerInstr.lean ====
section
/-! SUPPORT. What holds of every command, one lemma per constructor: its word is a legal command word (spec/30_encoding.md R93)
of its own row of the opcode table (R91). -/

namespace Sys2Proof.Laws.WordForm

/-- The word of i has legal fields and lies in the row of i. -/
def Statement (i : Instr) : Prop :=
  (commandFields (encode i)).wellFormed = true ∧ (opcodeRow i).covers (encode i) = true

theorem nop : Statement .nop := by unfold Statement; decide
theorem clear : Statement .clear := by unfold Statement; decide
theorem count : Statement .count := by unfold Statement; decide
theorem build : Statement .build := by unfold Statement; decide
theorem genCodes : Statement .genCodes := by unfold Statement; decide
theorem hdrEmit : Statement .hdrEmit := by unfold Statement; decide
theorem hdrLoad : Statement .hdrLoad := by unfold Statement; decide
theorem encode : Statement .encode := by unfold Statement; decide
theorem flush : Statement .flush := by unfold Statement; decide
theorem decode (last : Bool) : Statement (.decode last) := by cases last <;> (unfold Statement; decide)

end Sys2Proof.Laws.WordForm
end

