-- ==== Sys2Proof/Laws/Safety.lean ====
section
/-! SUPPORT. The small lemmas of the definitions the statements are made with: what a register read answers, and what the
states after encoding and decoding some symbols leave alone. -/

namespace Sys2Proof.Machine

/-- A read is answered by the word its offset reaches, if that word's read moves nothing. -/
theorem readAnswers_of_target {s : State} {a : Offset} {t : Target} {d : Word} (h : reach s.cfg a .word = some t)
    (hr : ∀ rest, readTarget t { s with timeline := rest } = (d, { s with timeline := rest })) : readAnswers s a d := by
  intro rest
  simp [step, advance, takeEvent, hostAccess, h, hr]

@[simp] theorem afterEncoding_cfg (s : State) (bs : List Byte) : (afterEncoding s bs).cfg = s.cfg := rfl
@[simp] theorem afterEncoding_code (s : State) (bs : List Byte) : (afterEncoding s bs).code = s.code := rfl
@[simp] theorem afterEncoding_total (s : State) (bs : List Byte) : (afterEncoding s bs).total = s.total := rfl
@[simp] theorem afterEncoding_inLen (s : State) (bs : List Byte) : (afterEncoding s bs).inLen = s.inLen := rfl
@[simp] theorem afterEncoding_ibuf (s : State) (bs : List Byte) : (afterEncoding s bs).ibuf = s.ibuf := rfl
@[simp] theorem afterEncoding_err (s : State) (bs : List Byte) : (afterEncoding s bs).err = s.err := rfl
@[simp] theorem afterEncoding_irqStat (s : State) (bs : List Byte) : (afterEncoding s bs).irqStat = s.irqStat := rfl

@[simp] theorem afterDecoding_cfg (s : State) (ys : List Byte) (k : Nat) (n : Index) : (afterDecoding s ys k n).cfg = s.cfg := rfl
@[simp] theorem afterDecoding_node (s : State) (ys : List Byte) (k : Nat) (n : Index) : (afterDecoding s ys k n).node = s.node := rfl
@[simp] theorem afterDecoding_root (s : State) (ys : List Byte) (k : Nat) (n : Index) : (afterDecoding s ys k n).root = s.root := rfl
@[simp] theorem afterDecoding_total (s : State) (ys : List Byte) (k : Nat) (n : Index) :
    (afterDecoding s ys k n).total = s.total := rfl
@[simp] theorem afterDecoding_inLen (s : State) (ys : List Byte) (k : Nat) (n : Index) :
    (afterDecoding s ys k n).inLen = s.inLen := rfl
@[simp] theorem afterDecoding_ibuf (s : State) (ys : List Byte) (k : Nat) (n : Index) : (afterDecoding s ys k n).ibuf = s.ibuf := rfl
@[simp] theorem afterDecoding_err (s : State) (ys : List Byte) (k : Nat) (n : Index) : (afterDecoding s ys k n).err = s.err := rfl
@[simp] theorem afterDecoding_irqStat (s : State) (ys : List Byte) (k : Nat) (n : Index) :
    (afterDecoding s ys k n).irqStat = s.irqStat := rfl

/-- With nothing decoded and no bit consumed, at the node it was, the state is as it was. -/
theorem afterDecoding_nil (s : State) : afterDecoding s [] 0 s.decNode = s := by
  simp [afterDecoding, Memory.writeList]

end Sys2Proof.Machine
end

