-- ==== Sys2Proof/Tests/Slice0.lean ====
section
/-! SUPPORT. Tests on small states. Expected values come from spec/95_test_vectors.md (V1-V50), the examples of the rules, or
hand calculation from them; each test names its source. `test_hyps_…` shows a concrete state that meets the hypotheses of
the obligation it is named after, one conjunct (or disjunct) for each clause. -/

namespace Sys2Proof.Tests
open Sys2Proof Sys2Proof.Machine

-- One theorem at a time: a thread for each of them would need more memory than the check has.
set_option Elab.async false

/-! ### Helpers -/

/-- The next state of an outcome, if it has one. -/
def nextOf (o : Host.Outcome State Fault Refusal) : Option State :=
  match o with
  | .next t => some t
  | .fault _ => none
  | .refused _ => none

/-- A next state with a property, from an evaluation. -/
theorem exists_next {o : Host.Outcome State Fault Refusal} {P : State → Prop} [DecidablePred P]
    (h : (nextOf o).any (fun t => decide (P t)) = true) : ∃ t, o = .next t ∧ P t := by
  cases o with
  | next t => exact ⟨t, rfl, by simpa [nextOf] using h⟩
  | fault f => simp [nextOf] at h
  | refused r => simp [nextOf] at h

/-- One event next. -/
def soon (e : Event) (s : State) : State := { s with timeline := [e] }

/-- A command word in flight, the engine's turn next. -/
def issued (w : Word) (s : State) : State := { s with pending := some w, timeline := [.engine] }

/-- Bytes in IBUF from 0 on, IN_LEN their number, IPOS and IBITPOS 0: what `load_in` leaves (R96). -/
def loaded (bs : List Byte) (s : State) : State :=
  { s with
    ibuf := (List.range bs.length).zip bs
    inLen := BitVec.ofNat 15 bs.length
    ipos := 0
    ibitpos := 0 }

/-- The table of "AB" (V27). -/
def tableAB : Vector Word 256 := symSet (symSet (Vector.replicate 256 0) 0x41 1) 0x42 1

/-- "AB" counted and built (V27: ROOT = 2). -/
def built : State :=
  { State.reset with
    freq := tableAB
    total := 2
    treeValid := true
    node := buildArena tableAB
    root := 2
    nsym := 2
    decNode := 2 }

/-- The codes of "AB" (V27: A = 0 and B = 1). -/
def codesAB : Vector (List Bool) 256 := symSet (symSet (Vector.replicate 256 []) 0x41 [false]) 0x42 [true]

/-- "AB" through GENCODES. -/
def coded : State := { built with codesValid := true, code := codesAB }

/-- The table of "AAA" (V25). -/
def tableA : Vector Word 256 := symSet (Vector.replicate 256 0) 0x41 3

/-- "AAA" counted and built (V25: ROOT = 0). -/
def single : State :=
  { State.reset with
    freq := tableA
    total := 3
    treeValid := true
    node := buildArena tableA
    root := 0
    nsym := 1
    decNode := 0 }

/-- A header with one count at byte 260 (FREQ[0x41]) and the total at byte 1024 (R104). -/
def headerA (count total : Byte) : List Byte :=
  (List.range 1028).map (fun k => if k = 260 then count else if k = 1024 then total else 0)

/-! ### Well-formedness: each check refuses an ill-formed term (R90, R93) -/

theorem test_wf_accepts_every_row :
    (List.range 10).all (fun k => CommandFields.wellFormed ⟨BitVec.ofNat 8 k, false, 0⟩) = true ∧
    CommandFields.wellFormed ⟨0x09, true, 0⟩ = true := by decide
theorem test_wf_refuses_reserved_bits :
    CommandFields.rsvdClear ⟨0x02, false, 1⟩ = false ∧ CommandFields.wellFormed ⟨0x02, false, 1⟩ = false := by decide
theorem test_wf_refuses_reserved_opcode :
    CommandFields.opcodeAssigned ⟨0x0A, false, 0⟩ = false ∧ CommandFields.wellFormed ⟨0x0A, false, 0⟩ = false := by decide
theorem test_wf_refuses_last_on_count :
    CommandFields.lastAllowed ⟨0x02, true, 0⟩ = false ∧ CommandFields.wellFormed ⟨0x02, true, 0⟩ = false := by decide

/-! ### Decoding: words written out from R90 and R91 -/

theorem test_decode_nop : decode 0b00000000000000000000000000000000#32 = .ok .nop := by decide
theorem test_decode_clear : decode 0b00000000000000000000000000000001#32 = .ok .clear := by decide
theorem test_decode_count : decode 0b00000000000000000000000000000010#32 = .ok .count := by decide
theorem test_decode_build : decode 0b00000000000000000000000000000011#32 = .ok .build := by decide
theorem test_decode_genCodes : decode 0b00000000000000000000000000000100#32 = .ok .genCodes := by decide
theorem test_decode_hdrEmit : decode 0b00000000000000000000000000000101#32 = .ok .hdrEmit := by decide
theorem test_decode_hdrLoad : decode 0b00000000000000000000000000000110#32 = .ok .hdrLoad := by decide
theorem test_decode_encode : decode 0b00000000000000000000000000000111#32 = .ok .encode := by decide
theorem test_decode_flush : decode 0b00000000000000000000000000001000#32 = .ok .flush := by decide
theorem test_decode_decode : decode 0b00000000000000000000000000001001#32 = .ok (.decode false) := by decide
theorem test_decode_decode_last : decode 0b00000000000000000000000100001001#32 = .ok (.decode true) := by decide
theorem test_decode_rejects : decode 0x0000000A#32 = .error .reservedOpcode ∧ decode 0x00000102#32 = .error .lastNotDecode ∧
    decode 0x00000200#32 = .error .reservedBits ∧ decode 0x0000010A#32 = .error .lastNotDecode := by decide
theorem test_encode_words : encode .nop = 0x00000000 ∧ encode .clear = 0x00000001 ∧ encode .count = 0x00000002 ∧
    encode .build = 0x00000003 ∧ encode .genCodes = 0x00000004 ∧ encode .hdrEmit = 0x00000005 ∧
    encode .hdrLoad = 0x00000006 ∧ encode .encode = 0x00000007 ∧ encode .flush = 0x00000008 ∧
    encode (.decode false) = 0x00000009 ∧ encode (.decode true) = 0x00000109 := by decide
theorem test_table_word : decodeTableWord 32 0x109 = some (.decode true) ∧ decodeTableWord 32 0x200 = none := by decide
theorem test_fetch_word_runs_first :
    ((nextOf (step (State.reset.withFetchWord 32 3))).map State.statusWord) = some 0x03000112 := by decide +kernel -- V24

/-! ### One or two small tests per command -/

-- V2: NOP from fresh: STATUS = 0x00000100.
theorem test_nop : (nextOf (exec .nop State.reset)).map State.statusWord = some 0x00000100 := by decide +kernel
-- V8: CLEAR while ERR = 1: STATUS = 0x01000100; V1: ROOT = 0x1FF, IRQ_EN unchanged.
theorem test_clear : (nextOf (exec .clear { coded with err := .badCmd, irqEn := 2 })).map
    (fun t => (t.statusWord, t.root, t.irqEn)) = some (0x01000100, 0x1FF, 2) := by decide +kernel
-- V18: the table of "ABRACADABRA".
theorem test_count : (nextOf (exec .count (loaded [0x41, 0x42, 0x52, 0x41, 0x43, 0x41, 0x44, 0x41, 0x42, 0x52, 0x41] State.reset))).map
    (fun t => (symGet t.freq 0x41, symGet t.freq 0x42, symGet t.freq 0x43, symGet t.freq 0x52, t.total, t.ipos)) =
    some (5, 2, 1, 2, 11, 11) := by decide +kernel
-- V20: the second A of "AA" overflows: IPOS = 1, STATUS = 0x02060400.
theorem test_count_overflow : (nextOf (exec .count (loaded [0x41, 0x41]
      { State.reset with freq := symSet (Vector.replicate 256 0) 0x41 0xFFFFFFFE, total := 0xFFFFFFFE }))).map
    (fun t => (symGet t.freq 0x41, t.total, t.ipos, t.statusWord)) = some (0xFFFFFFFF, 0xFFFFFFFF, 1, 0x02060400) := by
  decide +kernel
-- V27: NODE_LINK[0..2] of "AB", ROOT = 2.
theorem test_build : (nextOf (exec .build { State.reset with freq := tableAB, total := 2 })).map
    (fun t => (linkWord (nodeOf t.node 0), linkWord (nodeOf t.node 1), linkWord (nodeOf t.node 2), t.root, t.nsym)) =
    some (0x300BFFFF, 0x380BFFFF, 0x27FC0200, 2, 2) := by decide +kernel
-- V26: a wrong sum: STATUS = 0x03040400.
theorem test_build_corrupt : (nextOf (exec .build { State.reset with freq := tableAB, total := 3 })).map State.statusWord =
    some 0x03040400 := by decide +kernel
-- V27: A = 0, B = 1; an absent symbol has no code.
theorem test_genCodes : (nextOf (exec .genCodes built)).map
    (fun t => (symGet t.code 0x41, symGet t.code 0x42, symGet t.code 0x43, t.codesValid)) =
    some ([false], [true], [], true) := by decide +kernel
-- R175: for A = B = C = 1 the codes are C = 0, A = 10, B = 11.
theorem test_genCodes_tie : ((codeTable (buildArena (symSet tableAB 0x43 1)) 4 3).toOption).map
    (fun c => (symGet c 0x41, symGet c 0x42, symGet c 0x43)) = some ([true, false], [true, true], [false]) := by decide +kernel
-- V33 (a): OUT_FULL, nothing written: STATUS = 0x05000306 with codes.
theorem test_hdrEmit_full : (nextOf (exec .hdrEmit { coded with outLen := 3069 })).map
    (fun t => (t.statusWord, t.outLen, t.obuf)) = some (0x05000306, 3069, []) := by decide +kernel
-- R180: with FREQ[0x41] = 3 and TOTAL = 3, OBUF[260] = OBUF[1024] = 3, and OUT_LEN grows by 1028.
theorem hdrEmit_writes {s : State} (he : s.err = .none) (hp : phaseOK .hdrEmit s = true) (hq : boundsOK .hdrEmit s = true)
    (ho : s.outLen = 0) (hl : (headerBytes s.freq s.total).length = 1028) :
    ∃ t, exec .hdrEmit s = .next t ∧ t.outLen = 1028 ∧
      ∀ j, j < 1028 → Memory.read t.obuf j = (headerBytes s.freq s.total)[j]? := by
  have hroom : ¬ (s.outLen.toNat + headerSize > s.cfg.obufBytes) := by
    have := s.cfg.obufOk.1
    simp [ho, headerSize]; omega
  have hb : hdrEmitBody { s with lastOp := opcodeOf .hdrEmit } =
      .next (emitAll (headerBytes s.freq s.total) { s with lastOp := opcodeOf .hdrEmit }, .done) := by
    simp only [hdrEmitBody, if_neg hroom, stopWith]
  refine ⟨_, runCommand_runs (.inl he) hp hq hb, ?_⟩
  rw [emitAll_eq _ _ (by simp [hl, ho])]
  refine ⟨by simp [finish, hl, ho], fun j hj => ?_⟩
  have := Memory.read_writeList_at (m := s.obuf) (a := s.outLen.toNat) (j := j) (bs := headerBytes s.freq s.total) (by omega)
  rw [List.getElem?_eq_getElem (by omega)]
  simpa [finish, ho] using this
theorem test_hdrEmit : ∃ t, exec .hdrEmit single = .next t ∧ t.outLen = 1028 ∧
    Memory.read t.obuf 260 = some 3 ∧ Memory.read t.obuf 261 = some 0 ∧ Memory.read t.obuf 1024 = some 3 := by
  obtain ⟨t, h, ho, hr⟩ := hdrEmit_writes (s := single) rfl (by decide +kernel) (by decide +kernel) rfl (by decide +kernel)
  refine ⟨t, h, ho, ?_, ?_, ?_⟩
  · rw [hr 260 (by decide)]; decide +kernel
  · rw [hr 261 (by decide)]; decide +kernel
  · rw [hr 1024 (by decide)]; decide +kernel
-- R200: the words of the header with FREQ[0x41] = TOTAL = 3.
theorem test_hdrLoad_words : (readWord 260 (loaded (headerA 3 3) State.reset)).1 = 3 ∧
    (readWord 1024 (loaded (headerA 3 3) State.reset)).1 = 3 ∧ (readWord 264 (loaded (headerA 3 3) State.reset)).1 = 0 := by
  decide +kernel
-- V42: 1027 zero bytes: STATUS = 0x06040400, IPOS = 0, TOTAL = 0.
theorem test_hdrLoad_truncated : (nextOf (exec .hdrLoad (loaded (List.replicate 1027 0) State.reset))).map
    (fun t => (t.ipos, t.total, t.statusWord)) = some (0, 0, 0x06040400) := by decide +kernel

-- V37: "ABA" with TOTAL = 2: ACC = 0x0240, ENC_COUNT = 2, IPOS = 2, STATUS = 0x07080406.
theorem test_encode_excess : (nextOf (exec .encode (loaded [0x41, 0x42, 0x41] coded))).map
    (fun t => (accWord t, t.encCount, t.ipos, t.statusWord)) = some (0x240, 2, 2, 0x07080406) := by decide +kernel
-- R184: with 7 bits 0 pending, B = 1 fills the byte 0x01.
theorem test_encode_emits : (nextOf (exec .encode (loaded [0x42] { coded with accN := 7 }))).map
    (fun t => (t.obuf, t.outLen, t.accN, t.encBits)) = some ([(0, 0x01)], 1, 0, 1) := by decide +kernel
-- V38: INCOMPLETE: STATUS = 0x08090406; then 0x40 at OUT_LEN: STATUS = 0x0800010E.
theorem test_flush_incomplete : (nextOf (exec .flush { coded with encCount := 1, accN := 1 })).map
    (fun t => (t.statusWord, t.obuf)) = some (0x08090406, []) := by decide +kernel
theorem test_flush : (nextOf (exec .flush { coded with encCount := 2, accBits := 0x40, accN := 2, outLen := 1028 })).map
    (fun t => (t.statusWord, t.obuf, t.outLen, t.accN)) = some (0x0800010E, [(1028, 0x40)], 1029, 0) := by decide +kernel
-- V27 read back: the payload 0x40 decodes to "AB", two bits consumed.
theorem test_decode_payload : (nextOf (exec (.decode true) (loaded [0x40] built))).map
    (fun t => (t.obuf, t.ibitpos, t.decCount, t.statusWord)) = some ([(0, 0x41), (1, 0x42)], 2, 2, 0x09000112) := by
  decide +kernel
-- R206, V45: a single symbol needs no bit.
theorem test_decode_single : (nextOf (exec (.decode true) single)).map (fun t => (t.obuf, t.ibitpos, t.statusWord)) =
    some ([(0, 0x41), (1, 0x41), (2, 0x41)], 0, 0x09000112) := by decide +kernel

/-! ### The host's side -/

-- V15 (a): IN_LEN written while NOP is in flight is dropped, and NOP is then refused: STATUS = 0x000A0500, IN_LEN = 0.
theorem test_busy_write : (nextOf (step { State.reset with pending := some 0, timeline := [.host (.write 0x020 .word 5), .engine] })).bind
    (fun t => (nextOf (step t)).map (fun u => (u.statusWord, u.inLen, u.irqStat))) = some (0x000A0500, 0, 3) := by decide +kernel
-- V16: a misaligned read answers 0 with an error, ERR stays 0.
theorem test_bus_error : (nextOf (step (soon (.host (.read 0x002 .word)) State.reset))).map
    (fun t => (t.response, t.busFaults, t.err)) = some (some ⟨0, true⟩, [.busError 0x002], .none) := by decide +kernel
-- V17: FREQ[0x41] after BUILD is frozen: ERR = 2, STOP unchanged, IRQ_STAT[1] = 1.
theorem test_frozen_write : (nextOf (step (soon (.host (.write 0x504 .word 7)) built))).map
    (fun t => (t.err.code, symGet t.freq 0x41, t.irqStat, t.stop)) = some (2, 1, 2, .none) := by decide +kernel
-- R50: the code 1100 shows CODE_W0 = 0xC0000000, CODE_W1 = 0.
theorem test_code_view : codeWord [true, true, false, false] 0 = 0xC0000000 ∧ codeWord [true, true, false, false] 1 = 0 := by
  decide
-- R67: IBUF.w[0] = 0x41524241 is "ABRA".
theorem test_buffer_word : (nextOf (step (soon (.host (.write 0x4000 .word 0x41524241)) State.reset))).map (fun t => t.ibuf) =
    some [(0, 0x41), (1, 0x42), (2, 0x52), (3, 0x41)] := by decide +kernel
-- V27: NSYM and ROOT of "AB" read 2 at 0x034 and 2 at 0x038.
theorem test_read_tree : (nextOf (step (soon (.host (.read 0x034 .word)) built))).map (fun t => t.response) = some (some ⟨2, false⟩) ∧
    (nextOf (step (soon (.host (.read 0x038 .word)) built))).map (fun t => t.response) = some (some ⟨2, false⟩) := by
  decide +kernel
-- P5 lines 1-5: irq through DONE_IE and ERR_IE.
theorem test_irq : { State.reset with irqEn := 2, irqStat := 1 }.irq = false ∧ { State.reset with irqEn := 2, irqStat := 3 }.irq = true := by
  decide

/-! ### States that meet the invariants, beyond reset -/

/-- Inv of a built state at the start of a stream, from parts that evaluate. -/
theorem inv_of_parts {s : State} (hnode : s.node = buildArena s.freq)
    (hcodes : (s.codesValid = true ∧ codeTable s.node s.root s.nsym.toNat = .ok s.code) ∨
      (s.codesValid = false ∧ s.code = Vector.replicate 256 []))
    (h : s.treeValid = true ∧ s.encClosed = false ∧ s.accBits = 0 ∧ s.accN = 0 ∧ s.encCount = 0 ∧ s.encBits = 0 ∧
      s.decCount = 0 ∧ s.decNode = s.root ∧ s.obuf = [] ∧ freqSum s.freq = s.total.toNat ∧ s.root = buildRoot s.freq ∧
      s.nsym.toNat = symbolCount s.freq)
    (hbuf : s.ibuf.Pairwise (fun x y => x.1 < y.1) ∧ ∀ x ∈ s.ibuf, x.1 < s.cfg.ibufBytes) : Inv s := by
  obtain ⟨h1, h2, h3, h4, h5, h6, h7, h8, h9, h10, h11, h12⟩ := h
  refine ⟨⟨hbuf, by rw [h9]; exact Memory.nil_wf _⟩, ⟨fun _ => h1, fun e => by simp [h2] at e⟩, fun k _ => by simp [h3],
    by simp [countersBounded, h5, h6, h7], fun _ => h10, fun _ => ⟨hnode, h11, h12⟩, fun e => by simp [h1] at e,
    fun e => ?_, fun e => ?_, fun _ => .inl h8⟩
  · rcases hcodes with ⟨hc, -⟩ | ⟨-, hc⟩
    · simp [hc] at e
    · exact ⟨hc, h3, h4, h5, h6⟩
  · rcases hcodes with ⟨-, hc⟩ | ⟨hc, -⟩
    · exact hc
    · simp [hc] at e

theorem test_inv_built : Inv (loaded [0x40] built) :=
  inv_of_parts rfl (.inr ⟨rfl, rfl⟩) (by decide +kernel) (by decide +kernel)
theorem test_inv_coded : Inv (loaded [0x41, 0x42] coded) :=
  inv_of_parts rfl (.inl ⟨rfl, rfl⟩) (by decide +kernel) (by decide +kernel)

/-! ### The hypotheses of every obligation are met -/

theorem test_hyps_DecodeFollowsTheOpcodeTable :
    decode 0x00000109 = .ok (.decode true) ∧ ((0x00000109#32 : Word) &&& (opcodeRow (.decode true)).mask = (opcodeRow (.decode true)).value) ∧
    Instr.decode true = .decode true ∧ decode 0x00000008 = .ok .flush := by decide
theorem test_hyps_IllegalWordsAreInvalid :
    ((0x00000200#32).toNat / 2 ^ 9 ≠ 0) ∧
    ((0x00000108#32).toNat / 2 ^ 9 = 0 ∧ (0x00000108#32).toNat % 2 ^ 8 ≠ 9 ∧ 2 ^ 8 ≤ (0x00000108#32).toNat) ∧
    (0x0A ≤ (0x0000000A#32).toNat ∧ (0x000000FF#32).toNat < 2 ^ 8) := by decide
theorem test_hyps_StepRunsTheDecodedCommand :
    (issued 0x00000009 built).pending = some 0x00000009 ∧ decode 0x00000009 = .ok (.decode false) ∧
    (issued 0x00000009 built).timeline = [.engine] ∧ ({ built with pending := some 0x00000009 } : State).timeline = [] ∧
    (soon .engine built).pending = none ∧ (soon .engine built).timeline = [.engine] ∧ built.timeline = [] := by decide +kernel
theorem test_hyps_InvalidWordRaisesBadCmd :
    (issued 0x0000000A State.reset).timeline = [.engine] ∧ (issued 0x0000000A State.reset).pending = some 0x0000000A ∧
    decode 0x0000000A = .error .reservedOpcode ∧ (issued 0x0000000A State.reset).err = .none := by decide +kernel
theorem test_hyps_ErrorRefusesEveryWordButClear :
    (issued 0x00000101 { State.reset with err := .badCmd }).timeline = [.engine] ∧
    (issued 0x00000101 { State.reset with err := .badCmd }).pending = some 0x00000101 ∧
    (issued 0x00000101 { State.reset with err := .badCmd }).err ≠ .none ∧ (0x00000101#32 : Word) ≠ 0x00000001#32 := by decide +kernel
theorem test_hyps_OutOfPhaseCommandRaisesSeq :
    ∀ i : Instr, i ≠ .nop → i ≠ .clear → ∃ s : State, s.err = .none ∧
      (match i with
      | .nop => False
      | .clear => False
      | .count => s.treeValid = true
      | .hdrLoad => s.treeValid = true
      | .build => s.treeValid = true
      | .genCodes => s.treeValid = false ∨ s.codesValid = true
      | .hdrEmit => s.treeValid = false ∨ s.encCount ≠ 0 ∨ s.encClosed = true
      | .encode => s.codesValid = false ∨ s.encClosed = true
      | .flush => s.codesValid = false ∨ s.encClosed = true
      | .decode _ => s.treeValid = false) := by
  intro i h1 h2
  cases i with
  | nop => exact absurd rfl h1
  | clear => exact absurd rfl h2
  | count => exact ⟨built, rfl, rfl⟩
  | hdrLoad => exact ⟨built, rfl, rfl⟩
  | build => exact ⟨built, rfl, rfl⟩
  | genCodes => exact ⟨coded, rfl, .inr rfl⟩
  | hdrEmit => exact ⟨{ coded with encCount := 1 }, rfl, .inr (.inl (by decide))⟩
  | encode => exact ⟨{ coded with encClosed := true }, rfl, .inr rfl⟩
  | flush => exact ⟨built, rfl, .inl rfl⟩
  | decode last => exact ⟨State.reset, rfl, rfl⟩
theorem test_hyps_OutOfRangeCommandRaisesBounds :
    ∀ i : Instr, i ∉ [Instr.nop, .clear, .build, .genCodes] → ∃ s : State, s.err = .none ∧
      (match i with
      | .nop => False
      | .clear => False
      | .build => False
      | .genCodes => False
      | .count => s.treeValid = false ∧ (s.cfg.ibufBytes < s.inLen.toNat ∨ s.inLen.toNat < s.ipos.toNat)
      | .hdrLoad => s.treeValid = false ∧ (s.cfg.ibufBytes < s.inLen.toNat ∨ s.inLen.toNat < s.ipos.toNat)
      | .encode => s.codesValid = true ∧ s.encClosed = false ∧
          (s.cfg.ibufBytes < s.inLen.toNat ∨ s.inLen.toNat < s.ipos.toNat ∨ s.cfg.obufBytes < s.outLen.toNat)
      | .hdrEmit => s.treeValid = true ∧ s.encCount = 0 ∧ s.encClosed = false ∧ s.cfg.obufBytes < s.outLen.toNat
      | .flush => s.codesValid = true ∧ s.encClosed = false ∧ s.cfg.obufBytes < s.outLen.toNat
      | .decode _ => s.treeValid = true ∧
          (s.cfg.ibufBytes < s.inLen.toNat ∨ 8 * s.inLen.toNat < s.ibitpos.toNat ∨ s.cfg.obufBytes < s.outLen.toNat)) := by
  intro i h
  cases i with
  | nop => simp at h
  | clear => simp at h
  | build => simp at h
  | genCodes => simp at h
  | count => exact ⟨{ State.reset with inLen := 4097 }, rfl, rfl, .inl (by decide)⟩
  | hdrLoad => exact ⟨{ State.reset with inLen := 4, ipos := 5 }, rfl, rfl, .inr (by decide)⟩
  | encode => exact ⟨{ coded with outLen := 4097 }, rfl, rfl, rfl, .inr (.inr (by decide))⟩
  | hdrEmit => exact ⟨{ built with outLen := 4097 }, rfl, rfl, rfl, rfl, by decide⟩
  | flush => exact ⟨{ coded with outLen := 4097 }, rfl, rfl, rfl, by decide⟩
  | decode last => exact ⟨{ built with inLen := 4, ibitpos := 33 }, rfl, rfl, .inr (.inl (by decide))⟩
theorem test_hyps_CompletionEndsTheCommand :
    (issued 0x00000000 State.reset).timeline = [.engine] ∧ (issued 0x00000000 State.reset).pending = some 0x00000000 ∧
    ∃ t, step (issued 0x00000000 State.reset) = .next t ∧ t.stop = .done :=
  ⟨by decide +kernel, by decide +kernel, exists_next (by decide +kernel)⟩
theorem test_hyps_FirstErrorIsKept :
    (∃ t, step (issued 0x0000000A State.reset) = .next t ∧ t.err ≠ (issued 0x0000000A State.reset).err) ∧
    (∃ t, step (issued 0x00000001 { State.reset with err := .seq }) = .next t ∧ t.err ≠ .seq) ∧
    (∃ t, step (soon (.host (.write 0x010 .word 0)) { State.reset with err := .seq }) = .next t ∧ t.err ≠ .seq) ∧
    (∃ t, step (soon .reset { State.reset with err := .seq }) = .next t ∧ t.err ≠ .seq) :=
  ⟨exists_next (by decide +kernel), exists_next (by decide +kernel), exists_next (by decide +kernel), exists_next (by decide +kernel)⟩
theorem test_hyps_NopOnlyCompletes : coded.err = .none := by decide +kernel
theorem test_hyps_ResetInputGivesTheResetTable : (soon .reset coded).timeline = [.reset] := by decide +kernel

/-- A table with one count, near its end or not, for COUNT. -/
def nearFull : State := { State.reset with freq := symSet (Vector.replicate 256 0) 0x41 0xFFFFFFFE, total := 0xFFFFFFFE }

theorem counts_bounded {v : Word} {bs : List Byte} (h : v.toNat + bs.length < 2 ^ 32) (b : Byte) :
    (symGet (symSet (Vector.replicate 256 (0 : Word)) 0x41 v) b).toNat + bs.count b < 2 ^ 32 := by
  have hc := List.count_le_length (a := b) (l := bs)
  rw [symGet_symSet]
  split
  · omega
  · rw [symGet_replicate]; simp; omega

theorem test_hyps_CountAddsOccurrences :
    (loaded [0x41] nearFull).err = .none ∧ (loaded [0x41] nearFull).treeValid = false ∧
    (loaded [0x41] nearFull).inLen.toNat ≤ (loaded [0x41] nearFull).cfg.ibufBytes ∧
    (loaded [0x41] nearFull).ipos.toNat + [(0x41 : Byte)].length = (loaded [0x41] nearFull).inLen.toNat ∧
    ibufHolds (loaded [0x41] nearFull) (loaded [0x41] nearFull).ipos.toNat [0x41] ∧
    (loaded [0x41] nearFull).total.toNat + [(0x41 : Byte)].length < 2 ^ 32 ∧
    ∀ b, (symGet (loaded [0x41] nearFull).freq b).toNat + [(0x41 : Byte)].count b < 2 ^ 32 := by
  refine ⟨rfl, rfl, by decide +kernel, by decide +kernel, by unfold ibufHolds; decide +kernel, by decide +kernel, ?_⟩
  exact counts_bounded (v := 0xFFFFFFFE) (by decide)

theorem test_hyps_CountStopsBeforeOverflow :
    ((loaded [0x41, 0x41] nearFull).err = .none ∧ (loaded [0x41, 0x41] nearFull).treeValid = false) ∧
    (loaded [0x41, 0x41] nearFull).inLen.toNat ≤ (loaded [0x41, 0x41] nearFull).cfg.ibufBytes ∧
    (loaded [0x41, 0x41] nearFull).ipos.toNat + ([0x41] ++ (0x41 : Byte) :: []).length = (loaded [0x41, 0x41] nearFull).inLen.toNat ∧
    ibufHolds (loaded [0x41, 0x41] nearFull) (loaded [0x41, 0x41] nearFull).ipos.toNat ([0x41] ++ [0x41]) ∧
    (loaded [0x41, 0x41] nearFull).total.toNat + [(0x41 : Byte)].length < 2 ^ 32 ∧
    (∀ c, (symGet (loaded [0x41, 0x41] nearFull).freq c).toNat + [(0x41 : Byte)].count c < 2 ^ 32) ∧
    (symGet (loaded [0x41, 0x41] nearFull).freq 0x41).toNat + [(0x41 : Byte)].count 0x41 = 2 ^ 32 - 1 := by
  refine ⟨⟨rfl, rfl⟩, by decide +kernel, by decide +kernel, by unfold ibufHolds; decide +kernel, by decide +kernel, ?_, by decide +kernel⟩
  exact counts_bounded (v := 0xFFFFFFFE) (by decide)
theorem test_hyps_CountCompletesOnAnyBytes :
    ({ State.reset with inLen := 4096, ipos := 4096 } : State).err = .none ∧
    ({ State.reset with inLen := 4096, ipos := 4096 } : State).treeValid = false ∧
    ({ State.reset with inLen := 4096, ipos := 4096 } : State).inLen.toNat ≤ State.reset.cfg.ibufBytes ∧
    ({ State.reset with inLen := 4096, ipos := 4096 } : State).ipos.toNat ≤
      ({ State.reset with inLen := 4096, ipos := 4096 } : State).inLen.toNat := by decide +kernel
theorem test_hyps_BuildWritesTheTreeOfARightSum :
    (State.reset.err = .none ∧ State.reset.treeValid = false ∧ freqSum State.reset.freq = State.reset.total.toNat) ∧
    (nearFull.err = .none ∧ nearFull.treeValid = false ∧ freqSum nearFull.freq = nearFull.total.toNat) ∧
    (({ nearFull with total := 3 } : State).err = .none ∧ ({ nearFull with total := 3 } : State).treeValid = false ∧
      freqSum nearFull.freq ≠ ({ nearFull with total := 3 } : State).total.toNat) := by decide +kernel
theorem test_hyps_MinkeyIsTheLeastPair : ([1, 0] : List Nat) ≠ [] := by decide
theorem test_hyps_BuiltTreeHasTheLayout : 1 ≤ symbolCount tableA := by decide +kernel
theorem test_hyps_RootFrequencyIsTheTotal :
    1 ≤ symbolCount tableAB ∧ freqSum tableAB < 2 ^ 32 ∧ symbolCount tableAB ≤ 2 ∧ 2 < 2 * symbolCount tableAB - 1 ∧
    (nodeOf (buildArena tableAB) 2).left = BitVec.ofNat 9 0 ∧ (nodeOf (buildArena tableAB) 2).right = BitVec.ofNat 9 1 := by
  decide +kernel
theorem test_hyps_DegenerateTablesBuildTheirTrees :
    (State.reset.err = .none ∧ State.reset.treeValid = false ∧ (∀ b, symGet State.reset.freq b = 0) ∧ State.reset.total = 0) ∧
    (nearFull.err = .none ∧ nearFull.treeValid = false ∧ symGet nearFull.freq 0x41 = nearFull.total ∧ nearFull.total ≠ 0 ∧
      ∀ c, c ≠ 0x41 → symGet nearFull.freq c = 0) := by
  refine ⟨⟨rfl, rfl, fun b => symGet_replicate 0 b, rfl⟩, rfl, rfl, by decide +kernel, by decide, fun c hc => ?_⟩
  exact (symGet_symSet_other (Vector.replicate 256 0) 0xFFFFFFFE hc).trans (symGet_replicate 0 c)
theorem test_hyps_GenCodesWritesEveryPathCode :
    (built.err = .none ∧ built.treeValid = true ∧ built.codesValid = false ∧ treeFromTable built ∧
      symGet built.freq 0x43 = 0 ∧ 1 < built.nsym.toNat) ∧
    (single.err = .none ∧ single.treeValid = true ∧ single.codesValid = false ∧ treeFromTable single ∧
      single.nsym = 1 ∧ symGet single.freq 0x41 ≠ 0) :=
  ⟨⟨rfl, rfl, rfl, fun _ => ⟨rfl, by decide +kernel, by decide +kernel⟩, by decide +kernel, by decide +kernel⟩,
    rfl, rfl, rfl, fun _ => ⟨rfl, by decide +kernel, by decide +kernel⟩, rfl, by decide +kernel⟩
theorem test_hyps_PathCodeLeadsDownToItsLeaf : 2 ≤ symbolCount tableAB ∧ 1 < symbolCount tableAB := by decide +kernel
theorem codesAB_of_tableAB : codeTable (buildArena tableAB) (buildRoot tableAB) (symbolCount tableAB) = .ok codesAB := by
  rw [show buildRoot tableAB = 2 by decide +kernel, show symbolCount tableAB = 2 by decide +kernel]
  rfl
theorem test_hyps_CodesArePrefixFree :
    2 ≤ symbolCount tableAB ∧ codeTable (buildArena tableAB) (buildRoot tableAB) (symbolCount tableAB) = .ok codesAB ∧
    symGet tableAB 0x41 ≠ 0 ∧ symGet tableAB 0x42 ≠ 0 ∧ (0x41 : Byte) ≠ 0x42 :=
  ⟨by decide +kernel, codesAB_of_tableAB, by decide +kernel, by decide +kernel, by decide⟩
theorem test_hyps_CodeLengthsAreBounded :
    2 ≤ symbolCount tableAB ∧ codeTable (buildArena tableAB) (buildRoot tableAB) (symbolCount tableAB) = .ok codesAB :=
  ⟨by decide +kernel, codesAB_of_tableAB⟩
theorem test_hyps_HdrEmitAppendsTheHeaderOrNothing :
    ∀ n : BitVec 15, n = 3068 ∨ n = 3069 →
      ({ built with outLen := n } : State).err = .none ∧ ({ built with outLen := n } : State).treeValid = true ∧
      ({ built with outLen := n } : State).encCount = 0 ∧ ({ built with outLen := n } : State).encClosed = false ∧
      ({ built with outLen := n } : State).outLen.toNat ≤ ({ built with outLen := n } : State).cfg.obufBytes ∧
      (if n = 3068 then ({ built with outLen := n } : State).outLen.toNat + 1028 ≤ built.cfg.obufBytes
        else built.cfg.obufBytes < ({ built with outLen := n } : State).outLen.toNat + 1028) := by
  rintro n (rfl | rfl) <;> decide +kernel
/-- A header in IBUF, its length in IN_LEN. -/
def withHeader (f : Vector Word 256) (total : Word) : State :=
  { State.reset with ibuf := Memory.writeList [] 0 (headerBytes f total), inLen := 1028 }
theorem withHeader_holds (f : Vector Word 256) (total : Word) : ibufHolds (withHeader f total) 0 (headerBytes f total) :=
  fun _ h => Memory.read_writeList_at h
theorem test_hyps_HdrLoadReadsBackAValidHeader :
    (∀ total : Word, (withHeader tableA total).err = .none ∧ (withHeader tableA total).treeValid = false ∧
      (withHeader tableA total).inLen.toNat ≤ (withHeader tableA total).cfg.ibufBytes ∧
      (withHeader tableA total).ipos.toNat + 1028 ≤ (withHeader tableA total).inLen.toNat ∧
      ibufHolds (withHeader tableA total) (withHeader tableA total).ipos.toNat (headerBytes tableA total)) ∧
    freqSum tableA = (3#32).toNat ∧ freqSum tableA ≠ (4#32).toNat ∧
    (({ State.reset with inLen := 1027 } : State).err = .none ∧ ({ State.reset with inLen := 1027 } : State).treeValid = false ∧
      ({ State.reset with inLen := 1027 } : State).inLen.toNat ≤ State.reset.cfg.ibufBytes ∧
      State.reset.ipos.toNat ≤ ({ State.reset with inLen := 1027 } : State).inLen.toNat ∧
      ({ State.reset with inLen := 1027 } : State).inLen.toNat < State.reset.ipos.toNat + 1028) :=
  ⟨fun total => ⟨rfl, rfl, show 1028 ≤ 4096 by decide, show 0 + 1028 ≤ 1028 by decide, withHeader_holds tableA total⟩, by decide +kernel, by decide +kernel,
    by decide +kernel⟩
theorem test_hyps_HdrLoadCompletesOnAnyBytes :
    ({ State.reset with inLen := 4096, ipos := 3068 } : State).err = .none ∧
    ({ State.reset with inLen := 4096, ipos := 3068 } : State).treeValid = false ∧
    ({ State.reset with inLen := 4096, ipos := 3068 } : State).inLen.toNat ≤ State.reset.cfg.ibufBytes ∧
    ({ State.reset with inLen := 4096, ipos := 3068 } : State).ipos.toNat ≤
      ({ State.reset with inLen := 4096, ipos := 3068 } : State).inLen.toNat := by decide +kernel

/-- The hypotheses the ENCODE and FLUSH statements share. -/
abbrev EncodeReady (s : State) : Prop :=
  s.err = .none ∧ s.codesValid = true ∧ s.encClosed = false ∧ s.inLen.toNat ≤ s.cfg.ibufBytes ∧ s.outLen.toNat ≤ s.cfg.obufBytes

/-- The hypotheses the DECODE statements share. -/
abbrev DecodeReady (s : State) : Prop :=
  s.err = .none ∧ s.treeValid = true ∧ s.inLen.toNat ≤ s.cfg.ibufBytes ∧ s.ibitpos.toNat ≤ 8 * s.inLen.toNat ∧
    s.outLen.toNat ≤ s.cfg.obufBytes
theorem test_hyps_EncodePacksTheCodes :
    EncodeReady (loaded [0x41, 0x42] coded) ∧ accPadded (loaded [0x41, 0x42] coded) ∧
    (loaded [0x41, 0x42] coded).ipos.toNat + [(0x41 : Byte), 0x42].length = (loaded [0x41, 0x42] coded).inLen.toNat ∧
    ibufHolds (loaded [0x41, 0x42] coded) (loaded [0x41, 0x42] coded).ipos.toNat [0x41, 0x42] ∧
    (∀ b ∈ [(0x41 : Byte), 0x42], symGet (loaded [0x41, 0x42] coded).code b ≠ []) ∧
    (loaded [0x41, 0x42] coded).encCount.toNat + [(0x41 : Byte), 0x42].length ≤ (loaded [0x41, 0x42] coded).total.toNat ∧
    (loaded [0x41, 0x42] coded).encBits.toNat + (payloadBits (loaded [0x41, 0x42] coded).code [0x41, 0x42]).length < 2 ^ 64 ∧
    (loaded [0x41, 0x42] coded).outLen.toNat + (pendingBits (loaded [0x41, 0x42] coded) ++
      payloadBits (loaded [0x41, 0x42] coded).code [0x41, 0x42]).length / 8 ≤ (loaded [0x41, 0x42] coded).cfg.obufBytes := by
  unfold accPadded ibufHolds; decide +kernel
theorem test_hyps_EncodeStopsAtTheByteItCannotTake_first :
    (EncodeReady (loaded [0x43] coded) ∧ (loaded [0x43] coded).ipos.toNat < (loaded [0x43] coded).inLen.toNat ∧
      Memory.read (loaded [0x43] coded).ibuf (loaded [0x43] coded).ipos.toNat = some 0x43 ∧ symGet (loaded [0x43] coded).code 0x43 = []) ∧
    (∀ s : State, s = loaded [0x41] { coded with encCount := 2 } → EncodeReady s ∧ s.ipos.toNat < s.inLen.toNat ∧
      Memory.read s.ibuf s.ipos.toNat = some 0x41 ∧ symGet s.code 0x41 ≠ [] ∧ s.encCount = s.total) ∧
    (∀ s : State, s = loaded [0x41] { coded with outLen := 4096, accN := 7 } → EncodeReady s ∧ s.ipos.toNat < s.inLen.toNat ∧
      Memory.read s.ibuf s.ipos.toNat = some 0x41 ∧ symGet s.code 0x41 ≠ [] ∧ s.encCount ≠ s.total ∧
      s.cfg.obufBytes < s.outLen.toNat + (s.accN.toNat + (symGet s.code 0x41).length) / 8) := by
  refine ⟨by decide +kernel, ?_, ?_⟩ <;> rintro s rfl <;> decide +kernel
theorem test_hyps_EncodeStopsAtTheByteItCannotTake :
    (∀ s : State, s = loaded [0x41, 0x43] coded ∨ s = loaded [0x41, 0x42] { coded with encCount := 1 } ∨
        s = loaded [0x41, 0x42] { coded with accN := 6, outLen := 4096 } →
      EncodeReady s ∧ accPadded s ∧ s.ipos.toNat + [(0x41 : Byte), 0x42].length = s.inLen.toNat ∧
      (∀ x ∈ [(0x41 : Byte)], symGet s.code x ≠ []) ∧ s.encCount.toNat + [(0x41 : Byte)].length ≤ s.total.toNat ∧
      s.encBits.toNat + (payloadBits s.code [0x41]).length < 2 ^ 64 ∧
      s.outLen.toNat + (pendingBits s ++ payloadBits s.code [0x41]).length / 8 ≤ s.cfg.obufBytes) ∧
    (∀ s : State, s = loaded [0x41, 0x43] coded → ibufHolds s s.ipos.toNat ([0x41] ++ [0x43]) ∧ symGet s.code 0x43 = []) ∧
    (∀ s : State, s = loaded [0x41, 0x42] { coded with encCount := 1 } → ibufHolds s s.ipos.toNat ([0x41] ++ [0x42]) ∧
      symGet s.code 0x42 ≠ [] ∧ s.encCount.toNat + [(0x41 : Byte)].length = s.total.toNat) ∧
    (∀ s : State, s = loaded [0x41, 0x42] { coded with accN := 6, outLen := 4096 } →
      ibufHolds s s.ipos.toNat ([0x41] ++ [0x42]) ∧ symGet s.code 0x42 ≠ [] ∧
      s.encCount.toNat + [(0x41 : Byte)].length < s.total.toNat ∧
      s.cfg.obufBytes < s.outLen.toNat + (pendingBits s ++ payloadBits s.code ([0x41] ++ [0x42])).length / 8) := by
  unfold accPadded ibufHolds
  refine ⟨?_, ?_, ?_, ?_⟩
  · rintro s (rfl | rfl | rfl) <;> decide +kernel
  all_goals rintro s rfl; decide +kernel
theorem test_hyps_EncodeCompletesOnAnyBytes :
    Inv (loaded [0x41, 0x42] coded) ∧ EncodeReady (loaded [0x41, 0x42] coded) ∧
    (loaded [0x41, 0x42] coded).ipos.toNat ≤ (loaded [0x41, 0x42] coded).inLen.toNat := ⟨test_inv_coded, by decide +kernel⟩
theorem test_hyps_DrainedOutputTakesTheNextSymbol :
    Inv (loaded [0x41, 0x42] coded) ∧ EncodeReady (loaded [0x41, 0x42] coded) ∧ (loaded [0x41, 0x42] coded).outLen = 0 ∧
    (loaded [0x41, 0x42] coded).ipos.toNat < (loaded [0x41, 0x42] coded).inLen.toNat ∧
    Memory.read (loaded [0x41, 0x42] coded).ibuf (loaded [0x41, 0x42] coded).ipos.toNat = some 0x41 ∧
    symGet (loaded [0x41, 0x42] coded).code 0x41 ≠ [] ∧ (loaded [0x41, 0x42] coded).encCount ≠ (loaded [0x41, 0x42] coded).total :=
  ⟨test_inv_coded, by decide +kernel⟩
theorem test_hyps_FlushWritesThePaddedLastByte :
    (EncodeReady coded ∧ coded.encCount ≠ coded.total) ∧
    (∀ s : State, s = { coded with encCount := 2, accN := 1, outLen := 4096 } →
      EncodeReady s ∧ s.encCount = s.total ∧ s.accN ≠ 0 ∧ s.outLen.toNat = s.cfg.obufBytes) ∧
    (∀ s : State, s = { coded with encCount := 2, accN := 1, outLen := 4095 } →
      EncodeReady s ∧ s.encCount = s.total ∧ s.accN ≠ 0 ∧ s.outLen.toNat < s.cfg.obufBytes) ∧
    (∀ s : State, s = { coded with encCount := 2, outLen := 4096 } → EncodeReady s ∧ s.encCount = s.total ∧ s.accN = 0) := by
  refine ⟨by decide +kernel, ?_, ?_, ?_⟩ <;> rintro s rfl <;> decide +kernel
theorem test_hyps_DecodeEndsByTotalThenByLast :
    (DecodeReady { built with decCount := 2 } ∧ ({ built with decCount := 2 } : State).decCount = built.total) ∧
    (DecodeReady built ∧ built.decCount ≠ built.total ∧
      entryAt built.node built.decNode = some ⟨true, false, 0x100, 2, 0, 1, 0x1FF, false⟩ ∧
      built.ibitpos.toNat = 8 * built.inLen.toNat) := by decide +kernel
theorem test_hyps_SingleSymbolDecodeReadsNoBits :
    DecodeReady { single with outLen := 4094 } ∧
    entryAt single.node single.decNode = some ⟨true, true, 0x41, 3, 0x1FF, 0x1FF, 0x1FF, false⟩ ∧
    single.decCount.toNat ≤ single.total.toNat ∧
    2 = min (single.total.toNat - single.decCount.toNat)
      (single.cfg.obufBytes - ({ single with outLen := 4094 } : State).outLen.toNat) := by decide +kernel
/-- The table, the tree and the codes of "ABC" (R175: C = 0, A = 10, B = 11; node 3 is A and B's parent, ROOT = 4). -/
def tableABC : Vector Word 256 := symSet tableAB 0x43 1
def builtABC : State :=
  { State.reset with
    freq := tableABC
    total := 3
    treeValid := true
    node := buildArena tableABC
    root := 4
    nsym := 3
    decNode := 3 }
def codesABC : Vector (List Bool) 256 :=
  symSet (symSet (symSet (Vector.replicate 256 []) 0x41 [true, false]) 0x42 [true, true]) 0x43 [false]
/-- A DECODE resumed inside a code (DEC_NODE = 3 after the bit 1): the hypotheses of the three clauses share these. -/
theorem test_hyps_DecodeInvertsTheCodes :
    (∀ s : State, s = loaded [0x80] { builtABC with decCount := 2 } ∨ s = builtABC ∨
        s = loaded [0x00] { builtABC with outLen := 4096 } →
      DecodeReady s ∧ treeFromTable s ∧ 2 ≤ symbolCount s.freq ∧ codeTable s.node s.root s.nsym.toNat = .ok codesABC ∧
      descend s.node s.root [true] = some s.decNode ∧
      entryAt s.node s.decNode = some ⟨true, false, 0x100, 2, 0, 1, 4, true⟩) ∧
    (∀ s : State, s = loaded [0x80] { builtABC with decCount := 2 } →
      (∀ y ∈ [(0x42 : Byte)], symGet s.freq y ≠ 0) ∧ [true] ++ [true] = payloadBits codesABC [0x42] ++ [] ∧
      descend s.node s.root [] = some 4 ∧ ibufBitsHold s s.ibitpos.toNat [true] ∧
      s.ibitpos.toNat + [true].length ≤ 8 * s.inLen.toNat ∧ s.outLen.toNat + [(0x42 : Byte)].length ≤ s.cfg.obufBytes ∧
      s.decCount.toNat + [(0x42 : Byte)].length = s.total.toNat) ∧
    (∀ s : State, s = builtABC →
      [true] ++ [] = payloadBits codesABC [] ++ [true] ∧ descend s.node s.root [true] = some 3 ∧
      s.decCount.toNat + ([] : List Byte).length < s.total.toNat ∧ [true] <+: symGet codesABC 0x41 ∧
      [true] ≠ symGet codesABC 0x41 ∧ s.ibitpos.toNat + ([] : List Bool).length = 8 * s.inLen.toNat) ∧
    (∀ s : State, s = loaded [0x00] { builtABC with outLen := 4096 } →
      [true] ++ [] = payloadBits codesABC [] ++ [true] ∧ symGet codesABC 0x41 = [true] ++ [false] ∧
      s.decCount.toNat + ([] : List Byte).length < s.total.toNat ∧ ibufBitsHold s s.ibitpos.toNat ([] ++ [false]) ∧
      s.ibitpos.toNat + ([] : List Bool).length < 8 * s.inLen.toNat ∧
      s.outLen.toNat + ([] : List Byte).length = s.cfg.obufBytes) := by
  refine ⟨?_, ?_, ?_, ?_⟩
  · rintro s (rfl | rfl | rfl) <;>
    exact ⟨by decide +kernel, fun _ => ⟨rfl, by decide +kernel, by decide +kernel⟩, by decide +kernel, rfl, by decide +kernel,
      by decide +kernel⟩
  · rintro s rfl
    refine ⟨by decide +kernel, by decide +kernel, by decide +kernel, fun j h => ?_, by decide +kernel, by decide +kernel,
      by decide +kernel⟩
    have h2 : j < 1 := h
    interval_cases j
    exact ⟨0x80, rfl, rfl⟩
  · rintro s rfl
    decide +kernel
  · rintro s rfl
    refine ⟨by decide +kernel, by decide +kernel, by decide +kernel, fun j h => ?_, by decide +kernel, by decide +kernel⟩
    have h2 : j < 1 := h
    interval_cases j
    exact ⟨0x00, rfl, rfl⟩
theorem test_hyps_ShortPayloadIsTruncated :
    ∀ s : State, s = { loaded [0x00] built with ibitpos := 7 } → DecodeReady s ∧ treeFromTable s ∧ 2 ≤ symbolCount s.freq ∧
      codeTable s.node s.root s.nsym.toNat = .ok codesAB ∧ s.decNode = s.root ∧
      (∀ x ∈ [(0x41 : Byte), 0x42], symGet s.freq x ≠ 0) ∧ s.decCount.toNat + [(0x41 : Byte), 0x42].length = s.total.toNat ∧
      8 * s.inLen.toNat < s.ibitpos.toNat + (payloadBits codesAB [0x41, 0x42]).length ∧
      ibufBitsHold s s.ibitpos.toNat ((payloadBits codesAB [0x41, 0x42]).take (8 * s.inLen.toNat - s.ibitpos.toNat)) ∧
      s.outLen.toNat + [(0x41 : Byte), 0x42].length ≤ s.cfg.obufBytes := by
  rintro s rfl
  refine ⟨by decide +kernel, fun _ => ⟨rfl, by decide +kernel, by decide +kernel⟩, by decide +kernel, rfl, rfl, by decide +kernel,
    by decide +kernel, by decide +kernel, ?_, by decide +kernel⟩
  intro j h
  have h2 : j < 1 := h
  interval_cases j
  exact ⟨0x00, rfl, rfl⟩
theorem test_hyps_DecodeCompletesOnAnyBits : Inv (loaded [0x40] built) ∧ DecodeReady (loaded [0x40] built) :=
  ⟨test_inv_built, by decide +kernel⟩
theorem test_hyps_PayloadDecodesToItsInput :
    (∀ s : State, s = loaded [0x40] built → DecodeReady s ∧ treeFromTable s ∧
      codeTable s.node s.root s.nsym.toNat = .ok codesAB ∧ tableCounts s.freq [0x41, 0x42] ∧
      payload codesAB [0x41, 0x42] = [0x40] ∧ s.total.toNat = [(0x41 : Byte), 0x42].length ∧ s.decCount = 0 ∧ s.decNode = s.root ∧
      s.ibitpos.toNat = 8 * 0 ∧ s.inLen.toNat = 0 + (payload codesAB [0x41, 0x42]).length ∧
      ibufHolds s 0 (payload codesAB [0x41, 0x42]) ∧ s.outLen.toNat + [(0x41 : Byte), 0x42].length ≤ s.cfg.obufBytes) ∧
    (∀ s : State, s = { State.reset with treeValid := true, node := buildArena State.reset.freq } → DecodeReady s ∧
      treeFromTable s ∧ codeTable s.node s.root s.nsym.toNat = .ok (Vector.replicate 256 []) ∧ tableCounts s.freq [] ∧
      s.total.toNat = 0 ∧ s.inLen.toNat = 0 + (payload (Vector.replicate 256 []) []).length) := by
  constructor
  · rintro s rfl
    refine ⟨by decide +kernel, fun _ => ⟨rfl, by decide +kernel, by decide +kernel⟩, rfl, fun b => ?_, by decide +kernel,
      by decide +kernel, rfl, rfl, by decide +kernel, by decide +kernel, by unfold ibufHolds; decide +kernel, by decide +kernel⟩
    show (symGet tableAB b).toNat = List.count b [0x41, 0x42]
    rw [tableAB, symGet_symSet, symGet_symSet, symGet_replicate]
    by_cases h1 : b = 0x42
    · subst h1; decide
    · by_cases h2 : b = 0x41
      · subst h2; decide
      · rw [if_neg h1, if_neg h2, List.count_eq_zero_of_not_mem (by simp only [List.mem_cons, List.not_mem_nil, or_false]; tauto)]; rfl
  · rintro s rfl
    refine ⟨by decide +kernel, fun _ => ⟨rfl, by decide +kernel, by decide +kernel⟩, rfl, fun b => ?_, rfl, by decide +kernel⟩
    show (symGet (Vector.replicate 256 (0 : Word)) b).toNat = List.count b []
    rw [symGet_replicate]; rfl
theorem test_hyps_EveryMappedWordIsReached :
    4 * 1023 < Config.default.ibufBytes ∧ 4 * 1023 < Config.default.obufBytes ∧
    reach Config.default 0x4FFC .word = some (.ibuf 4092) ∧ reach Config.default 0x8FFC .word = some (.obuf 4092) := by
  decide +kernel
theorem test_hyps_BusErrorHasNoEffect :
    (soon (.host (.write 0x020 .byte 5)) State.reset).timeline = [.host (.write 0x020 .byte 5)] ∧ Width.byte ≠ .word ∧
    (0x002#16).toNat % 4 ≠ 0 ∧ (0x8C ≤ (0x08C#16).toNat ∧ (0x3FC#16).toNat < 0x400) ∧
    (0x800 ≤ (0x800#16).toNat ∧ (0x3FFC#16).toNat < 0x4000) ∧
    (0x4000 + State.reset.cfg.ibufBytes ≤ (0x5000#16).toNat ∧ (0x7FFC#16).toNat < 0x8000) ∧
    (0x8000 + State.reset.cfg.obufBytes ≤ (0x9000#16).toNat ∧ (0xBFFC#16).toNat < 0xC000) ∧ 0xC000 ≤ (0xC000#16).toNat := by
  decide +kernel
theorem test_hyps_BusyDropsWrites :
    (soon (.host (.write 0x008 .word 1)) (issued 2 State.reset)).timeline = .host (.write 0x008 .word 1) :: [] ∧
    (soon (.host (.write 0x008 .word 1)) (issued 2 State.reset)).busy = true ∧ reach State.reset.cfg 0x008 .word = some (.reg .cmd) ∧
    reach State.reset.cfg 0x7FC .word = some (.freq 0xFF) ∧ reach State.reset.cfg 0x4000 .word = some (.ibuf 0) ∧
    reach State.reset.cfg 0x8000 .word = some (.obuf 0) ∧ reach State.reset.cfg 0x088 .word = some (.reg (.codeW 7)) ∧
    Reg.codeW 7 ∉ [Reg.cmd, .inLen, .ipos, .ibitpos, .outLen, .total, .nodeSel, .codeSel, .irqEn, .irqStat, .errClr] := by
  decide +kernel
theorem test_hyps_InterruptWritesWorkWhileBusy (a : Offset) (v : Word) :
    (soon (.host (.write a .word v)) (issued 2 State.reset)).timeline = .host (.write a .word v) :: [] ∧
    (soon (.host (.write a .word v)) (issued 2 State.reset)).busy = true := ⟨rfl, rfl⟩
theorem test_hyps_IdleWritesStoreTheirFields (a : Offset) (v : Word) :
    (soon (.host (.write a .word v)) State.reset).pending = none ∧
    (soon (.host (.write a .word v)) State.reset).timeline = .host (.write a .word v) :: [] := ⟨rfl, rfl⟩
theorem test_hyps_FrozenTableRejectsWrites :
    ∀ s : State, s = built ∨ s = State.reset → s.pending = none ∧
      (soon (.host (.write 0x7FC .word 7)) s).timeline = .host (.write (BitVec.ofNat 16 (0x400 + 4 * (0xFF#8).toNat)) .word 7) :: [] ∧
      (soon (.host (.write 0x030 .word 7)) s).timeline = .host (.write 0x030 .word 7) :: [] ∧
      (s = built → s.treeValid = true) ∧ (s = State.reset → s.treeValid = false) := by
  rintro s (rfl | rfl)
  · exact ⟨rfl, rfl, rfl, fun _ => rfl, fun h => absurd (congrArg State.treeValid h) (by decide)⟩
  · exact ⟨rfl, rfl, rfl, fun h => absurd (congrArg State.treeValid h) (by decide), fun _ => rfl⟩
theorem test_hyps_BufferWordsAreLittleEndian (a : Offset) (v : Word) :
    4 * 1023 < State.reset.cfg.ibufBytes ∧ 4 * 1023 < State.reset.cfg.obufBytes ∧
    ({ State.reset with timeline := [.host (.write a .word v), .host (.read a .word)] } : State).pending = none ∧
    ({ State.reset with timeline := [.host (.write a .word v), .host (.read a .word)] } : State).timeline =
      [.host (.write a .word v), .host (.read a .word)] := ⟨by decide, by decide, rfl, rfl⟩
theorem test_hyps_ReadsHaveNoSideEffect :
    ∃ t, step (soon (.host (.read 0x4000 .word)) State.reset) = .next t ∧ t.draws = 4 := exists_next (by decide +kernel)
theorem test_hyps_StatusShowsItsFields :
    (∃ t, step (soon (.host (.read 0x00C .word)) built) = .next t ∧ t.response = some ⟨0x00000002, false⟩) ∧
    (∃ t, step (soon (.host (.read 0x00C .word)) { built with pending := some 0 }) = .next t ∧ t.draws = 1) :=
  ⟨exists_next (by decide +kernel), exists_next (by decide +kernel)⟩
theorem test_hyps_ViewsShowTheState :
    ({ built with nodeSel := 510 } : State).pending = none ∧
    entryAt built.node ({ built with nodeSel := 510 } : State).nodeSel = some Entry.cleared ∧
    entryAt built.node ({ built with nodeSel := 2 } : State).nodeSel = some ⟨true, false, 0x100, 2, 0, 1, 0x1FF, false⟩ ∧
    ({ built with nodeSel := 0x1FF } : State).nodeSel = 0x1FF ∧ entryAt built.node 0x1FF = none := by decide +kernel
theorem test_hyps_ReadsAnswerTheirValues :
    coded.pending = none ∧ (symGet coded.code coded.codeSel).length ≤ 255 ∧
    (symGet (symSet coded.code 0 (List.replicate 255 true)) coded.codeSel).length ≤ 255 := by decide +kernel
theorem test_hyps_PhaseFlagsMoveOnlyAsListed :
    (∃ t, step (issued 4 built) = .next t ∧ t.codesValid = true) ∧ (∃ t, step (issued 1 built) = .next t ∧ t.treeValid = false) ∧
    (∃ t, step (issued 3 State.reset) = .next t ∧ t.treeValid = true) ∧
    (∃ t, step (issued 8 { coded with encCount := 2 }) = .next t ∧ t.encClosed = true) ∧
    (∃ t, step (soon .reset built) = .next t ∧ t.treeValid = false) :=
  ⟨exists_next (by decide +kernel), exists_next (by decide +kernel), exists_next (by decide +kernel),
    exists_next (by decide +kernel), exists_next (by decide +kernel)⟩
theorem test_hyps_BuiltTableIsNeverMutated :
    built.treeValid = true ∧ ∃ t, step (issued 2 built) = .next t ∧ t.treeValid = true :=
  ⟨rfl, exists_next (by decide +kernel)⟩
theorem test_hyps_CommandsLeaveTheHostsStateAlone :
    Instr.count ≠ .clear ∧ ∃ t, exec .count State.reset = .next t ∧ t.stop = .done := ⟨by decide, exists_next (by decide +kernel)⟩
theorem test_hyps_OutputStaysInRange :
    Instr.flush ∈ [Instr.hdrEmit, .encode, .flush, .decode false, .decode true] ∧
    ∃ t, exec .flush { coded with encCount := 2, accN := 2, outLen := 4095 } = .next t ∧
      t.err ≠ .seq ∧ t.err ≠ .bounds ∧ t.outLen = 4096 := ⟨by decide, exists_next (by decide +kernel)⟩
theorem test_hyps_StepKeepsBuffersCanonical :
    buffersCanonical (soon (.host (.write 0x4FFC .word 0x04030201)) State.reset) ∧
    ∃ t, step (soon (.host (.write 0x4FFC .word 0x04030201)) State.reset) = .next t ∧ t.ibuf.length = 4 :=
  ⟨⟨Memory.nil_wf _, Memory.nil_wf _⟩, exists_next (by decide +kernel)⟩
theorem test_hyps_StepKeepsTheInvariants :
    Inv (loaded [0x41, 0x42] coded) ∧ ∃ t, step (loaded [0x41, 0x42] coded) = .next t ∧ t.codesValid = true :=
  ⟨test_inv_coded, exists_next (by decide +kernel)⟩
theorem test_hyps_NoStepStopsTheMachine : Inv (loaded [0x40] built) := test_inv_built

/-! ### Host programs (R95) -/

/-- Where a program's run from reset stands: its line and `$STATUS`. -/
def lineOf (prog : List Stmt) (turns : List Bool) (n : Nat) : Option (Nat × Option Word) :=
  match runProgram prog turns n State.reset with
  | .next h => some (h.pc, h.names.get (.reg .status))
  | .fault _ => none
  | .refused _ => none

/-- `rd STATUS` names the value that `jstop` tests (R95); NOP's STATUS is V2's 0x00000100. -/
theorem test_jstop_after_rd :
    lineOf [.cmd .nop, .rd (.reg .status), .jstop .done "L", .jmp "M", .label "L"] [] 4 = some (5, some 0x00000100) := by
  decide +kernel

/-- `wait` stays at its line while BUSY = 1, and goes on at the poll after the engine's turn (R95, R262; V2). -/
theorem test_wait_polls :
    (∃ h', (⟨1, [], [], true, false, [false], issued 0 State.reset⟩ : HostRun).poll = .next h' ∧ h'.pc = 1) ∧
      lineOf [.cmd .nop, .wait] [true, true] 2 = some (2, some 0x00000100) :=
  ⟨HostRun.poll_without_turn rfl, by decide +kernel⟩

/-- A `jstop` before any read of STATUS is stuck (log 26). -/
theorem test_jstop_unnamed : lineOf [.jstop .none "L", .label "L"] [] 5 = some (0, none) := by decide +kernel

end Sys2Proof.Tests
end

/-! The tree that BUILD makes (spec/42_tree_build.md R150-R153): its leaf list, what one merge leaves, and the layout of the
arena. -/

namespace Sys2Proof.Machine

/-! ### The leaf list (R150) -/

/-- Every leaf is that of a symbol with a non-zero count. -/
theorem mem_leavesFrom {s : Nat} {fs : List Word} {e : Entry} (h : e ∈ leavesFrom s fs) :
    ∃ k, ∃ hk : k < fs.length, fs[k] ≠ 0 ∧ e = leafEntry (s + k) fs[k] := by
  induction fs generalizing s with
  | nil => simp [leavesFrom] at h
  | cons f fs ih =>
    have tail (h : e ∈ leavesFrom (s + 1) fs) :
        ∃ k, ∃ hk : k < (f :: fs).length, (f :: fs)[k] ≠ 0 ∧ e = leafEntry (s + k) (f :: fs)[k] := by
      obtain ⟨k, hk, h0, rfl⟩ := ih h
      exact ⟨k + 1, by simpa using hk, by simpa using h0, by rw [Nat.add_right_comm]; rfl⟩
    unfold leavesFrom at h
    split at h
    · exact tail h
    · rename_i h0
      rcases List.mem_cons.mp h with rfl | h
      · exact ⟨0, by simp, h0, rfl⟩
      · exact tail h

theorem leavesFrom_length_le (s : Nat) (fs : List Word) : (leavesFrom s fs).length ≤ fs.length := by
  induction fs generalizing s with
  | nil => rfl
  | cons f fs ih =>
    have := ih (s + 1)
    unfold leavesFrom
    split <;> simp only [List.length_cons] <;> omega

theorem leavesFrom_ascending {s : Nat} {fs : List Word} (h : s + fs.length ≤ 512) :
    (leavesFrom s fs).Pairwise (fun d e => d.sym.toNat < e.sym.toNat) := by
  induction fs generalizing s with
  | nil => exact List.Pairwise.nil
  | cons f fs ih =>
    simp only [List.length_cons] at h
    unfold leavesFrom
    split
    · exact ih (by omega)
    · refine List.pairwise_cons.mpr ⟨fun e he => ?_, ih (by omega)⟩
      obtain ⟨k, hk, -, rfl⟩ := mem_leavesFrom he
      simp only [leafEntry, BitVec.toNat_ofNat]
      omega

/-- A table without leaves counts nothing. -/
theorem eq_zero_of_leavesFrom_nil {s : Nat} {fs : List Word} (h : leavesFrom s fs = []) : ∀ f ∈ fs, f = 0 := by
  induction fs generalizing s with
  | nil => simp
  | cons f fs ih =>
    unfold leavesFrom at h
    split at h
    · rename_i h0
      exact List.forall_mem_cons.mpr ⟨h0, ih h⟩
    · simp at h

theorem mem_leaves {t : Vector Word 256} {e : Entry} (h : e ∈ leaves t) :
    ∃ b : Byte, symGet t b ≠ 0 ∧ e = leafEntry b.toNat (symGet t b) := by
  obtain ⟨k, hk, h0, rfl⟩ := mem_leavesFrom h
  have hk : k < 256 := by simpa using hk
  have hb : (BitVec.ofNat 8 k).toNat = k := by simpa using hk
  exact ⟨BitVec.ofNat 8 k, by simpa [symGet, hb] using h0, by simp [symGet, hb]⟩

theorem symbolCount_le (t : Vector Word 256) : symbolCount t ≤ 256 := by
  simpa [symbolCount, leaves] using leavesFrom_length_le 0 t.toList

/-- The empty tree is that of a table whose sum is 0 (R155). -/
theorem freqSum_of_symbolCount_zero {t : Vector Word 256} (h : symbolCount t = 0) : freqSum t = 0 := by
  have h0 := eq_zero_of_leavesFrom_nil (List.length_eq_zero_iff.mp h)
  simp only [freqSum, List.sum_eq_zero_iff, List.mem_map]
  rintro x ⟨f, hf, rfl⟩
  simp [h0 f hf]

/-! ### The least pair (R151) -/

theorem minkey_eq_none {ns : List Entry} {q : List Nat} : minkey ns q = none ↔ q = [] := by
  cases q with
  | nil => simp [minkey]
  | cons i q =>
    unfold minkey
    split
    · simp
    · split <;> simp

theorem minkey_mem {ns : List Entry} {q : List Nat} {i : Nat} (h : minkey ns q = some i) : i ∈ q := by
  induction q generalizing i with
  | nil => simp [minkey] at h
  | cons k q ih =>
    unfold minkey at h
    split at h
    · simp_all
    · rename_i j hj
      split at h
      · simp_all
      · exact List.mem_cons_of_mem _ (ih (hj.trans h))

/-! ### One merge (R152) -/

/-- Node i of the nodes made so far, cleared past their end. -/
def madeNode (ns : List Entry) (i : Nat) : Entry := ns.getD i Entry.cleared

theorem internalEntry_eq (ns : List Entry) (a b : Nat) :
    internalEntry ns a b = ⟨true, false, internalMark, (madeNode ns a).f + (madeNode ns b).f,
      BitVec.ofNat 9 a, BitVec.ofNat 9 b, Index.none, false⟩ := rfl

/-- The nodes once a and b have become the children of a new node. -/
def joined (ns : List Entry) (a b : Nat) : List Entry :=
  linkUp (linkUp ns a ns.length false) b ns.length true ++ [internalEntry ns a b]

theorem linkUp_length (ns : List Entry) (a p : Nat) (side : Bool) : (linkUp ns a p side).length = ns.length := by
  simp [linkUp]

theorem madeNode_linkUp_same {ns : List Entry} {a : Nat} (p : Nat) (side : Bool) (h : a < ns.length) :
    madeNode (linkUp ns a p side) a = { madeNode ns a with parent := BitVec.ofNat 9 p, side := side } := by
  simp [madeNode, linkUp, h]

theorem madeNode_linkUp_other (ns : List Entry) {a i : Nat} (p : Nat) (side : Bool) (h : i ≠ a) :
    madeNode (linkUp ns a p side) i = madeNode ns i := by
  simp [madeNode, linkUp, h.symm]

@[simp] theorem joined_length (ns : List Entry) (a b : Nat) : (joined ns a b).length = ns.length + 1 := by
  simp [joined, linkUp_length]

@[simp] theorem madeNode_joined_new (ns : List Entry) (a b : Nat) :
    madeNode (joined ns a b) ns.length = internalEntry ns a b := by
  simp [madeNode, joined, linkUp_length]

/-- Below the new node a merge is its two links. -/
theorem madeNode_joined_old {ns : List Entry} (a b : Nat) {i : Nat} (h : i < ns.length) :
    madeNode (joined ns a b) i = madeNode (linkUp (linkUp ns a ns.length false) b ns.length true) i := by
  simp [madeNode, joined, linkUp_length, List.getElem?_append_left, h]

theorem madeNode_joined_left {ns : List Entry} {a b : Nat} (ha : a < ns.length) (hab : a ≠ b) :
    madeNode (joined ns a b) a = { madeNode ns a with parent := BitVec.ofNat 9 ns.length, side := false } := by
  rw [madeNode_joined_old a b ha, madeNode_linkUp_other _ _ _ hab, madeNode_linkUp_same _ _ ha]

theorem madeNode_joined_right {ns : List Entry} {a b : Nat} (hb : b < ns.length) (hab : a ≠ b) :
    madeNode (joined ns a b) b = { madeNode ns b with parent := BitVec.ofNat 9 ns.length, side := true } := by
  rw [madeNode_joined_old a b hb, madeNode_linkUp_same _ _ (by rwa [linkUp_length]), madeNode_linkUp_other _ _ _ hab.symm]

theorem madeNode_joined_other {ns : List Entry} {a b i : Nat} (hi : i < ns.length) (ha : i ≠ a) (hb : i ≠ b) :
    madeNode (joined ns a b) i = madeNode ns i := by
  rw [madeNode_joined_old a b hi, madeNode_linkUp_other _ _ _ hb, madeNode_linkUp_other _ _ _ ha]

/-- A merge changes an old node in its parent and side alone. -/
theorem madeNode_joined_frame {ns : List Entry} {a b i : Nat} (hi : i < ns.length) (hab : a ≠ b) :
    ∃ p d, madeNode (joined ns a b) i = { madeNode ns i with parent := p, side := d } := by
  by_cases ha : i = a
  · subst ha; exact ⟨_, _, madeNode_joined_left hi hab⟩
  · by_cases hb : i = b
    · subst hb; exact ⟨_, _, madeNode_joined_right hi hab⟩
    · exact ⟨_, _, madeNode_joined_other hi ha hb⟩

/-- A pass over a queue of two or more joins two of its nodes. -/
theorem mergeOnce_joins (ns : List Entry) {q : List Nat} (h : 1 < q.length) :
    ∃ a b, a ∈ q ∧ b ∈ q.erase a ∧ mergeOnce ns q = some (joined ns a b, (q.erase a).erase b ++ [ns.length]) := by
  cases ha : minkey ns q with
  | none => simp [minkey_eq_none.mp ha] at h
  | some a =>
    have haq := minkey_mem ha
    have hlen := List.length_erase_of_mem haq
    cases hb : minkey ns (q.erase a) with
    | none => rw [minkey_eq_none.mp hb, List.length_nil] at hlen; omega
    | some b => exact ⟨a, b, haq, minkey_mem hb, by simp [mergeOnce, ha, hb, joined]⟩

/-- Still queued after a merge are the others and the new node. -/
theorem mem_erase_erase_append {q : List Nat} (hq : q.Nodup) (a b n : Nat) {x : Nat} :
    x ∈ (q.erase a).erase b ++ [n] ↔ (x ≠ b ∧ x ≠ a ∧ x ∈ q) ∨ x = n := by
  rw [List.mem_append, (hq.erase a).mem_erase_iff, hq.mem_erase_iff, List.mem_singleton]

theorem length_erase_erase_append {q : List Nat} {a b : Nat} (n : Nat) (ha : a ∈ q) (hb : b ∈ q.erase a) :
    ((q.erase a).erase b ++ [n]).length + 1 = q.length := by
  have h1 := List.length_erase_of_mem ha
  have h2 := List.length_erase_of_mem hb
  have h3 := List.length_pos_of_mem hb
  simp only [List.length_append, List.length_singleton]
  omega

/-! ### What the merge loop keeps (R152, R153) -/

/-- Node i is the internal node over l and r, which point back to it. -/
structure Joins (ns : List Entry) (i l r : Nat) : Prop where
  inUse : (madeNode ns i).inUse = true
  isLeaf : (madeNode ns i).isLeaf = false
  sym : (madeNode ns i).sym = internalMark
  f : (madeNode ns i).f = (madeNode ns l).f + (madeNode ns r).f
  left : (madeNode ns i).left = BitVec.ofNat 9 l
  right : (madeNode ns i).right = BitVec.ofNat 9 r
  left_lt : l < i
  right_lt : r < i
  ne : l ≠ r
  leftUp : (madeNode ns l).parent = BitVec.ofNat 9 i ∧ (madeNode ns l).side = false
  rightUp : (madeNode ns r).parent = BitVec.ofNat 9 i ∧ (madeNode ns r).side = true

/-- Node x is a child of the later, internal node p. -/
structure HasParent (n : Nat) (ns : List Entry) (x p : Nat) : Prop where
  lt : x < p
  internal : n ≤ p
  made : p < ns.length
  parent : (madeNode ns x).parent = BitVec.ofNat 9 p
  child : childOf (madeNode ns p) (madeNode ns x).side = BitVec.ofNat 9 x

/-- Where the merge of the leaf list ls stands: the nodes made and the queue of those without a parent yet. -/
structure Merging (ls ns : List Entry) (q : List Nat) : Prop where
  count : q.length + ns.length = 2 * ls.length
  nodup : q.Nodup
  made : ∀ x ∈ q, x < ns.length
  leaves_le : ls.length ≤ ns.length
  leaf : ∀ i, i < ls.length → ∃ p d, madeNode ns i = { madeNode ls i with parent := p, side := d }
  internal : ∀ i, ls.length ≤ i → i < ns.length → ∃ l r, l ∉ q ∧ r ∉ q ∧ Joins ns i l r
  queued : ∀ x ∈ q, (madeNode ns x).parent = Index.none ∧ (madeNode ns x).side = false
  merged : ∀ x, x < ns.length → x ∉ q → ∃ p, HasParent ls.length ns x p

/-- A merge of two queued nodes leaves an older internal node's joint as it was. -/
theorem Joins.joined {ns : List Entry} {q : List Nat} {a b i l r : Nat} (h : Joins ns i l r) (hi : i < ns.length)
    (ha : a ∈ q) (hb : b ∈ q) (hab : a ≠ b) (hl : l ∉ q) (hr : r ∉ q) : Joins (joined ns a b) i l r := by
  have hlt := h.left_lt
  have hrt := h.right_lt
  have el : madeNode (Machine.joined ns a b) l = madeNode ns l :=
    madeNode_joined_other (by omega) (fun e => hl (e ▸ ha)) (fun e => hl (e ▸ hb))
  have er : madeNode (Machine.joined ns a b) r = madeNode ns r :=
    madeNode_joined_other (by omega) (fun e => hr (e ▸ ha)) (fun e => hr (e ▸ hb))
  obtain ⟨p, d, ei⟩ := madeNode_joined_frame (ns := ns) (a := a) (b := b) hi hab
  constructor <;> simp only [ei, el, er, h.inUse, h.isLeaf, h.sym, h.f, h.left, h.right, h.left_lt, h.right_lt, h.ne, h.leftUp,
    h.rightUp, ne_eq, not_false_eq_true, and_self]

/-- The new node joins the two that the merge took. -/
theorem joins_new {ns : List Entry} {a b : Nat} (ha : a < ns.length) (hb : b < ns.length) (hab : a ≠ b) :
    Joins (joined ns a b) ns.length a b := by
  constructor <;> simp only [madeNode_joined_new, madeNode_joined_left ha hab, madeNode_joined_right hb hab,
    internalEntry_eq, ha, hb, hab, ne_eq, not_false_eq_true, and_self]

/-- What has a parent keeps it through a merge of two queued nodes. -/
theorem HasParent.joined {n : Nat} {ns : List Entry} {a b x p : Nat} (h : HasParent n ns x p) (ha : x ≠ a) (hb : x ≠ b)
    (hab : a ≠ b) : HasParent n (joined ns a b) x p := by
  have hx : madeNode (Machine.joined ns a b) x = madeNode ns x := madeNode_joined_other (h.lt.trans h.made) ha hb
  obtain ⟨_, _, hp⟩ := madeNode_joined_frame (a := a) (b := b) h.made hab
  exact ⟨h.lt, h.internal, by simpa using h.made.trans (Nat.lt_succ_self _), by rw [hx, h.parent],
    by rw [hx, hp]; exact h.child⟩

theorem hasParent_new_left {n : Nat} {ns : List Entry} {a b : Nat} (hn : n ≤ ns.length) (ha : a < ns.length)
    (hab : a ≠ b) :
    HasParent n (joined ns a b) a ns.length :=
  ⟨ha, hn, by simp, by rw [madeNode_joined_left ha hab], by rw [madeNode_joined_left ha hab, madeNode_joined_new]; rfl⟩

theorem hasParent_new_right {n : Nat} {ns : List Entry} {a b : Nat} (hn : n ≤ ns.length) (hb : b < ns.length)
    (hab : a ≠ b) :
    HasParent n (joined ns a b) b ns.length :=
  ⟨hb, hn, by simp, by rw [madeNode_joined_right hb hab], by rw [madeNode_joined_right hb hab, madeNode_joined_new]; rfl⟩

theorem merging_start {ls : List Entry} (h : ∀ e ∈ ls, e.parent = Index.none ∧ e.side = false) :
    Merging ls ls (List.range ls.length) where
  count := by simp; omega
  nodup := List.nodup_range
  made := by simp
  leaves_le := le_rfl
  leaf := fun i _ => ⟨_, _, rfl⟩
  internal := fun i h1 h2 => by omega
  queued := fun x hx => by
    have hx : x < ls.length := List.mem_range.mp hx
    simpa [madeNode, hx] using h _ (List.getElem_mem hx)
  merged := fun x h1 h2 => absurd (List.mem_range.mpr h1) h2

/-- One merge keeps where the loop stands. -/
theorem Merging.joined {ls ns : List Entry} {q : List Nat} {a b : Nat} (h : Merging ls ns q) (ha : a ∈ q)
    (hb : b ∈ q.erase a) : Merging ls (joined ns a b) ((q.erase a).erase b ++ [ns.length]) := by
  obtain ⟨hba, hbq⟩ := h.nodup.mem_erase_iff.mp hb
  have hab : a ≠ b := hba.symm
  have han := h.made a ha
  have hbn := h.made b hbq
  have mem {x : Nat} := mem_erase_erase_append h.nodup a b ns.length (x := x)
  have notMem {x : Nat} (hx : x < ns.length) (hq : x = a ∨ x = b ∨ x ∉ q) : x ∉ (q.erase a).erase b ++ [ns.length] := by
    rw [mem]
    rintro (⟨hxb, hxa, hxq⟩ | rfl)
    · rcases hq with hq | hq | hq <;> contradiction
    · exact lt_irrefl _ hx
  refine ⟨?count, ?nodup, ?made, ?leaves_le, ?leaf, ?internal, ?queued, ?merged⟩
  case count =>
    have h1 := h.count
    have h2 := length_erase_erase_append ns.length ha hb
    rw [joined_length]
    omega
  case nodup =>
    refine List.nodup_append.mpr ⟨(h.nodup.erase a).erase b, List.nodup_singleton _, fun x hx y hy => ?_⟩
    rw [List.mem_singleton.mp hy]
    exact (h.made x (List.mem_of_mem_erase (List.mem_of_mem_erase hx))).ne
  case made =>
    intro x hx
    rw [joined_length]
    rcases mem.mp hx with ⟨-, -, hx⟩ | rfl
    · exact (h.made x hx).trans (Nat.lt_succ_self _)
    · exact Nat.lt_succ_self _
  case leaves_le => rw [joined_length]; exact h.leaves_le.trans (Nat.le_succ _)
  case leaf =>
    intro i hi
    obtain ⟨p, d, e⟩ := h.leaf i hi
    obtain ⟨p', d', e'⟩ := madeNode_joined_frame (a := a) (b := b) (hi.trans_le h.leaves_le) hab
    exact ⟨p', d', by rw [e', e]⟩
  case internal =>
    intro i hi hlt
    rw [joined_length] at hlt
    rcases Nat.lt_succ_iff_lt_or_eq.mp hlt with hlt | rfl
    · obtain ⟨l, r, hl, hr, hj⟩ := h.internal i hi hlt
      exact ⟨l, r, notMem (hj.left_lt.trans hlt) (.inr (.inr hl)), notMem (hj.right_lt.trans hlt) (.inr (.inr hr)),
        hj.joined hlt ha hbq hab hl hr⟩
    · exact ⟨a, b, notMem han (.inl rfl), notMem hbn (.inr (.inl rfl)), joins_new han hbn hab⟩
  case queued =>
    intro x hx
    rcases mem.mp hx with ⟨hxb, hxa, hx⟩ | rfl
    · rw [madeNode_joined_other (h.made x hx) hxa hxb]; exact h.queued x hx
    · rw [madeNode_joined_new]; exact ⟨rfl, rfl⟩
  case merged =>
    intro x hx hm
    rw [joined_length] at hx
    rw [mem, not_or] at hm
    obtain ⟨hq, hne⟩ := hm
    by_cases hxa : x = a
    · subst hxa; exact ⟨_, hasParent_new_left h.leaves_le han hab⟩
    by_cases hxb : x = b
    · subst hxb; exact ⟨_, hasParent_new_right h.leaves_le hbn hab⟩
    obtain ⟨p, hp⟩ := h.merged x (by omega) (fun hxq => hq ⟨hxb, hxa, hxq⟩)
    exact ⟨p, hp.joined hxa hxb hab⟩

/-- k passes over a longer queue shorten it by k. -/
theorem Merging.merge {ls : List Entry} (k : Nat) {ns : List Entry} {q : List Nat} (h : Merging ls ns q) (hk : k < q.length) :
    Merging ls (merge k ns q).1 (merge k ns q).2 ∧ (merge k ns q).2.length + k = q.length := by
  induction k generalizing ns q with
  | zero => exact ⟨h, rfl⟩
  | succ k ih =>
    obtain ⟨a, b, ha, hb, hm⟩ := mergeOnce_joins ns (q := q) (by omega)
    have hlen := length_erase_erase_append ns.length ha hb
    obtain ⟨h1, h2⟩ := ih (h.joined ha hb) (by omega)
    simp only [Machine.merge, hm]
    exact ⟨h1, by omega⟩

/-- The merge of one or more leaves ends with node 2n − 2 alone without a parent. -/
theorem merging_mergeLeaves {ls : List Entry} (h : ∀ e ∈ ls, e.parent = Index.none ∧ e.side = false)
    (hn : 1 ≤ ls.length) :
    Merging ls (mergeLeaves ls).1 [2 * ls.length - 2] ∧ (mergeLeaves ls).2 = [2 * ls.length - 2] := by
  obtain ⟨hm, hlen⟩ := (merging_start h).merge (ls.length - 1) (by simp; omega)
  rw [List.length_range] at hlen
  obtain ⟨r, hr⟩ := List.length_eq_one_iff.mp (show (mergeLeaves ls).2.length = 1 by unfold mergeLeaves; omega)
  change Merging ls (mergeLeaves ls).1 (mergeLeaves ls).2 at hm
  rw [hr] at hm ⊢
  have hcount := hm.count
  rw [List.length_singleton] at hcount
  have hlast : r = 2 * ls.length - 2 := by
    by_contra hne
    obtain ⟨p, hp⟩ := hm.merged (2 * ls.length - 2) (by omega) (by simpa using fun e => hne e.symm)
    have h1 := hp.lt
    have h2 := hp.made
    omega
  exact hlast ▸ ⟨hm, rfl⟩

/-! ### The arena (R153) -/

theorem entryAt_ofNat (a : Vector Entry 511) {i : Nat} (h : i < 511) : entryAt a (BitVec.ofNat 9 i) = some (nodeOf a i) := by
  have hi : (BitVec.ofNat 9 i).toNat < 511 := by rw [BitVec.toNat_ofNat]; omega
  simp [nodeOf, entryAt_isSome a hi]

theorem nodeOf_of_entryAt {a : Vector Entry 511} {x : Index} {e : Entry} (h : entryAt a x = some e) :
    x.toNat < 511 ∧ nodeOf a x.toNat = e := by
  refine ⟨?_, by simp [nodeOf, h]⟩
  by_contra hx
  simp [entryAt, hx] at h

theorem nodeOf_arenaOf (ns : List Entry) {i : Nat} (h : i < 511) : nodeOf (arenaOf ns) i = madeNode ns i := by
  have hi : i % 512 = i := by omega
  simp [nodeOf, entryAt, arenaOf, padded_getElem, madeNode, hi, h]

/-- The arena of a finished merge of the leaves of a table has the layout of R153. -/
theorem Merging.layout {t : Vector Word 256} {ns : List Entry} (hn : 1 ≤ symbolCount t)
    (h : Merging (leaves t) ns [2 * symbolCount t - 2]) : TreeLayout t (arenaOf ns) (symbolCount t) := by
  have hle := symbolCount_le t
  have hcount : ns.length = 2 * symbolCount t - 1 := by
    have := h.count
    rw [List.length_singleton, ← symbolCount] at this
    omega
  have node {i : Nat} (hi : i < 2 * symbolCount t - 1) : nodeOf (arenaOf ns) i = madeNode ns i := nodeOf_arenaOf ns (by omega)
  have leafNode (i : Nat) (hi : i < symbolCount t) :
      ∃ p d, nodeOf (arenaOf ns) i = { (leaves t)[i] with parent := p, side := d } := by
    obtain ⟨p, d, e⟩ := h.leaf i hi
    exact ⟨p, d, by rw [node (by omega), e, madeNode, List.getD_eq_getElem _ _ hi]⟩
  refine ⟨?leaf, ?ascending, ?internal, ?nonRoot, ?top, ?rest⟩
  case leaf =>
    intro i hi
    obtain ⟨p, d, e⟩ := leafNode i hi
    obtain ⟨b, hb, el⟩ := mem_leaves (List.getElem_mem hi)
    rw [e, el]
    refine ⟨rfl, rfl, rfl, rfl, b, ?_, rfl, hb⟩
    simp [leafEntry]
  case ascending =>
    intro i j hij hj
    obtain ⟨_, _, ei⟩ := leafNode i (by omega)
    obtain ⟨_, _, ej⟩ := leafNode j hj
    rw [ei, ej]
    exact List.pairwise_iff_getElem.mp (leavesFrom_ascending (by simp)) i j _ hj hij
  case internal =>
    intro i hi hlt
    obtain ⟨l, r, -, -, hj⟩ := h.internal i hi (by omega)
    have hl := hj.left_lt
    have hr := hj.right_lt
    rw [node hlt]
    refine ⟨hj.inUse, hj.isLeaf, hj.sym, l, r, hl, hr, hj.ne, hj.left, hj.right, ?_⟩
    rw [node (show l < _ by omega), node (show r < _ by omega)]
    exact ⟨hj.f, hj.leftUp.1, hj.leftUp.2, hj.rightUp.1, hj.rightUp.2⟩
  case nonRoot =>
    intro x hx
    obtain ⟨p, hp⟩ := h.merged x (by omega) (by simp; omega)
    have hmade := hp.made
    refine ⟨p, hp.lt, hp.internal, by omega, ?_⟩
    rw [node (show x < _ by omega), node (show p < _ by omega)]
    exact ⟨hp.parent, hp.child⟩
  case top =>
    rw [node (by omega)]
    exact h.queued _ (List.mem_singleton_self _)
  case rest =>
    intro i hi hlt
    rw [nodeOf_arenaOf ns hlt, madeNode, List.getD_eq_default _ _ (by omega)]

theorem merging_leaves {t : Vector Word 256} (hn : 1 ≤ symbolCount t) :
    Merging (leaves t) (mergeLeaves (leaves t)).1 [2 * symbolCount t - 2] ∧
      (mergeLeaves (leaves t)).2 = [2 * symbolCount t - 2] := by
  refine merging_mergeLeaves (fun e he => ?_) hn
  obtain ⟨b, -, rfl⟩ := mem_leaves he
  exact ⟨rfl, rfl⟩

theorem buildArena_layout {t : Vector Word 256} (hn : 1 ≤ symbolCount t) : TreeLayout t (buildArena t) (symbolCount t) :=
  (merging_leaves hn).1.layout hn

theorem buildRoot_eq {t : Vector Word 256} (hn : 1 ≤ symbolCount t) :
    buildRoot t = BitVec.ofNat 9 (2 * symbolCount t - 2) := by
  rw [buildRoot, (merging_leaves hn).2, rootOf]

end Sys2Proof.Machine

/-! No step from a state with the invariants stops the machine (spec/00_scope.md R10, spec/20_memory.md R61,
spec/40_control.md R133): the walks of GENCODES end, the loops end, the counters stay in range. -/

namespace Sys2Proof.Machine

/-! ### Walks in a laid-out tree (R153, R172) -/

/-- The children of an internal node in use are nodes in use. -/
theorem TreeLayout.childOf_inUse {t : Vector Word 256} {a : Vector Entry 511} {n : Nat} (h : TreeLayout t a n) (hn : n ≤ 256)
    {x : Index} {e : Entry} (he : entryAt a x = some e) (hu : e.inUse = true) (hl : e.isLeaf = false) (bit : Bool) :
    ∃ d, entryAt a (childOf e bit) = some d ∧ d.inUse = true := by
  obtain ⟨hx, rfl⟩ := nodeOf_of_entryAt he
  have used {i : Nat} (hi : i < 2 * n - 1) : ∃ d, entryAt a (BitVec.ofNat 9 i) = some d ∧ d.inUse = true := by
    refine ⟨_, entryAt_ofNat a (by omega), ?_⟩
    by_cases hin : i < n
    · exact (h.leaf i hin).1
    · exact (h.internal i (by omega) hi).1
  by_cases hxn : x.toNat < n
  · simp [(h.leaf _ hxn).2.1] at hl
  by_cases hxt : x.toNat < 2 * n - 1
  · obtain ⟨-, -, -, l, r, hlt, hrt, -, el, er, -⟩ := h.internal _ (by omega) hxt
    cases bit with
    | false => simpa [childOf, el] using used (by omega)
    | true => simpa [childOf, er] using used (by omega)
  · simp [h.rest _ (by omega) hx, Entry.cleared] at hu

/-- The way up from any node of a laid-out tree is at most n − 1 steps (R172): the second node on it is internal. -/
theorem TreeLayout.walkUp_ok {t : Vector Word 256} {a : Vector Entry 511} {n : Nat} (h : TreeLayout t a n) (hn : n ≤ 256)
    {k x : Nat} (hx : x ≤ 2 * n - 2) (hk : 2 * n - 2 - max x (n - 1) ≤ k) (bits : List Bool) :
    ∃ code, walkUp a (BitVec.ofNat 9 (2 * n - 2)) k (BitVec.ofNat 9 x) bits = .ok code := by
  induction k generalizing x bits with
  | zero =>
    obtain rfl : x = 2 * n - 2 := by omega
    exact ⟨bits, by simp [walkUp]⟩
  | succ k ih =>
    unfold walkUp
    split
    · exact ⟨bits, rfl⟩
    · rename_i hroot
      have hne : x ≠ 2 * n - 2 := fun e => hroot (e ▸ rfl)
      obtain ⟨p, hxp, hpn, hpt, hparent, -⟩ := h.nonRoot x (by omega)
      obtain ⟨code, hcode⟩ := ih (x := p) (by omega) (by omega) ((nodeOf a x).side :: bits)
      exact ⟨code, by simp [entryAt_ofNat a (show x < 511 by omega), hparent, hcode]⟩

/-- Every leaf of a laid-out tree has a path code. -/
theorem TreeLayout.pathcode_ok {t : Vector Word 256} {a : Vector Entry 511} {n : Nat} (h : TreeLayout t a n) (hn : n ≤ 256)
    {k : Nat} (hk : k < n) : ∃ code, pathcode a (BitVec.ofNat 9 (2 * n - 2)) n k = .ok code := by
  unfold pathcode
  split
  · exact ⟨_, rfl⟩
  · exact h.walkUp_ok hn (by omega) (by unfold maxCodeLen; omega) []

theorem codesOf_ok {a : Vector Entry 511} {root : Index} {n : Nat} {ks : List Nat} (t : Vector (List Bool) 256)
    (h : ∀ k ∈ ks, (∃ e, entryAt a (BitVec.ofNat 9 k) = some e ∧ e.sym.toNat < 256) ∧
      ∃ code, pathcode a root n k = .ok code) : ∃ t', codesOf a root n ks t = .ok t' := by
  induction ks generalizing t with
  | nil => exact ⟨t, rfl⟩
  | cons k ks ih =>
    obtain ⟨⟨⟨e, he, hs⟩, code, hc⟩, hks⟩ := List.forall_mem_cons.mp h
    simp only [codesOf, he, hs, hc, if_true]
    exact ih _ hks

/-- GENCODES finds the codes of every built tree. -/
theorem codeTable_ok (t : Vector Word 256) :
    ∃ c, codeTable (buildArena t) (buildRoot t) (symbolCount t) = .ok c := by
  refine codesOf_ok _ fun k hk => ?_
  have hk : k < symbolCount t := List.mem_range.mp hk
  have hle := symbolCount_le t
  have hlay := buildArena_layout (t := t) (by omega)
  rw [buildRoot_eq (by omega)]
  obtain ⟨-, -, -, -, b, hb, -⟩ := hlay.leaf k hk
  exact ⟨⟨_, entryAt_ofNat _ (by omega), by rw [hb]; simpa using Nat.mod_lt_of_lt b.isLt⟩, hlay.pathcode_ok hle hk⟩

/-! ### The length of a code (R47, R174c) -/

theorem walkUp_length {a : Vector Entry 511} {root x : Index} {k : Nat} {bits code : List Bool}
    (h : walkUp a root k x bits = .ok code) : code.length ≤ bits.length + k := by
  induction k generalizing x bits with
  | zero =>
    unfold walkUp at h
    split at h
    · cases h; exact le_rfl
    · cases h
  | succ k ih =>
    unfold walkUp at h
    split at h
    · cases h; omega
    · simp only at h
      split at h
      · cases h
      · have := ih h
        simp only [List.length_cons] at this
        omega

theorem pathcode_length {a : Vector Entry 511} {root : Index} {n k : Nat} {code : List Bool}
    (h : pathcode a root n k = .ok code) : code.length ≤ maxCodeLen := by
  unfold pathcode at h
  split at h
  · cases h; decide
  · simpa using walkUp_length h

theorem codesOf_length {a : Vector Entry 511} {root : Index} {n : Nat} {ks : List Nat} {t c : Vector (List Bool) 256}
    (ht : ∀ b, (symGet t b).length ≤ maxCodeLen) (h : codesOf a root n ks t = .ok c) (b : Byte) :
    (symGet c b).length ≤ maxCodeLen := by
  induction ks generalizing t with
  | nil => cases h; exact ht b
  | cons k ks ih =>
    unfold codesOf at h
    split at h
    · cases h
    · split at h
      · split at h
        · rename_i bits hbits
          refine ih (fun b' => ?_) h
          rw [symGet_symSet]
          split
          · exact pathcode_length hbits
          · exact ht b'
        · cases h
      · cases h

/-- No code GENCODES writes is longer than 255 bits. -/
theorem codeTable_length {a : Vector Entry 511} {root : Index} {n : Nat} {c : Vector (List Bool) 256}
    (h : codeTable a root n = .ok c) (b : Byte) : (symGet c b).length ≤ maxCodeLen :=
  codesOf_length (fun b => by rw [symGet_replicate]; exact Nat.zero_le _) h b

/-! ### Loops that end (R133) -/

/-- What one turn of a loop that ends can do: end the command, or go on with the property kept and the measure lowered. -/
def Advances (I : State → Prop) (μ : State → Nat) (s : State) (r : Turn) : Prop :=
  (∃ s' w, r = .ends s' w) ∨ ∃ s', r = .again s' ∧ I s' ∧ μ s' < μ s

theorem loop_ends_of_advances {turn : State → Turn} {I : State → Prop} {μ : State → Nat}
    (h : ∀ s, I s → Advances I μ s (turn s)) {n : Nat} {s : State} (hs : I s) (hn : μ s < n) :
    ∃ r, loop turn n s = .next r := by
  refine loop_ends μ (fun s s' hi e => ?_) (fun s f hi e => ?_) n s hs hn
  · rcases h s hi with ⟨_, _, e'⟩ | ⟨_, e', h'⟩ <;> rw [e] at e' <;> cases e'
    exact h'
  · rcases h s hi with ⟨_, _, e'⟩ | ⟨_, e', -⟩ <;> rw [e] at e' <;> cases e'

/-- A buffer read gives some byte and moves the draw counter alone. -/
theorem readIbuf_eq (p : Nat) (s : State) : ∃ b d, readIbuf p s = (b, { s with draws := d }) :=
  ⟨_, _, Prod.ext rfl (readIbuf_state p s)⟩

theorem readBit_eq (p : Nat) (s : State) : ∃ c d, readBit p s = (c, { s with draws := d }) :=
  ⟨_, _, Prod.ext rfl (readBit_state p s)⟩

/-! ### COUNT and ENCODE (R140, R182) -/

/-- The bytes of the chunk that are still to be taken. -/
def bytesLeft (s : State) : Nat := s.inLen.toNat - s.ipos.toNat

/-- A byte is left where IPOS has not come to IN_LEN, so IPOS + 1 does not wrap. -/
theorem ipos_add_one_toNat {s : State} (h : s.ipos.toNat ≤ s.inLen.toNat) (hne : s.ipos ≠ s.inLen) :
    (s.ipos + 1).toNat = s.ipos.toNat + 1 ∧ s.ipos.toNat < s.inLen.toNat := by
  bv_omega

theorem countTurn_advances (s : State) (h : s.ipos.toNat ≤ s.inLen.toNat) :
    Advances (fun s => s.ipos.toNat ≤ s.inLen.toNat) bytesLeft s (countTurn s) := by
  unfold countTurn
  split
  · exact .inl ⟨_, _, rfl⟩
  · rename_i hne
    obtain ⟨hp, hlt⟩ := ipos_add_one_toNat h hne
    obtain ⟨b, d, hb⟩ := readIbuf_eq s.ipos.toNat s
    simp only [hb]
    split
    · exact .inl ⟨_, _, rfl⟩
    · exact .inr ⟨_, rfl, by simp only [hp]; omega, by simp only [bytesLeft, hp]; omega⟩

theorem countBody_ends {s : State} (h : s.ipos.toNat ≤ s.inLen.toNat) : ∃ r, countBody s = .next r :=
  loop_ends_of_advances countTurn_advances h (Nat.lt_succ_self _)

@[simp] theorem putbits_total (xs : List Bool) (s : State) : (putbits xs s).total = s.total := by rw [putbits_frame]
@[simp] theorem putbits_code (xs : List Bool) (s : State) : (putbits xs s).code = s.code := by rw [putbits_frame]
@[simp] theorem putbits_inLen (xs : List Bool) (s : State) : (putbits xs s).inLen = s.inLen := by rw [putbits_frame]

/-- What keeps ENCODE's counters from wrapping (R10, R39, R56 (2)). -/
structure EncodeSafe (s : State) : Prop where
  input : s.ipos.toNat ≤ s.inLen.toNat
  count : s.encCount.toNat ≤ s.total.toNat
  bits : s.encBits.toNat ≤ maxCodeLen * s.encCount.toNat
  codes : ∀ b, (symGet s.code b).length ≤ maxCodeLen

theorem encodeTurn_advances (s : State) (h : EncodeSafe s) : Advances EncodeSafe bytesLeft s (encodeTurn s) := by
  unfold encodeTurn
  split
  · exact .inl ⟨_, _, rfl⟩
  rename_i hne
  obtain ⟨hp, hlt⟩ := ipos_add_one_toNat h.input hne
  obtain ⟨b, d, hb⟩ := readIbuf_eq s.ipos.toNat s
  simp only [hb]
  split
  · exact .inl ⟨_, _, rfl⟩
  split
  · exact .inl ⟨_, _, rfl⟩
  rename_i htotal
  split
  · exact .inl ⟨_, _, rfl⟩
  have hlen := h.codes b
  have hbits := h.bits
  have hcount : s.encCount.toNat < s.total.toNat := lt_of_le_of_ne h.count fun e => htotal (BitVec.eq_of_toNat_eq e)
  have hword := s.total.isLt
  have hbits' : s.encBits.toNat + (symGet s.code b).length ≤ maxCodeLen * (s.encCount.toNat + 1) := by rw [Nat.mul_add]; omega
  have hc := bump_of_lt s.encCount (k := 1) (by omega)
  have hn := bump_of_lt s.encBits (k := (symGet s.code b).length) (by unfold maxCodeLen at *; omega)
  rw [hc, hn]
  refine .inr ⟨_, rfl, ⟨?_, ?_, ?_, ?_⟩, ?_⟩
  · simp only [hp, putbits_inLen]; omega
  · simp only [bump_toNat hc, putbits_total]; omega
  · simp only [bump_toNat hc, bump_toNat hn]; exact hbits'
  · simpa only [putbits_code] using h.codes
  · simp only [bytesLeft, hp, putbits_inLen]; omega

theorem encodeBody_ends {s : State} (h : EncodeSafe s) : ∃ r, encodeBody s = .next r :=
  loop_ends_of_advances encodeTurn_advances h (Nat.lt_succ_self _)

/-! ### DECODE (R204) -/

/-- What keeps DECODE in the tree, in range and its counter from wrapping (R10, R56, R61). -/
structure DecodeSafe (s : State) : Prop where
  valid : s.treeValid = true
  tree : treeFromTable s
  frozen : tableFrozen s
  descent : descentInTree s
  count : s.decCount.toNat ≤ s.total.toNat
  input : s.ibitpos.toNat ≤ 8 * s.inLen.toNat
  output : s.outLen.toNat ≤ s.cfg.obufBytes

/-- The bits still to be read and the bytes still free in OBUF. -/
def decodeLeft (s : State) : Nat := (8 * s.inLen.toNat - s.ibitpos.toNat) + (s.cfg.obufBytes - s.outLen.toNat)

/-- A tree that still owes a symbol has one, and stands in the arena. -/
theorem DecodeSafe.layout {s : State} (h : DecodeSafe s) (hne : s.decCount ≠ s.total) :
    1 ≤ symbolCount s.freq ∧ TreeLayout s.freq s.node (symbolCount s.freq) := by
  have hn : 1 ≤ symbolCount s.freq := by
    by_contra h0
    have hsum := freqSum_of_symbolCount_zero (t := s.freq) (by omega)
    have htotal := h.frozen h.valid
    have hcount := h.count
    exact hne (BitVec.eq_of_toNat_eq (by omega))
  exact ⟨hn, (h.tree h.valid).1 ▸ buildArena_layout hn⟩

/-- The descent stands at a node in use (R56 (4)). -/
theorem DecodeSafe.decNode_inUse {s : State} (h : DecodeSafe s) (hne : s.decCount ≠ s.total) :
    ∃ x, entryAt s.node s.decNode = some x ∧ x.inUse = true := by
  obtain ⟨hn, hlay⟩ := h.layout hne
  have hle := symbolCount_le s.freq
  rcases h.descent h.valid with hroot | ⟨x, hx, hu, -⟩
  · rw [hroot, (h.tree h.valid).2.1, buildRoot_eq hn]
    refine ⟨_, entryAt_ofNat _ (by omega), ?_⟩
    by_cases h1 : symbolCount s.freq = 1
    · exact (hlay.leaf _ (by omega)).1
    · exact (hlay.internal _ (by omega) (by omega)).1
  · exact ⟨x, hx, hu⟩

theorem DecodeSafe.withNode {s : State} (h : DecodeSafe s) {y : Index}
    (hy : y = s.root ∨ ∃ e, entryAt s.node y = some e ∧ e.inUse = true ∧ e.isLeaf = false) :
    DecodeSafe { s with decNode := y } :=
  ⟨h.valid, h.tree, h.frozen, fun _ => hy, h.count, h.input, h.output⟩

/-- Reading a bit. -/
theorem DecodeSafe.consume {s : State} (h : DecodeSafe s) (hne : s.ibitpos.toNat ≠ 8 * s.inLen.toNat) (d : Nat) :
    DecodeSafe { s with draws := d, ibitpos := s.ibitpos + 1 } ∧
      decodeLeft { s with draws := d, ibitpos := s.ibitpos + 1 } < decodeLeft s := by
  have hin := h.input
  have hp : (s.ibitpos + 1).toNat = s.ibitpos.toNat + 1 := by bv_omega
  exact ⟨⟨h.valid, h.tree, h.frozen, h.descent, h.count, by simp only [hp]; omega, h.output⟩,
    by simp only [decodeLeft, hp]; omega⟩

theorem emitSymbol_of_lt {s : State} (e : Entry) (h : s.decCount.toNat < s.total.toNat) :
    emitSymbol e s = some { emit (e.sym.setWidth 8) s with decCount := BitVec.ofNat 32 (s.decCount.toNat + 1) } := by
  have hword := s.total.isLt
  simp only [emitSymbol, bump_of_lt s.decCount (k := 1) (by omega)]

/-- Writing a symbol that the tree still owes into a byte of OBUF that is free. -/
theorem DecodeSafe.emitSymbol {s : State} (h : DecodeSafe s) (hne : s.decCount ≠ s.total)
    (hfree : s.outLen.toNat ≠ s.cfg.obufBytes) (e : Entry) :
    ∃ s', emitSymbol e s = some s' ∧ DecodeSafe s' ∧ decodeLeft s' < decodeLeft s := by
  have hcount : s.decCount.toNat < s.total.toNat := lt_of_le_of_ne h.count fun e => hne (BitVec.eq_of_toNat_eq e)
  have hword := s.total.isLt
  have hout := h.output
  have hsize := s.cfg.obufOk.2.1
  have hc : (BitVec.ofNat 32 (s.decCount.toNat + 1)).toNat = s.decCount.toNat + 1 := Nat.mod_eq_of_lt (by omega)
  have ho : (s.outLen + 1).toNat = s.outLen.toNat + 1 := by bv_omega
  refine ⟨_, emitSymbol_of_lt e hcount, ⟨h.valid, h.tree, h.frozen, h.descent, ?_, h.input, ?_⟩, ?_⟩
  · simp only [hc, emit_total]; omega
  · simp only [emit_outLen, emit_cfg, ho]; omega
  · simp only [decodeLeft, emit_outLen, emit_cfg, emit_inLen, emit_ibitpos, ho]; omega

theorem decodeTurn_advances (last : Bool) (s : State) (h : DecodeSafe s) :
    Advances DecodeSafe decodeLeft s (decodeTurn last s) := by
  unfold decodeTurn
  split
  · exact .inl ⟨_, _, rfl⟩
  rename_i hne
  obtain ⟨x, hx, hu⟩ := h.decNode_inUse hne
  simp only [hx]
  cases hl : x.isLeaf with
  | true =>
    simp only [if_true]
    split
    · exact .inl ⟨_, _, rfl⟩
    · rename_i hfree
      obtain ⟨s', hs', hsafe, hless⟩ := h.emitSymbol hne hfree x
      exact .inr ⟨s', by rw [hs'], hsafe, hless⟩
  | false =>
    simp only [Bool.false_eq_true, if_false]
    split
    · split <;> exact .inl ⟨_, _, rfl⟩
    rename_i hbit
    obtain ⟨c, d, hc⟩ := readBit_eq s.ibitpos.toNat s
    obtain ⟨e, he, heu⟩ := (h.layout hne).2.childOf_inUse (symbolCount_le _) hx hu hl c
    obtain ⟨hsafe, hless⟩ := h.consume hbit d
    have hy : entryAt s.node (if c then x.right else x.left) = some e := he
    simp only [hc, hy]
    cases hel : e.isLeaf with
    | true =>
      simp only [if_true]
      split
      · exact .inl ⟨_, _, rfl⟩
      · rename_i hfree
        obtain ⟨s', hs', hsafe', hless'⟩ := hsafe.emitSymbol hne hfree e
        exact .inr ⟨{ s' with decNode := s'.root }, by rw [hs'], hsafe'.withNode (.inl rfl), hless'.trans hless⟩
    | false =>
      exact .inr ⟨_, rfl, hsafe.withNode (.inr ⟨e, he, heu, hel⟩), hless⟩

theorem decodeBody_ends (last : Bool) {s : State} (h : DecodeSafe s) : ∃ r, decodeBody last s = .next r :=
  loop_ends_of_advances (decodeTurn_advances last) h (Nat.lt_succ_self _)

/-! ### The bodies without a loop -/

theorem genCodesBody_ends {s : State} (hv : s.treeValid = true) (h : treeFromTable s) : ∃ r, genCodesBody s = .next r := by
  obtain ⟨hnode, hroot, hnsym⟩ := h hv
  obtain ⟨c, hc⟩ := codeTable_ok s.freq
  exact ⟨_, by rw [genCodesBody, hnode, hroot, hnsym, hc]; rfl⟩

theorem buildBody_ends (s : State) : ∃ r, buildBody s = .next r := by
  unfold buildBody
  split <;> exact ⟨_, rfl⟩

theorem hdrEmitBody_ends (s : State) : ∃ r, hdrEmitBody s = .next r := by
  unfold hdrEmitBody
  split <;> exact ⟨_, rfl⟩

theorem hdrLoadBody_ends (s : State) : ∃ r, hdrLoadBody s = .next r := by
  unfold hdrLoadBody
  split
  · exact ⟨_, rfl⟩
  · simp only
    split <;> exact ⟨_, rfl⟩

theorem flushBody_ends (s : State) : ∃ r, flushBody s = .next r := by
  unfold flushBody
  split
  · exact ⟨_, rfl⟩
  split
  · split <;> exact ⟨_, rfl⟩
  · exact ⟨_, rfl⟩

/-! ### The completion step (R121) -/

/-- A completion has a next state where its body ends. -/
theorem completion_ends {w : Word} {s : State} {body : State → Result}
    (h : ∃ r, body { s with lastOp := opcodeByte w } = .next r) : ∃ t, completion w body s = .next t := by
  obtain ⟨⟨s', st⟩, hb⟩ := h
  by_cases hr : s.err ≠ .none ∧ w ≠ clearWord
  · exact ⟨_, completion_refused body hr.1 hr.2⟩
  · exact ⟨_, completion_runs (by tauto) hb⟩

/-- A command has a next state where its body ends in phase and in range. -/
theorem runCommand_ends {i : Instr} {s : State} {body : State → Result}
    (h : phaseOK i s = true → boundsOK i s = true → ∃ r, body { s with lastOp := opcodeOf i } = .next r) :
    ∃ t, runCommand i body s = .next t := by
  refine completion_ends ?_
  simp only [opcodeByte_encode, phaseOK_lastOp, boundsOK_lastOp]
  cases hp : phaseOK i s with
  | false => exact ⟨_, rfl⟩
  | true =>
    cases hq : boundsOK i s with
    | false => exact ⟨_, rfl⟩
    | true => exact h hp hq

theorem Inv.withTimeline {s : State} (h : Inv s) (es : List Event) : Inv { s with timeline := es } :=
  ⟨h.buffers, h.phases, h.acc, h.counters, h.frozen, h.tree, h.noTree, h.noCodes, h.codes, h.descent⟩

theorem ipos_le_of_inputInRange {s : State} (h : inputInRange s = true) : s.ipos.toNat ≤ s.inLen.toNat :=
  (of_decide_eq_true h).2

/-- ENCODE in phase and in range meets what its loop needs. -/
theorem Inv.encodeSafe {s : State} (h : Inv s) (hp : phaseOK .encode s = true) (hq : boundsOK .encode s = true) :
    EncodeSafe s := by
  obtain ⟨hcodes, -⟩ := Bool.and_eq_true_iff.mp hp
  obtain ⟨hin, -⟩ := Bool.and_eq_true_iff.mp hq
  obtain ⟨hcount, -, hbits⟩ := h.counters
  exact ⟨ipos_le_of_inputInRange hin, hcount, hbits, codeTable_length (h.codes hcodes)⟩

/-- DECODE in phase and in range meets what its loop needs. -/
theorem Inv.decodeSafe {s : State} (h : Inv s) {last : Bool} (hp : phaseOK (.decode last) s = true)
    (hq : boundsOK (.decode last) s = true) : DecodeSafe s := by
  obtain ⟨hbits, hout⟩ := Bool.and_eq_true_iff.mp hq
  exact ⟨hp, h.tree, h.frozen, h.descent, h.counters.2.1, (of_decide_eq_true hbits).2, of_decide_eq_true hout⟩

theorem EncodeSafe.withLastOp {s : State} (h : EncodeSafe s) (b : Byte) : EncodeSafe { s with lastOp := b } :=
  ⟨h.input, h.count, h.bits, h.codes⟩

theorem DecodeSafe.withLastOp {s : State} (h : DecodeSafe s) (b : Byte) : DecodeSafe { s with lastOp := b } :=
  ⟨h.valid, h.tree, h.frozen, h.descent, h.count, h.input, h.output⟩

/-- From the invariants every command completes. -/
theorem exec_ends {s : State} (h : Inv s) (i : Instr) : ∃ t, exec i s = .next t := by
  cases i with
  | nop => exact runCommand_ends fun _ _ => ⟨_, rfl⟩
  | clear => exact runCommand_ends fun _ _ => ⟨_, rfl⟩
  | count => exact runCommand_ends fun _ hq => countBody_ends (ipos_le_of_inputInRange (s := s) hq)
  | build => exact runCommand_ends fun _ _ => buildBody_ends _
  | genCodes => exact runCommand_ends fun hp _ => genCodesBody_ends (Bool.and_eq_true_iff.mp hp).1 h.tree
  | hdrEmit => exact runCommand_ends fun _ _ => hdrEmitBody_ends _
  | hdrLoad => exact runCommand_ends fun _ _ => hdrLoadBody_ends _
  | encode => exact runCommand_ends fun hp hq => encodeBody_ends ((h.encodeSafe hp hq).withLastOp _)
  | flush => exact runCommand_ends fun _ _ => flushBody_ends _
  | decode last => exact runCommand_ends fun hp hq => decodeBody_ends last ((h.decodeSafe hp hq).withLastOp _)

/-! ### The step -/

theorem engineStep_ends {s : State} (h : Inv s) : ∃ t, engineStep s = .next t := by
  unfold engineStep
  split
  · exact ⟨s, rfl⟩
  split
  · exact exec_ends h _
  · exact completion_ends ⟨_, rfl⟩

theorem takeEvent_ends {s : State} (h : Inv s) (e : Event) : ∃ t, takeEvent e s = .next t := by
  cases e with
  | host x => exact ⟨_, rfl⟩
  | engine => exact engineStep_ends h
  | reset => exact ⟨_, rfl⟩

/-- Settles O59: only the engine's turn can fault, and from the invariants every command's body ends: its walks stay in the tree
that BUILD made, each turn of its loop lowers what is left to read or to write, and no counter passes TOTAL. -/
theorem noStepStopsTheMachine : Obligations.NoStepStopsTheMachine := by
  unfold Obligations.NoStepStopsTheMachine
  intro s h
  unfold step advance
  split
  · exact engineStep_ends h
  · exact takeEvent_ends (h.withTimeline _) _

end Sys2Proof.Machine

/-! The host's registers (spec/10_state.md sections 2 to 9): where each is reached, what a read answers and a write stores, and
the fields of the view words. -/

namespace Sys2Proof.Machine

/-! ### Where a word is reached (R60) -/

theorem reach_reg (c : Config) (r : Reg) : reach c (BitVec.ofNat 16 r.offset) .word = some (.reg r) := by
  cases r with
  | codeW k => fin_cases k <;> rfl
  | _ => rfl

theorem reach_freq (c : Config) (b : Byte) :
    reach c (BitVec.ofNat 16 (0x400 + 4 * b.toNat)) .word = some (.freq b) := by
  have hb := b.isLt
  have hn : (BitVec.ofNat 16 (0x400 + 4 * b.toNat)).toNat = 0x400 + 4 * b.toNat := Nat.mod_eq_of_lt (by omega)
  have h4 : (0x400 + 4 * b.toNat) % 4 = 0 := by omega
  have hi : (0x400 + 4 * b.toNat - 0x400) / 4 = b.toNat := by omega
  simp only [reach, target, hn, h4, hi, and_self, if_true, show ¬ 0x400 + 4 * b.toNat < 0x8C by omega,
    show ¬ 0x400 + 4 * b.toNat < 0x400 by omega, show 0x400 + 4 * b.toNat < 0x800 by omega, if_false, BitVec.ofNat_toNat,
    BitVec.setWidth_eq]

/-! ### Reads and writes of a register (R58, R65, R66) -/

theorem readReg_timeline (s : State) (rest : List Event) (r : Reg) :
    readReg { s with timeline := rest } r = readReg s r := by
  cases r <;> rfl

theorem readTarget_idle {s : State} (h : s.pending = none) (g : Target) : readTarget g s = readIdle g s := by
  simp [readTarget, State.busy, h]

theorem readTarget_status_busy {s : State} (h : s.busy = true) :
    readTarget (.reg .status) s = (busyStatus (drawWord s).2 (drawWord s).1, (drawWord s).2) := by
  rw [readTarget, if_pos h, readBusy]

theorem writeTarget_idle {s : State} (h : s.pending = none) (g : Target) (v : Word) :
    writeTarget g v s = writeIdle g v s := by
  simp [writeTarget, State.busy, h]

theorem writeTarget_of_not_droppedBusy {r : Reg} (h : r.droppedBusy = false) (v : Word) (s : State) :
    writeTarget (.reg r) v s = writeReg r v s := by
  simp [writeTarget, writeBusy, writeIdle, h]

theorem unlessFrozen_frozen {s : State} (write : State → State) (h : s.treeValid = true) :
    unlessFrozen write s = recordErr .seq s := by
  simp [unlessFrozen, h]

theorem unlessFrozen_open {s : State} (write : State → State) (h : s.treeValid = false) :
    unlessFrozen write s = write s := by
  simp [unlessFrozen, h]

theorem readAnswers_reg {s : State} (h : s.pending = none) (r : Reg) :
    readAnswers s (BitVec.ofNat 16 r.offset) (readReg s r) :=
  readAnswers_of_target (reach_reg s.cfg r) fun rest => by
    rw [readTarget_idle (s := { s with timeline := rest }) h, readIdle, readReg_timeline]

theorem readAnswers_freq {s : State} (h : s.pending = none) (b : Byte) :
    readAnswers s (BitVec.ofNat 16 (0x400 + 4 * b.toNat)) (symGet s.freq b) :=
  readAnswers_of_target (reach_freq s.cfg b) fun rest => readTarget_idle (s := { s with timeline := rest }) h _

/-- The registers that read their values while BUSY = 1 too (R66). -/
def Reg.plainBusy : List Reg := [.id, .version, .irqEn, .irqStat, .config]

theorem readTarget_of_mem_plainBusy {r : Reg} (h : r ∈ Reg.plainBusy) (s : State) :
    readTarget (.reg r) s = (readReg s r, s) := by
  unfold readTarget
  split
  · simp only [Reg.plainBusy, List.mem_cons, List.not_mem_nil, or_false] at h
    rcases h with rfl | rfl | rfl | rfl | rfl <;> rfl
  · rfl

theorem step_write {s : State} {a : Offset} {v : Word} {rest : List Event} {g : Target}
    (ht : s.timeline = .host (.write a .word v) :: rest) (hg : reach s.cfg a .word = some g) :
    step s = .next { writeTarget g v { s with timeline := rest } with response := some ⟨0, false⟩ } := by
  simp only [step, advance, ht, takeEvent, hostAccess, hg]

theorem step_read {s : State} {a : Offset} {rest : List Event} {g : Target}
    (ht : s.timeline = .host (.read a .word) :: rest) (hg : reach s.cfg a .word = some g) :
    step s = .next { (readTarget g { s with timeline := rest }).2 with
      response := some ⟨(readTarget g { s with timeline := rest }).1, false⟩ } := by
  simp only [step, advance, ht, takeEvent, hostAccess, hg]

/-- The read-only registers (R58), in offset order. -/
def Reg.readOnly : List Reg :=
  [.id, .version, .status, .config, .nsym, .root, .acc, .encCount, .encBitsLo, .encBitsHi, .decNode, .decCount, .nodeLink,
    .nodeSym, .nodeFreq, .codeLen, .codeW 0, .codeW 1, .codeW 2, .codeW 3, .codeW 4, .codeW 5, .codeW 6, .codeW 7]

theorem writeReg_readOnly {r : Reg} (h : r ∈ Reg.readOnly) (v : Word) (s : State) : writeReg r v s = s := by
  fin_cases h <;> rfl

theorem step_writeReg_idle {s : State} (h : s.pending = none) {r : Reg} {v : Word} {rest : List Event}
    (ht : s.timeline = .host (.write (BitVec.ofNat 16 r.offset) .word v) :: rest) :
    step s = .next { writeReg r v { s with timeline := rest } with response := some ⟨0, false⟩ } := by
  rw [step_write ht (reach_reg s.cfg r), writeTarget_idle (s := { s with timeline := rest }) h, writeIdle]

/-! ### The fields of the view words (R24, R29, R37, R44, R50) -/

theorem configWord_eq (c : Config) : configWord c = BitVec.ofNat 32 (c.ibufBytes + 2 ^ 16 * c.obufBytes) := by
  have hi := c.ibufOk.2.1
  have ho := c.obufOk.2.1
  apply BitVec.eq_of_toNat_eq
  simp only [configWord, BitVec.toNat_append, BitVec.toNat_ofNat]
  rw [← Nat.shiftLeft_add_eq_or_of_lt (Nat.mod_lt _ (by decide)), Nat.shiftLeft_eq]
  omega

theorem statusWord_fields (s : State) :
    s.statusWord.extractLsb' 5 3 = 0 ∧ s.statusWord.extractLsb' 8 3 = s.stop.code ∧ s.statusWord.extractLsb' 11 5 = 0 ∧
      s.statusWord.extractLsb' 16 8 = s.err.code ∧ s.statusWord.extractLsb' 24 8 = s.lastOp := by
  unfold State.statusWord
  simp (disch := decide) only [BitVec.extractLsb'_append_eq_of_add_le, BitVec.extractLsb'_append_eq_left]
  decide

theorem statusWord_bits (s : State) :
    s.statusWord.getLsbD 0 = s.busy ∧ s.statusWord.getLsbD 1 = s.treeValid ∧ s.statusWord.getLsbD 2 = s.codesValid ∧
      s.statusWord.getLsbD 3 = s.encClosed ∧ s.statusWord.getLsbD 4 = s.decDone := by
  simp only [State.statusWord, BitVec.getLsbD_append]
  simp

theorem busyStatus_fields (s : State) (w : Word) :
    (busyStatus s w).getLsbD 0 = true ∧ (busyStatus s w).extractLsb' 16 8 = s.err.code := by
  constructor
  · simp only [busyStatus, BitVec.getLsbD_append]
    simp
  · unfold busyStatus
    simp (disch := decide) only [BitVec.extractLsb'_append_eq_of_add_le, BitVec.extractLsb'_append_eq_left]

theorem linkWord_fields (e : Entry) :
    (linkWord e).extractLsb' 0 9 = e.left ∧ (linkWord e).extractLsb' 9 9 = e.right ∧
      (linkWord e).extractLsb' 18 9 = e.parent ∧ (linkWord e).extractLsb' 30 2 = 0 := by
  unfold linkWord
  simp (disch := decide) only [BitVec.extractLsb'_append_eq_of_add_le, BitVec.extractLsb'_append_eq_left,
    BitVec.extractLsb'_eq_self]
  decide

theorem linkWord_bits (e : Entry) :
    (linkWord e).getLsbD 27 = e.side ∧ (linkWord e).getLsbD 28 = e.isLeaf ∧ (linkWord e).getLsbD 29 = e.inUse := by
  simp only [linkWord, BitVec.getLsbD_append]
  simp

theorem accWord_eq (s : State) : accWord s = BitVec.ofNat 32 (s.accBits.toNat + 2 ^ 8 * s.accN.toNat) := by
  have hb := s.accBits.isLt
  have hn := s.accN.isLt
  apply BitVec.eq_of_toNat_eq
  simp only [accWord, BitVec.toNat_append, BitVec.toNat_ofNat, Nat.zero_mod, Nat.zero_shiftLeft, Nat.zero_or]
  rw [← Nat.shiftLeft_add_eq_or_of_lt hb, Nat.shiftLeft_eq]
  omega

/-- Of a bit placed at bit 31 − i the rest of the word sees nothing. -/
theorem placedBit_getLsbD (x : Bool) {i j : Nat} (hi : i < 32) (hj : j < 32) :
    ((BitVec.ofBool x).setWidth 32 <<< (31 - i)).getLsbD (31 - j) = (decide (j = i) && x) := by
  rw [BitVec.getLsbD_shiftLeft, BitVec.getLsbD_setWidth, BitVec.getLsbD_ofBool]
  by_cases h : j = i
  · subst h
    simp [show 31 - j < 32 by omega]
  · by_cases hlt : 31 - j < 31 - i
    · simp [h, hlt]
    · simp [h, hlt, show 31 - j - (31 - i) ≠ 0 by omega]

/-- By induction on how many bits have been placed. -/
theorem wordOfBits_getLsbD (bits : List Bool) {j : Nat} (hj : j < 32) :
    (wordOfBits bits).getLsbD (31 - j) = bits.getD j false := by
  have placed (n : Nat) (hn : n ≤ 32) :
      ((List.range n).foldl (fun w i => w ||| ((BitVec.ofBool (bits.getD i false)).setWidth 32 <<< (31 - i))) (0 : Word)).getLsbD
        (31 - j) = (decide (j < n) && bits.getD j false) := by
    induction n with
    | zero => simp
    | succ n ih =>
      rw [List.range_succ, List.foldl_append, List.foldl_cons, List.foldl_nil, BitVec.getLsbD_or, ih (by omega),
        placedBit_getLsbD _ (by omega) hj]
      rcases lt_trichotomy j n with h | rfl | h
      · simp [h, h.ne, h.trans (Nat.lt_succ_self n)]
      · simp
      · simp [h.not_gt, h.ne', show ¬ j < n + 1 by omega]
  rw [wordOfBits, placed 32 le_rfl]
  simp [hj]

theorem codeWord_getLsbD (bits : List Bool) (k : Nat) {j : Nat} (hj : j < 32) :
    (codeWord bits k).getLsbD (31 - j) = bits.getD (32 * k + j) false := by
  rw [codeWord, wordOfBits_getLsbD _ hj]
  simp [List.getD]

theorem readAnswers_selectedEntry {s : State} (h : s.pending = none) {e : Entry} (he : selectedEntry s = e) :
    readAnswers s 0x058 (linkWord e) ∧ readAnswers s 0x05C (e.sym.setWidth 32) ∧ readAnswers s 0x060 e.f := by
  subst he
  exact ⟨readAnswers_reg h .nodeLink, readAnswers_reg h .nodeSym, readAnswers_reg h .nodeFreq⟩

/-! ### The obligations on registers -/

/-- Settles O60: each word is reached at its offset, and its read moves nothing; CONFIG's halves do not overlap, and a code of at
most 255 bits fits CODE_LEN. -/
theorem readsAnswerTheirValues : Obligations.ReadsAnswerTheirValues := by
  unfold Obligations.ReadsAnswerTheirValues
  refine ⟨fun s => ?_, fun s h => ?_⟩
  · have always {r : Reg} (hr : r ∈ Reg.plainBusy) : readAnswers s (BitVec.ofNat 16 r.offset) (readReg s r) :=
      readAnswers_of_target (reach_reg s.cfg r) fun rest => by
        rw [readTarget_of_mem_plainBusy hr, readReg_timeline]
    rw [← configWord_eq]
    exact ⟨always (r := .id) (by decide), always (r := .version) (by decide), always (r := .irqEn) (by decide),
      always (r := .irqStat) (by decide), always (r := .config) (by decide)⟩
  · have reg := readAnswers_reg h
    refine ⟨reg .cmd, reg .errClr, reg .inLen, reg .ipos, reg .ibitpos, reg .outLen, reg .total, reg .nsym, reg .root,
      reg .encCount, reg .encBitsLo, reg .encBitsHi, reg .decNode, reg .decCount, reg .nodeSel, reg .codeSel, fun hlen => ?_,
      readAnswers_freq h⟩
    have hcode : readReg s .codeLen = BitVec.ofNat 32 (symGet s.code s.codeSel).length := by
      apply BitVec.eq_of_toNat_eq
      simp only [readReg, selectedCode, BitVec.toNat_setWidth, BitVec.toNat_ofNat]
      omega
    exact hcode ▸ reg .codeLen

/-- Settles O46: while BUSY = 0 a write at a register's offset is `writeReg`, which a read-only register ignores. -/
theorem idleWritesStoreTheirFields : Obligations.IdleWritesStoreTheirFields := by
  unfold Obligations.IdleWritesStoreTheirFields
  intro s v rest h
  simp (disch := decide) only [← BitVec.setWidth_eq_extractLsb']
  refine ⟨step_writeReg_idle (r := .cmd) h, step_writeReg_idle (r := .inLen) h, step_writeReg_idle (r := .ipos) h,
    step_writeReg_idle (r := .ibitpos) h, step_writeReg_idle (r := .outLen) h, step_writeReg_idle (r := .nodeSel) h,
    step_writeReg_idle (r := .codeSel) h, fun a ha ht => ?_⟩
  obtain ⟨r, hr, rfl⟩ : ∃ r ∈ Reg.readOnly, BitVec.ofNat 16 r.offset = a := List.mem_map.mp ha
  rw [step_writeReg_idle h ht, writeReg_readOnly hr]

/-- Settles O45: the three registers are not among those whose writes R65 drops, so BUSY makes no difference. -/
theorem interruptWritesWorkWhileBusy : Obligations.InterruptWritesWorkWhileBusy := by
  unfold Obligations.InterruptWritesWorkWhileBusy
  intro s v rest
  simp (disch := decide) only [← BitVec.setWidth_eq_extractLsb']
  have always {r : Reg} (hr : r.droppedBusy = false)
      (ht : s.timeline = .host (.write (BitVec.ofNat 16 r.offset) .word v) :: rest) :
      step s = .next { writeReg r v { s with timeline := rest } with response := some ⟨0, false⟩ } := by
    rw [step_write ht (reach_reg s.cfg r), writeTarget_of_not_droppedBusy hr]
  exact ⟨always (r := .errClr) rfl, always (r := .irqEn) rfl, always (r := .irqStat) rfl⟩

/-- Settles O47: both targets go through `unlessFrozen`, which TREE_VALID decides. -/
theorem frozenTableRejectsWrites : Obligations.FrozenTableRejectsWrites := by
  unfold Obligations.FrozenTableRejectsWrites
  intro s v b rest h ht
  have total (ht : s.timeline = .host (.write 0x030#16 .word v) :: rest) := step_writeReg_idle (r := .total) h ht
  have freq (ht : s.timeline = .host (.write (BitVec.ofNat 16 (0x400 + 4 * b.toNat)) .word v) :: rest) :=
    step_write ht (reach_freq s.cfg b)
  simp only [writeTarget_idle (s := { s with timeline := rest }) h, writeIdle] at freq
  refine ⟨fun hv => ?_, fun hv => ⟨fun ht => ?_, fun ht => ?_⟩⟩
  · rcases ht with ht | ht
    · rw [freq ht, unlessFrozen_frozen (s := { s with timeline := rest }) _ hv]
      rfl
    · rw [total ht, writeReg, unlessFrozen_frozen (s := { s with timeline := rest }) _ hv]
      rfl
  · rw [total ht, writeReg, unlessFrozen_open (s := { s with timeline := rest }) _ hv]
  · rw [freq ht, unlessFrozen_open (s := { s with timeline := rest }) _ hv]

/-- Settles O50: the fields of the word that STATUS is read as, idle and busy. -/
theorem statusShowsItsFields : Obligations.StatusShowsItsFields := by
  unfold Obligations.StatusShowsItsFields
  intro s t rest ht hs
  rw [step_read ht (reach_reg s.cfg .status), Host.Outcome.next.injEq] at hs
  subst hs
  refine ⟨_, rfl, ?_⟩
  by_cases hp : s.pending = none
  · rw [readTarget_idle (s := { s with timeline := rest }) hp]
    obtain ⟨hres, hstop, hres', herr, hop⟩ := statusWord_fields { s with timeline := rest }
    obtain ⟨hbusy, htree, hcodes, hclosed, hdone⟩ := statusWord_bits { s with timeline := rest }
    exact ⟨hbusy, herr, fun _ => ⟨htree, hcodes, hclosed, hdone, hres, hstop, hres', hop⟩⟩
  · have hb : s.pending.isSome = true := Option.isSome_iff_ne_none.mpr hp
    obtain ⟨hbusy, herr⟩ := busyStatus_fields (drawWord { s with timeline := rest }).2 (Config.freeWord s.draws)
    rw [readTarget_status_busy (s := { s with timeline := rest }) hb]
    exact ⟨hbusy.trans hb.symm, herr, fun h => absurd h hp⟩

/-- Settles O51: each view is a register read at its offset, and the fields of the view words are the state's. -/
theorem viewsShowTheState : Obligations.ViewsShowTheState := by
  unfold Obligations.ViewsShowTheState
  refine ⟨fun s h => ⟨fun e he => ?_, fun hsel => ?_, ?_, fun k => ?_⟩, fun s => rfl⟩
  · obtain ⟨hleft, hright, hparent, hres⟩ := linkWord_fields e
    obtain ⟨hside, hleaf, huse⟩ := linkWord_bits e
    obtain ⟨link, sym, freq⟩ := readAnswers_selectedEntry h (e := e) (by simp [selectedEntry, he])
    exact ⟨⟨_, link, hleft, hright, hparent, hside, hleaf, huse, hres⟩, sym, freq⟩
  · exact readAnswers_selectedEntry h (e := Entry.cleared) (by simp [selectedEntry, hsel, entryAt])
  · exact accWord_eq s ▸ readAnswers_reg h .acc
  · exact ⟨_, readAnswers_reg h (.codeW k), fun j hj => codeWord_getLsbD _ _ hj⟩

end Sys2Proof.Machine

/-! What a step can do (spec/40_control.md R120-R132): the completion of a command, the engine's turn, the host's access. -/

namespace Sys2Proof.Machine

/-! ### Commands and their bodies (R121, R130, R132) -/

/-- What a command does once it is in phase and in range. Reducible, so that the lemmas about a body apply to `Ran.body`. -/
@[reducible] def commandBody : Instr → State → Result
  | .nop => stopWith .done
  | .clear => clearBody
  | .count => countBody
  | .build => buildBody
  | .genCodes => genCodesBody
  | .hdrEmit => hdrEmitBody
  | .hdrLoad => hdrLoadBody
  | .encode => encodeBody
  | .flush => flushBody
  | .decode last => decodeBody last

theorem exec_eq_runCommand (i : Instr) (s : State) : exec i s = runCommand i (commandBody i) s := by
  cases i <;> rfl

/-- The command i, in phase and in range in s, ends its body in t with the STOP value w. -/
structure Ran (i : Instr) (s t : State) (w : Stop) : Prop where
  phase : phaseOK i s = true
  bounds : boundsOK i s = true
  body : commandBody i s = .next (t, w)

/-- At most the fields of the completion's frame and of `raise` differ (R121, R222). -/
def OnlyFrame (s t : State) : Prop :=
  t = { s with err := t.err, stop := t.stop, lastOp := t.lastOp, irqStat := t.irqStat, pending := t.pending }

/-- A command is refused, out of phase or out of range, or its body runs. -/
theorem exec_next {i : Instr} {s t : State} (h : exec i s = .next t) :
    (OnlyFrame s t ∧ (s.err ≠ .none ∨ t.err = .seq ∨ t.err = .bounds)) ∨
    ∃ u w, Ran i { s with lastOp := opcodeOf i } u w ∧ t = finish w u := by
  rw [exec_eq_runCommand] at h
  rcases runCommand_next h with ⟨he, -, rfl⟩ | ⟨-, -, rfl⟩ | ⟨-, -, -, rfl⟩ | ⟨-, hp, hq, u, w, hb, ht⟩
  · exact .inl ⟨rfl, .inl he⟩
  · refine .inl ⟨rfl, ?_⟩
    by_cases he : s.err = .none <;> simp [he]
  · refine .inl ⟨rfl, ?_⟩
    by_cases he : s.err = .none <;> simp [he]
  · exact .inr ⟨u, w, ⟨by rwa [phaseOK_lastOp], by rwa [boundsOK_lastOp], hb⟩, ht⟩

/-- An Invalid word is refused or raises BAD_CMD (R122, R123). -/
theorem runInvalid_next {w : Word} {s t : State} (h : runInvalid w s = .next t) : OnlyFrame s t := by
  rcases completion_next h with ⟨-, -, rfl⟩ | ⟨-, u, st, hb, rfl⟩
  · rfl
  · simp only [raise, Host.Outcome.next.injEq, Prod.mk.injEq] at hb
    obtain ⟨rfl, -⟩ := hb
    rfl

/-! ### Command words (R91, R92) -/

/-- A word is the command word of its fields (R90). -/
theorem commandWord_commandFields (w : Word) : commandWord (commandFields w) = w := by
  apply BitVec.eq_of_getLsbD_eq
  intro i hi
  simp only [commandWord, commandFields, BitVec.getLsbD_append, BitVec.getLsbD_extractLsb', BitVec.getLsbD_ofBool]
  rcases lt_trichotomy i 8 with h | rfl | h
  · simp [h, show i < 1 + 8 by omega]
  · simp
  · simp [show ¬ i < 1 + 8 by omega, show i - (1 + 8) < 23 by omega, show 9 + (i - (1 + 8)) = i by omega]

theorem plainCommand_eq_some {o : Byte} {i : Instr} (h : plainCommand o = some i) : opcodeOf i = o ∧ lastOf i = false := by
  unfold plainCommand at h
  split at h <;> cases h <;> rename_i ho <;> exact ⟨BitVec.eq_of_toNat_eq ho.symm, rfl⟩

theorem encode_of_decode {w : Word} {i : Instr} (h : decode w = .ok i) : encode i = w := by
  suffices hf : opcodeOf i = (commandFields w).opcode ∧ lastOf i = (commandFields w).last ∧ 0#23 = (commandFields w).rsvd by
    obtain ⟨ho, hl, hr⟩ := hf
    rw [encode, ho, hl, hr, commandWord_commandFields]
  unfold decode at h
  simp only at h
  split at h
  · cases h
  rename_i hr
  rw [ne_eq, not_not] at hr
  split at h
  · rename_i ho
    cases h
    exact ⟨ho.symm, rfl, hr.symm⟩
  split at h
  · cases h
  rename_i hl
  split at h
  · rename_i hi
    cases h
    obtain ⟨ho, hl'⟩ := plainCommand_eq_some hi
    exact ⟨ho, hl'.trans (Bool.not_eq_true _ ▸ hl).symm, hr.symm⟩
  · cases h

/-! ### Turns and steps (R120) -/

/-- The engine's turn moves the frame alone, or runs the body of the command in flight. -/
theorem engineStep_next {s t : State} (h : engineStep s = .next t) :
    OnlyFrame s t ∨ ∃ i u w, s.pending = some (encode i) ∧ Ran i { s with lastOp := opcodeOf i } u w ∧ t = finish w u := by
  unfold engineStep at h
  split at h
  · cases h
    exact .inl rfl
  · rename_i w hw
    split at h
    · rename_i i hi
      rcases exec_next h with ⟨hf, -⟩ | ⟨u, st, hr, ht⟩
      · exact .inl hf
      · exact .inr ⟨i, u, st, by rw [hw, encode_of_decode hi], hr, ht⟩
    · exact .inl (runInvalid_next h)

/-- A step is a host access, a reset, or the engine's turn, which is also what follows the end of the timeline. -/
theorem step_next {s t : State} (h : step s = .next t) :
    (∃ x rest, s.timeline = .host x :: rest ∧ t = hostAccess x { s with timeline := rest }) ∨
    (∃ rest, s.timeline = .reset :: rest ∧ t = hardwareReset { s with timeline := rest }) ∨
    ((s.timeline = [] ∨ ∃ rest, s.timeline = .engine :: rest) ∧ ∃ rest, engineStep { s with timeline := rest } = .next t) := by
  unfold step advance at h
  split at h
  · rename_i ht
    exact .inr (.inr ⟨.inl ht, s.timeline, h⟩)
  · rename_i e rest ht
    cases e with
    | host x => exact .inl ⟨x, rest, ht, by cases h; rfl⟩
    | engine => exact .inr (.inr ⟨.inr ⟨rest, ht⟩, rest, h⟩)
    | reset => exact .inr (.inl ⟨rest, ht, by cases h; rfl⟩)

/-! ### What the invariants speak of -/

/-- The state with every field that no invariant of R56 reads at its reset value. -/
def invView (s : State) : State :=
  { s with
    inLen := 0, ipos := 0, ibitpos := 0, outLen := 0, nodeSel := 0, codeSel := 0, err := .none, stop := .none, lastOp := 0,
    irqEn := 0, irqStat := 0, pending := none, timeline := [], response := none, busFaults := [], draws := 0 }

theorem inv_invView {s : State} : Inv (invView s) ↔ Inv s :=
  ⟨fun h => ⟨h.buffers, h.phases, h.acc, h.counters, h.frozen, h.tree, h.noTree, h.noCodes, h.codes, h.descent⟩,
    fun h => ⟨h.buffers, h.phases, h.acc, h.counters, h.frozen, h.tree, h.noTree, h.noCodes, h.codes, h.descent⟩⟩

/-- The invariants hold in every state that agrees on what they speak of. -/
theorem Inv.of_invView_eq {s t : State} (h : Inv s) (e : invView t = invView s) : Inv t :=
  inv_invView.mp (e ▸ inv_invView.mpr h)

theorem OnlyFrame.invView {s t : State} (h : OnlyFrame s t) : invView t = invView s := by
  rw [h]
  rfl

/-! ### The host's access (R62-R72) -/

theorem readObufWord_state (i : Nat) (s : State) :
    (readObufWord i s).2 = { s with draws := (readObufWord i s).2.draws } := by
  simp only [readObufWord]
  rw [readObuf_state (i + 3), readObuf_state (i + 2), readObuf_state (i + 1), readObuf_state i]

theorem readTarget_state (g : Target) (s : State) : (readTarget g s).2 = { s with draws := (readTarget g s).2.draws } := by
  unfold readTarget
  split
  · unfold readBusy
    split <;> rfl
  · cases g with
    | reg r => rfl
    | freq b => rfl
    | ibuf i => exact readWord_state i s
    | obuf i => exact readObufWord_state i s

/-- A word of the window that lies in a buffer lies in it whole. -/
def Target.fits (c : Config) : Target → Prop
  | .reg _ | .freq _ => True
  | .ibuf i => i + 4 ≤ c.ibufBytes
  | .obuf i => i + 4 ≤ c.obufBytes

/-- Offsets and buffer sizes are multiples of 4 (R6, R63). -/
theorem reach_fits {c : Config} {a : Offset} {w : Width} {g : Target} (h : reach c a w = some g) : g.fits c := by
  have hi := c.ibufOk.2.2
  have ho := c.obufOk.2.2
  unfold reach at h
  split at h
  case isFalse => cases h
  rename_i hw
  simp only [target] at h
  split_ifs at h
  · obtain ⟨r, -, rfl⟩ := Option.map_eq_some_iff.mp h
    trivial
  all_goals
    rw [Option.some.injEq] at h
    subst h
    simp only [Target.fits]
  · omega
  · omega

/-- What a host access can do to the fields the invariants speak of. -/
inductive HostChange (s t : State) : Prop where
  | nothing (e : invView t = invView s)
  | table (unfrozen : s.treeValid = false) (f : Vector Word 256) (n : Word)
      (e : invView t = invView { s with freq := f, total := n })
  | ibufWord (i : Nat) (v : Word) (fits : i + 4 ≤ s.cfg.ibufBytes)
      (e : invView t = invView { s with ibuf := Memory.writeList s.ibuf i (bytesOf v) })
  | obufWord (i : Nat) (v : Word) (fits : i + 4 ≤ s.cfg.obufBytes)
      (e : invView t = invView { s with obuf := Memory.writeList s.obuf i (bytesOf v) })

/-- A write to the table stores while it is open and records SEQ while it is frozen (R51, R224). -/
theorem unlessFrozen_hostChange {write : State → State} {s : State} (f : Vector Word 256) (n : Word)
    (h : write s = { s with freq := f, total := n }) : HostChange s (unlessFrozen write s) := by
  cases hv : s.treeValid with
  | true => exact unlessFrozen_frozen write hv ▸ .nothing rfl
  | false => exact unlessFrozen_open write hv ▸ .table hv f n (congrArg invView h)

theorem writeReg_hostChange (r : Reg) (v : Word) (s : State) : HostChange s (writeReg r v s) := by
  cases r with
  | total => exact unlessFrozen_hostChange (write := fun s => { s with total := v }) s.freq v rfl
  | _ => exact .nothing rfl

theorem writeTarget_hostChange {g : Target} {s : State} (hg : g.fits s.cfg) (v : Word) :
    HostChange s (writeTarget g v s) := by
  unfold writeTarget
  split
  · cases g with
    | reg r =>
      unfold writeBusy
      simp only
      split
      · exact .nothing rfl
      · exact writeReg_hostChange r v s
    | _ => exact .nothing rfl
  · cases g with
    | reg r => exact writeReg_hostChange r v s
    | freq b =>
      exact unlessFrozen_hostChange (write := fun s => { s with freq := symSet s.freq b v }) (symSet s.freq b v) s.total rfl
    | ibuf i => exact .ibufWord i v hg rfl
    | obuf i => exact .obufWord i v hg rfl

/-- A response is the model's own record. -/
theorem HostChange.withResponse {s t : State} (h : HostChange s t) (r : Option Response) :
    HostChange s { t with response := r } := by
  cases h with
  | nothing e => exact .nothing e
  | table hv f n e => exact .table hv f n e
  | ibufWord i v hi e => exact .ibufWord i v hi e
  | obufWord i v hi e => exact .obufWord i v hi e

theorem hostAccess_hostChange (x : Access) (s : State) : HostChange s (hostAccess x s) := by
  cases x with
  | read a w =>
    unfold hostAccess
    simp only
    split
    · exact .nothing rfl
    · rename_i g hg
      have e : invView (readTarget g s).2 = invView s := by rw [readTarget_state]; rfl
      exact HostChange.withResponse (.nothing e) _
  | write a w v =>
    unfold hostAccess
    simp only
    split
    · exact .nothing rfl
    · rename_i g hg
      exact (writeTarget_hostChange (reach_fits hg) v).withResponse _

end Sys2Proof.Machine

/-! What each command's body can do: the fields it leaves alone, and what it leaves in those it writes. -/

namespace Sys2Proof.Machine

/-! ### Frames -/

/-- At most the draw counter and what `raise` records differ. -/
def OnlyRecords (s t : State) : Prop :=
  t = { s with err := t.err, irqStat := t.irqStat, draws := t.draws }

/-- At most the table and the input positions differ besides (COUNT, HDR_LOAD). -/
def TableFrame (s t : State) : Prop :=
  t = { s with
    freq := t.freq, total := t.total, ipos := t.ipos, ibitpos := t.ibitpos
    err := t.err, irqStat := t.irqStat, draws := t.draws }

/-- At most the accumulator, the encoder's counters, IPOS and the output differ besides (ENCODE). -/
def EncodeFrame (s t : State) : Prop :=
  t = { s with
    accBits := t.accBits, accN := t.accN, encCount := t.encCount, encBits := t.encBits, ipos := t.ipos
    obuf := t.obuf, outLen := t.outLen, err := t.err, irqStat := t.irqStat, draws := t.draws }

/-- At most the descent, DEC_COUNT, IBITPOS and the output differ besides (DECODE). -/
def DecodeFrame (s t : State) : Prop :=
  t = { s with
    decNode := t.decNode, decCount := t.decCount, ibitpos := t.ibitpos
    obuf := t.obuf, outLen := t.outLen, err := t.err, irqStat := t.irqStat, draws := t.draws }

theorem TableFrame.refl (s : State) : TableFrame s s := rfl

theorem TableFrame.trans {s t u : State} (h : TableFrame s t) (h' : TableFrame t u) : TableFrame s u := by
  unfold TableFrame at *
  rw [h', h]

theorem EncodeFrame.refl (s : State) : EncodeFrame s s := rfl

theorem EncodeFrame.trans {s t u : State} (h : EncodeFrame s t) (h' : EncodeFrame t u) : EncodeFrame s u := by
  unfold EncodeFrame at *
  rw [h', h]

theorem DecodeFrame.refl (s : State) : DecodeFrame s s := rfl

theorem DecodeFrame.trans {s t u : State} (h : DecodeFrame s t) (h' : DecodeFrame t u) : DecodeFrame s u := by
  unfold DecodeFrame at *
  rw [h', h]

theorem OnlyRecords.tableFrame {s t : State} (h : OnlyRecords s t) : TableFrame s t := by
  rw [h]
  rfl

theorem OnlyRecords.encodeFrame {s t : State} (h : OnlyRecords s t) : EncodeFrame s t := by
  rw [h]
  rfl

theorem OnlyRecords.decodeFrame {s t : State} (h : OnlyRecords s t) : DecodeFrame s t := by
  rw [h]
  rfl

theorem OnlyRecords.invView {s t : State} (h : OnlyRecords s t) : invView t = invView s := by
  rw [h]
  rfl

/-- A reflexive and transitive relation that every turn keeps holds between a loop's start and its end. -/
theorem loop_rel {turn : State → Turn} {R : State → State → Prop} (refl : ∀ s, R s s)
    (trans : ∀ {s t u}, R s t → R t u → R s u) (again : ∀ {s t}, turn s = .again t → R s t)
    (ends : ∀ {s t w}, turn s = .ends t w → R s t) {n : Nat} {s t : State} {w : Stop} (h : loop turn n s = .next (t, w)) :
    R s t :=
  loop_induct (I := R s) (Q := fun t _ => R s t) (fun _ _ hi e => trans hi (again e)) (fun _ _ _ hi e => trans hi (ends e))
    n s t w (refl s) h

/-! ### COUNT (R140) -/

theorem countTurn_ends {s t : State} {w : Stop} (h : countTurn s = .ends t w) : OnlyRecords s t := by
  unfold countTurn at h
  split at h
  · cases h; rfl
  · obtain ⟨b, d, hb⟩ := readIbuf_eq s.ipos.toNat s
    simp only [hb] at h
    split at h <;> cases h
    rfl

theorem countTurn_again {s t : State} (h : countTurn s = .again t) : TableFrame s t := by
  unfold countTurn at h
  split at h
  · cases h
  · obtain ⟨b, d, hb⟩ := readIbuf_eq s.ipos.toNat s
    simp only [hb] at h
    split at h <;> cases h
    rfl

theorem countBody_frame {s t : State} {w : Stop} (h : countBody s = .next (t, w)) : TableFrame s t :=
  loop_rel TableFrame.refl .trans countTurn_again (fun h => (countTurn_ends h).tableFrame) h

/-! ### BUILD and GENCODES (R150, R170) -/

theorem buildBody_next {s t : State} {w : Stop} (h : buildBody s = .next (t, w)) :
    OnlyRecords s t ∨
    (w = .done ∧ freqSum s.freq = s.total.toNat ∧ t = { s with
      node := buildArena s.freq
      root := buildRoot s.freq
      nsym := BitVec.ofNat 9 (symbolCount s.freq)
      decNode := buildRoot s.freq
      decCount := 0
      treeValid := true }) := by
  unfold buildBody at h
  split at h
  · cases h; exact .inl rfl
  · rename_i hsum
    cases h
    exact .inr ⟨rfl, not_not.mp hsum, rfl⟩

theorem genCodesBody_next {s t : State} {w : Stop} (h : genCodesBody s = .next (t, w)) :
    w = .done ∧ ∃ c, codeTable s.node s.root s.nsym.toNat = .ok c ∧ t = { s with
      code := c
      accBits := 0
      accN := 0
      encCount := 0
      encBits := 0
      codesValid := true
      encClosed := false } := by
  unfold genCodesBody at h
  split at h
  · cases h
  · rename_i c hc
    cases h
    exact ⟨rfl, c, hc, rfl⟩

/-! ### HDR_EMIT and HDR_LOAD (R180, R200) -/

theorem readWords_eq (n p : Nat) (s : State) : ∃ ws d, readWords n p s = (ws, { s with draws := d }) :=
  ⟨_, _, Prod.ext rfl (readWords_state n p s)⟩

theorem hdrLoadBody_frame {s t : State} {w : Stop} (h : hdrLoadBody s = .next (t, w)) : TableFrame s t := by
  unfold hdrLoadBody at h
  split at h
  · cases h; rfl
  · obtain ⟨ws, d, hws⟩ := readWords_eq 257 s.ipos.toNat s
    simp only [hws] at h
    split at h <;>
    · simp only [raise, stopWith, Host.Outcome.next.injEq, Prod.mk.injEq] at h
      rw [← h.1]
      rfl

theorem length_flatMap_bytesOf (ws : List Word) : (ws.flatMap bytesOf).length = 4 * ws.length := by
  induction ws with
  | nil => rfl
  | cons w ws ih =>
    rw [List.flatMap_cons, List.length_append, ih, bytesOf_length, List.length_cons]
    omega

theorem headerBytes_length (f : Vector Word 256) (total : Word) : (headerBytes f total).length = headerSize := by
  rw [headerBytes, length_flatMap_bytesOf, List.length_append, Vector.length_toList]
  rfl

theorem hdrEmitBody_next {s t : State} {w : Stop} (h : hdrEmitBody s = .next (t, w)) :
    t = s ∨ (s.outLen.toNat + headerSize ≤ s.cfg.obufBytes ∧ t = { s with
      obuf := Memory.writeList s.obuf s.outLen.toNat (headerBytes s.freq s.total)
      outLen := BitVec.ofNat 15 (s.outLen.toNat + headerSize) }) := by
  unfold hdrEmitBody at h
  split at h
  · cases h; exact .inl rfl
  · rename_i hfit
    have hsize := s.cfg.obufOk.2.1
    cases h
    rw [emitAll_eq _ _ (by rw [headerBytes_length]; omega), headerBytes_length]
    exact .inr ⟨by omega, rfl⟩

/-! ### ENCODE and FLUSH (R182-R191) -/

theorem encodeTurn_ends {s t : State} {w : Stop} (h : encodeTurn s = .ends t w) : OnlyRecords s t := by
  unfold encodeTurn at h
  split at h
  · cases h; rfl
  · obtain ⟨b, d, hb⟩ := readIbuf_eq s.ipos.toNat s
    simp only [hb] at h
    split at h
    · cases h; rfl
    split at h
    · cases h; rfl
    split at h
    · cases h; rfl
    · split at h <;> cases h

/-- A turn of ENCODE that goes on has put the code of one symbol that TOTAL still allows, in the room that OBUF has. -/
theorem encodeTurn_again {s t : State} (h : encodeTurn s = .again t) :
    ∃ b d c n, s.encCount ≠ s.total ∧ bump s.encCount 1 = some c ∧ bump s.encBits (symGet s.code b).length = some n ∧
      s.outLen.toNat + (s.accN.toNat + (symGet s.code b).length) / 8 ≤ s.cfg.obufBytes ∧
      t = { putbits (symGet s.code b) { s with draws := d } with encCount := c, encBits := n, ipos := s.ipos + 1 } := by
  unfold encodeTurn at h
  split at h
  · cases h
  · obtain ⟨b, d, hb⟩ := readIbuf_eq s.ipos.toNat s
    simp only [hb] at h
    split at h
    · cases h
    split at h
    · cases h
    rename_i htotal
    split at h
    · cases h
    rename_i hroom
    split at h
    · rename_i c n hc hn
      cases h
      exact ⟨b, d, c, n, htotal, hc, hn, Nat.le_of_not_lt hroom, rfl⟩
    · cases h

theorem encodeBody_frame {s t : State} {w : Stop} (h : encodeBody s = .next (t, w)) : EncodeFrame s t := by
  refine loop_rel EncodeFrame.refl .trans (fun h => ?_) (fun h => (encodeTurn_ends h).encodeFrame) h
  obtain ⟨b, d, c, n, -, -, -, -, rfl⟩ := encodeTurn_again h
  rw [putbits_frame]
  rfl

theorem flushBody_next {s t : State} {w : Stop} (h : flushBody s = .next (t, w)) :
    OnlyRecords s t ∨
    (w = .done ∧ s.accN ≠ 0 ∧ s.outLen.toNat ≠ s.cfg.obufBytes ∧
      t = { emit s.accBits s with accBits := 0, accN := 0, encClosed := true }) ∨
    (w = .done ∧ s.accN = 0 ∧ t = { s with encClosed := true }) := by
  unfold flushBody at h
  split at h
  · cases h; exact .inl rfl
  split at h
  · rename_i hn
    split at h
    · cases h; exact .inl rfl
    · rename_i hroom
      cases h
      exact .inr (.inl ⟨rfl, hn, hroom, rfl⟩)
  · rename_i hn
    cases h
    exact .inr (.inr ⟨rfl, not_not.mp hn, rfl⟩)

/-! ### DECODE (R204) -/

theorem decodeTurn_ends {last : Bool} {s t : State} {w : Stop} (h : decodeTurn last s = .ends t w) : OnlyRecords s t := by
  unfold decodeTurn at h
  split at h
  · cases h; rfl
  split at h
  · cases h
  split at h
  · split at h
    · cases h; rfl
    · split at h <;> cases h
  split at h
  · split at h <;> cases h <;> rfl
  · obtain ⟨c, d, hc⟩ := readBit_eq s.ibitpos.toNat s
    simp only [hc] at h
    split at h
    · cases h
    split at h
    · split at h
      · cases h; rfl
      · split at h <;> cases h
    · cases h

theorem emitSymbol_next {e : Entry} {s t : State} (h : emitSymbol e s = some t) :
    ∃ c, t = { emit (e.sym.setWidth 8) s with decCount := c } := by
  unfold emitSymbol at h
  split at h
  · rename_i c hc
    cases h
    exact ⟨c, rfl⟩
  · cases h

/-- A turn of DECODE that goes on has moved the descent, or written a byte of OBUF that was free. -/
theorem decodeTurn_again {last : Bool} {s t : State} (h : decodeTurn last s = .again t) :
    (t = { s with draws := t.draws, ibitpos := t.ibitpos, decNode := t.decNode }) ∨
    (s.outLen.toNat ≠ s.cfg.obufBytes ∧ ∃ b, t = { emit b s with
      draws := t.draws, ibitpos := t.ibitpos, decNode := t.decNode, decCount := t.decCount }) := by
  unfold decodeTurn at h
  split at h
  · cases h
  split at h
  · cases h
  split at h
  · split at h
    · cases h
    rename_i hroom
    split at h
    · rename_i u hu
      obtain ⟨c, rfl⟩ := emitSymbol_next hu
      cases h
      exact .inr ⟨hroom, _, rfl⟩
    · cases h
  split at h
  · split at h <;> cases h
  · obtain ⟨c, d, hc⟩ := readBit_eq s.ibitpos.toNat s
    simp only [hc] at h
    split at h
    · cases h
    split at h
    · split at h
      · cases h
      rename_i hroom
      split at h
      · rename_i u hu
        obtain ⟨c, rfl⟩ := emitSymbol_next hu
        cases h
        exact .inr ⟨hroom, _, rfl⟩
      · cases h
    · cases h
      exact .inl rfl

theorem decodeBody_frame {last : Bool} {s t : State} {w : Stop} (h : decodeBody last s = .next (t, w)) : DecodeFrame s t := by
  refine loop_rel DecodeFrame.refl .trans (fun h => ?_) (fun h => (decodeTurn_ends h).decodeFrame) h
  rcases decodeTurn_again h with e | ⟨-, b, e⟩ <;> rw [e] <;> rfl

end Sys2Proof.Machine

/-! What commands leave to the host, how the phase flags move, and the frozen table (spec/10_state.md R51, R52, R67). -/

namespace Sys2Proof.Machine

theorem clearBody_next {s t : State} {w : Stop} (h : clearBody s = .next (t, w)) :
    w = .done ∧ t = clearErr (clearDatapath s) := by
  cases h
  exact ⟨rfl, rfl⟩

theorem nopBody_next {s t : State} {w : Stop} (h : stopWith .done s = .next (t, w)) : t = s := by
  cases h
  rfl

/-! ### The host's state (R27, R30, R43, R48, R67) -/

/-- The same host's state, build and record of the host. -/
def SameHost (s t : State) : Prop :=
  t.cfg = s.cfg ∧ t.ibuf = s.ibuf ∧ t.irqEn = s.irqEn ∧ t.nodeSel = s.nodeSel ∧ t.codeSel = s.codeSel ∧ t.inLen = s.inLen ∧
    t.timeline = s.timeline ∧ t.response = s.response ∧ t.busFaults = s.busFaults

/-- No command but CLEAR moves what the host owns. -/
theorem Ran.sameHost {i : Instr} {s t : State} {w : Stop} (h : Ran i s t w) (hi : i ≠ .clear) : SameHost s t := by
  cases i with
  | nop => rw [nopBody_next h.body]; simp [SameHost]
  | clear => exact absurd rfl hi
  | count => rw [countBody_frame h.body]; simp [SameHost]
  | build => rcases buildBody_next h.body with e | ⟨-, -, e⟩ <;> rw [e] <;> simp [SameHost]
  | genCodes => obtain ⟨-, c, -, e⟩ := genCodesBody_next h.body; rw [e]; simp [SameHost]
  | hdrEmit => rcases hdrEmitBody_next h.body with rfl | ⟨-, rfl⟩ <;> simp [SameHost]
  | hdrLoad => rw [hdrLoadBody_frame h.body]; simp [SameHost]
  | encode => rw [encodeBody_frame h.body]; simp [SameHost]
  | flush => rcases flushBody_next h.body with e | ⟨-, -, -, e⟩ | ⟨-, -, e⟩ <;> rw [e] <;> simp [SameHost]
  | decode last => rw [decodeBody_frame h.body]; simp [SameHost]

/-- Settles O54: the frame of the completion and every command's own frame leave the host's state out. -/
theorem commandsLeaveTheHostsStateAlone : Obligations.CommandsLeaveTheHostsStateAlone := by
  unfold Obligations.CommandsLeaveTheHostsStateAlone
  intro i s t h
  rcases exec_next h with ⟨hf, -⟩ | ⟨u, w, hr, rfl⟩
  · rw [hf]
    exact ⟨rfl, rfl, rfl, rfl, rfl, fun _ => rfl, rfl, rfl, rfl⟩
  · by_cases hi : i = .clear
    · subst hi
      obtain ⟨-, rfl⟩ := clearBody_next hr.body
      exact ⟨rfl, rfl, rfl, rfl, rfl, fun h => absurd rfl h, rfl, rfl, rfl⟩
    · obtain ⟨hcfg, hibuf, hirqEn, hnode, hcode, hin, hrest⟩ := hr.sameHost hi
      exact ⟨hcfg, hibuf, hirqEn, hnode, hcode, fun _ => hin, hrest⟩

/-! ### The phase flags (R52) -/

/-- The same three phase flags. -/
def SameFlags (s t : State) : Prop :=
  t.treeValid = s.treeValid ∧ t.codesValid = s.codesValid ∧ t.encClosed = s.encClosed

theorem SameFlags.refl (s : State) : SameFlags s s := ⟨rfl, rfl, rfl⟩

theorem SameFlags.of_invView_eq {s t : State} (e : invView t = invView s) : SameFlags s t :=
  have h : SameFlags (invView s) (invView t) := e ▸ .refl _
  h

theorem HostChange.sameFlags {s t : State} (h : HostChange s t) : SameFlags s t := by
  cases h with
  | nothing e => exact (SameFlags.of_invView_eq e :)
  | table hv f n e => exact (SameFlags.of_invView_eq e :)
  | ibufWord i v hi e => exact (SameFlags.of_invView_eq e :)
  | obufWord i v hi e => exact (SameFlags.of_invView_eq e :)

/-- How the body of a command moves the phase flags (R52). -/
theorem Ran.flags {i : Instr} {s t : State} {w : Stop} (h : Ran i s t w) :
    SameFlags s t ∨ w = .done ∧
      ((i = .clear ∧ t.treeValid = false ∧ t.codesValid = false ∧ t.encClosed = false) ∨
       (i = .build ∧ t.treeValid = true ∧ t.codesValid = s.codesValid ∧ t.encClosed = s.encClosed) ∨
       (i = .genCodes ∧ t.treeValid = s.treeValid ∧ t.codesValid = true ∧ t.encClosed = false) ∨
       (i = .flush ∧ t.treeValid = s.treeValid ∧ t.codesValid = s.codesValid ∧ t.encClosed = true)) := by
  cases i with
  | nop => rw [nopBody_next h.body]; exact .inl (.refl _)
  | clear => obtain ⟨rfl, rfl⟩ := clearBody_next h.body; exact .inr ⟨rfl, .inl ⟨rfl, rfl, rfl, rfl⟩⟩
  | count => rw [countBody_frame h.body]; exact .inl (.refl s)
  | build =>
    rcases buildBody_next h.body with e | ⟨rfl, -, rfl⟩
    · exact .inl (.of_invView_eq e.invView)
    · exact .inr ⟨rfl, .inr (.inl ⟨rfl, rfl, rfl, rfl⟩)⟩
  | genCodes => obtain ⟨rfl, c, -, rfl⟩ := genCodesBody_next h.body; exact .inr ⟨rfl, .inr (.inr (.inl ⟨rfl, rfl, rfl, rfl⟩))⟩
  | hdrEmit => rcases hdrEmitBody_next h.body with rfl | ⟨-, rfl⟩ <;> exact .inl ⟨rfl, rfl, rfl⟩
  | hdrLoad => rw [hdrLoadBody_frame h.body]; exact .inl (.refl s)
  | encode => rw [encodeBody_frame h.body]; exact .inl (.refl s)
  | flush =>
    rcases flushBody_next h.body with e | ⟨rfl, -, -, rfl⟩ | ⟨rfl, -, rfl⟩
    · exact .inl (.of_invView_eq e.invView)
    · exact .inr ⟨rfl, .inr (.inr (.inr ⟨rfl, rfl, rfl, rfl⟩))⟩
    · exact .inr ⟨rfl, .inr (.inr (.inr ⟨rfl, rfl, rfl, rfl⟩))⟩
  | decode last => rw [decodeBody_frame h.body]; exact .inl (.refl s)

/-- Settles O52: an access leaves the flags, reset clears them, and the engine moves them where a command's body does. -/
theorem phaseFlagsMoveOnlyAsListed : Obligations.PhaseFlagsMoveOnlyAsListed := by
  unfold Obligations.PhaseFlagsMoveOnlyAsListed
  intro s t h
  rcases step_next h with ⟨x, rest, -, rfl⟩ | ⟨rest, ht, rfl⟩ | ⟨ht, rest, h⟩
  · exact .inl (hostAccess_hostChange x _).sameFlags
  · exact .inr (.inl ⟨⟨rest, ht⟩, rfl, rfl, rfl⟩)
  · rcases engineStep_next h with hf | ⟨i, u, w, hp, hr, rfl⟩
    · exact .inl (SameFlags.of_invView_eq hf.invView)
    · rcases hr.flags with e | ⟨rfl, ⟨rfl, e⟩ | ⟨rfl, e⟩ | ⟨rfl, e⟩ | ⟨rfl, e⟩⟩
      · exact .inl e
      · exact .inr (.inr ⟨ht, rfl, .inl ⟨hp, e⟩⟩)
      · exact .inr (.inr ⟨ht, rfl, .inr (.inl ⟨hp, e⟩)⟩)
      · exact .inr (.inr ⟨ht, rfl, .inr (.inr (.inl ⟨hp, e⟩))⟩)
      · exact .inr (.inr ⟨ht, rfl, .inr (.inr (.inr ⟨hp, e⟩))⟩)

/-! ### The frozen table (R51) -/

/-- The same table and tree. -/
def SameTable (s t : State) : Prop :=
  t.freq = s.freq ∧ t.total = s.total ∧ t.node = s.node ∧ t.nsym = s.nsym ∧ t.root = s.root

theorem SameTable.refl (s : State) : SameTable s s := ⟨rfl, rfl, rfl, rfl, rfl⟩

theorem SameTable.of_invView_eq {s t : State} (e : invView t = invView s) : SameTable s t :=
  have h : SameTable (invView s) (invView t) := e ▸ .refl _
  h

theorem HostChange.sameTable {s t : State} (h : HostChange s t) (hv : s.treeValid = true) : SameTable s t := by
  cases h with
  | nothing e => exact (SameTable.of_invView_eq e :)
  | table unfrozen f n e => simp [hv] at unfrozen
  | ibufWord i v hi e => exact (SameTable.of_invView_eq e :)
  | obufWord i v hi e => exact (SameTable.of_invView_eq e :)

/-- While TREE_VALID = 1 no command but CLEAR touches the table or the tree: those that would are out of phase (R130). -/
theorem Ran.sameTable {i : Instr} {s t : State} {w : Stop} (h : Ran i s t w) (hs : s.treeValid = true)
    (ht : t.treeValid = true) : SameTable s t := by
  have hphase := h.phase
  cases i with
  | nop => rw [nopBody_next h.body]; simp [SameTable]
  | clear => obtain ⟨-, rfl⟩ := clearBody_next h.body; cases ht
  | count | build | hdrLoad => simp [phaseOK, hs] at hphase
  | genCodes => obtain ⟨-, c, -, rfl⟩ := genCodesBody_next h.body; simp [SameTable]
  | hdrEmit => rcases hdrEmitBody_next h.body with rfl | ⟨-, rfl⟩ <;> simp [SameTable]
  | encode => rw [encodeBody_frame h.body]; simp [SameTable]
  | flush => rcases flushBody_next h.body with e | ⟨-, -, -, e⟩ | ⟨-, -, e⟩ <;> rw [e] <;> simp [SameTable]
  | decode last => rw [decodeBody_frame h.body]; simp [SameTable]

/-- Settles O53: the host's writes to the table are dropped and the commands that write it are out of phase, so only reset and
CLEAR touch it, which end TREE_VALID = 0. -/
theorem builtTableIsNeverMutated : Obligations.BuiltTableIsNeverMutated := by
  unfold Obligations.BuiltTableIsNeverMutated
  intro s t h hs ht
  rcases step_next h with ⟨x, rest, -, rfl⟩ | ⟨rest, -, rfl⟩ | ⟨-, rest, h⟩
  · exact (hostAccess_hostChange x _).sameTable hs
  · cases ht
  · rcases engineStep_next h with hf | ⟨i, u, w, -, hr, rfl⟩
    · exact SameTable.of_invView_eq hf.invView
    · exact hr.sameTable hs ht

end Sys2Proof.Machine

/-! The output of a command that appends (spec/10_state.md R33, R56 (7)): OUT_LEN stays in range, OBUF canonical, the
accumulator zero-padded. -/

namespace Sys2Proof.Machine

/-! ### Appending to OBUF -/

/-- From OUT_LEN in range, OUT_LEN has grown within range and OBUF is still canonical. -/
structure Appends (s t : State) : Prop where
  cfg : t.cfg = s.cfg
  grows : s.outLen.toNat ≤ s.cfg.obufBytes → s.outLen.toNat ≤ t.outLen.toNat
  inRange : s.outLen.toNat ≤ s.cfg.obufBytes → t.outLen.toNat ≤ s.cfg.obufBytes
  canonical : s.outLen.toNat ≤ s.cfg.obufBytes → Memory.wf s.cfg.obufBytes s.obuf → Memory.wf s.cfg.obufBytes t.obuf

theorem Appends.of_eq {s t : State} (hc : t.cfg = s.cfg) (hl : t.outLen = s.outLen) (hm : t.obuf = s.obuf) : Appends s t :=
  ⟨hc, fun _ => by rw [hl], fun h => by rwa [hl], fun _ h => by rwa [hm]⟩

theorem Appends.refl (s : State) : Appends s s := .of_eq rfl rfl rfl

theorem Appends.trans {s t u : State} (h : Appends s t) (h' : Appends t u) : Appends s u where
  cfg := h'.cfg.trans h.cfg
  grows hs := (h.grows hs).trans (h'.grows (h.cfg ▸ h.inRange hs))
  inRange hs := h.cfg ▸ h'.inRange (h.cfg ▸ h.inRange hs)
  canonical hs hm := by
    have := h'.canonical (h.cfg ▸ h.inRange hs)
    rw [h.cfg] at this
    exact this (h.canonical hs hm)

theorem OnlyRecords.appends {s t : State} (h : OnlyRecords s t) : Appends s t := by
  rw [h]
  exact .of_eq rfl rfl rfl

theorem outLen_add_one_toNat {s : State} (h : s.outLen.toNat < s.cfg.obufBytes) :
    (s.outLen + 1).toNat = s.outLen.toNat + 1 := by
  have hsize := s.cfg.obufOk.2.1
  bv_omega

theorem appends_emit {s : State} (b : Byte) (h : s.outLen.toNat ≠ s.cfg.obufBytes) : Appends s (emit b s) where
  cfg := rfl
  grows hs := by
    rw [emit_outLen, outLen_add_one_toNat (by omega)]
    omega
  inRange hs := by
    rw [emit_outLen, outLen_add_one_toNat (by omega)]
    omega
  canonical hs hm := Memory.write_wf hm (by omega)

/-! ### `putbit` (R184) -/

/-- The bits produced so far, pending ones included. -/
def bitsOut (s : State) : Nat := 8 * s.outLen.toNat + s.accN.toNat

/-- A bit for which OBUF has room: a byte is emitted where it fits, and the bit counts once. -/
theorem putbit_output {s : State} (x : Bool) (h : bitsOut s + 1 < 8 * (s.cfg.obufBytes + 1)) :
    bitsOut (putbit x s) = bitsOut s + 1 ∧
      (Memory.wf s.cfg.obufBytes s.obuf → Memory.wf s.cfg.obufBytes (putbit x s).obuf) := by
  unfold bitsOut at h ⊢
  unfold putbit
  simp only
  split
  · rename_i hn
    have hn7 : s.accN.toNat = 7 := congrArg BitVec.toNat hn
    have ho := outLen_add_one_toNat (s := s) (by omega)
    refine ⟨?_, fun hm => Memory.write_wf hm (by omega)⟩
    change 8 * (s.outLen + 1).toNat + 0 = _
    omega
  · rename_i hn
    have hn' : (s.accN + 1).toNat = s.accN.toNat + 1 := by bv_omega
    exact ⟨by simp only [hn']; omega, id⟩

@[simp] theorem putbit_cfg (x : Bool) (s : State) : (putbit x s).cfg = s.cfg := by rw [putbit_frame]

theorem putbits_output {s : State} (xs : List Bool) (h : bitsOut s + xs.length < 8 * (s.cfg.obufBytes + 1)) :
    bitsOut (putbits xs s) = bitsOut s + xs.length ∧
      (Memory.wf s.cfg.obufBytes s.obuf → Memory.wf s.cfg.obufBytes (putbits xs s).obuf) := by
  induction xs generalizing s with
  | nil => exact ⟨rfl, id⟩
  | cons x xs ih =>
    rw [List.length_cons] at h ⊢
    obtain ⟨hx, hmx⟩ := putbit_output x (s := s) (by omega)
    obtain ⟨hxs, hmxs⟩ := ih (s := putbit x s) (by rw [hx, putbit_cfg]; omega)
    rw [putbit_cfg] at hmxs
    exact ⟨by rw [putbits, hxs, hx]; omega, fun hm => hmxs (hmx hm)⟩

theorem appends_putbits {s : State} (xs : List Bool)
    (h : s.outLen.toNat + (s.accN.toNat + xs.length) / 8 ≤ s.cfg.obufBytes) : Appends s (putbits xs s) := by
  have hn := s.accN.isLt
  obtain ⟨hbits, hm⟩ := putbits_output xs (s := s) (by unfold bitsOut; omega)
  have hn' := (putbits xs s).accN.isLt
  unfold bitsOut at hbits
  exact ⟨by rw [putbits_frame], fun _ => by omega, fun _ => by omega, fun _ => hm⟩

/-- The new bit goes just below the pending ones. -/
theorem putbit_accPadded {s : State} (x : Bool) (h : accPadded s) : accPadded (putbit x s) := by
  intro k hk
  unfold putbit at hk ⊢
  simp only at hk ⊢
  split at hk
  · rename_i hn
    simp [hn]
  · rename_i hn
    have hn' : (s.accN + 1).toNat = s.accN.toNat + 1 := by bv_omega
    simp only [hn'] at hk
    rw [if_neg hn, withBit_getLsbD _ _ _ (by omega), if_neg (by omega)]
    exact h k (by omega)

theorem putbits_accPadded {s : State} (xs : List Bool) (h : accPadded s) : accPadded (putbits xs s) := by
  induction xs generalizing s with
  | nil => exact h
  | cons x xs ih => exact ih (putbit_accPadded x h)

/-! ### The bodies of the commands that append -/

theorem hdrEmitBody_appends {s t : State} {w : Stop} (h : hdrEmitBody s = .next (t, w)) : Appends s t := by
  have hsize := s.cfg.obufOk.2.1
  rcases hdrEmitBody_next h with rfl | ⟨hfit, rfl⟩
  · exact .refl _
  · have hl : (BitVec.ofNat 15 (s.outLen.toNat + headerSize)).toNat = s.outLen.toNat + headerSize := by
      rw [BitVec.toNat_ofNat]
      omega
    exact ⟨rfl, fun _ => by simp only [hl]; omega, fun _ => by simp only [hl]; omega,
      fun _ hm => Memory.writeList_wf hm (by rwa [headerBytes_length])⟩

theorem encodeBody_appends {s t : State} {w : Stop} (h : encodeBody s = .next (t, w)) : Appends s t := by
  refine loop_rel Appends.refl .trans (fun {s _} h => ?_) (fun h => (encodeTurn_ends h).appends) h
  obtain ⟨b, d, c, n, -, -, -, hroom, rfl⟩ := encodeTurn_again h
  have draw : Appends s { s with draws := d } := .of_eq rfl rfl rfl
  have put := appends_putbits (s := { s with draws := d }) (symGet s.code b) hroom
  exact draw.trans (put.trans (.of_eq rfl rfl rfl))

theorem flushBody_appends {s t : State} {w : Stop} (h : flushBody s = .next (t, w)) : Appends s t := by
  rcases flushBody_next h with e | ⟨-, -, hroom, rfl⟩ | ⟨-, -, rfl⟩
  · exact e.appends
  · exact (appends_emit s.accBits hroom).trans (.of_eq rfl rfl rfl)
  · exact .of_eq rfl rfl rfl

theorem decodeBody_appends {last : Bool} {s t : State} {w : Stop} (h : decodeBody last s = .next (t, w)) : Appends s t := by
  refine loop_rel Appends.refl .trans (fun h => ?_) (fun h => (decodeTurn_ends h).appends) h
  rcases decodeTurn_again h with e | ⟨hroom, b, e⟩ <;> rw [e]
  · exact .of_eq rfl rfl rfl
  · exact (appends_emit b hroom).trans (.of_eq rfl rfl rfl)

/-- The commands that check OUT_LEN (log 18) append within range. -/
theorem Ran.appends {i : Instr} {s t : State} {w : Stop} (h : Ran i s t w)
    (hi : i ∈ [Instr.hdrEmit, .encode, .flush, .decode false, .decode true]) :
    Appends s t ∧ s.outLen.toNat ≤ s.cfg.obufBytes := by
  obtain ⟨-, hq, hb⟩ := h
  cases i with
  | hdrEmit => exact ⟨hdrEmitBody_appends hb, of_decide_eq_true hq⟩
  | encode => exact ⟨encodeBody_appends hb, of_decide_eq_true (Bool.and_eq_true_iff.mp hq).2⟩
  | flush => exact ⟨flushBody_appends hb, of_decide_eq_true hq⟩
  | decode last => exact ⟨decodeBody_appends hb, of_decide_eq_true (Bool.and_eq_true_iff.mp hq).2⟩
  | _ => simp at hi

/-- Settles O55: without a refusal, SEQ or BOUNDS the body has run from OUT_LEN in range, and it appends. -/
theorem outputStaysInRange : Obligations.OutputStaysInRange := by
  unfold Obligations.OutputStaysInRange
  intro i s t hi he h hseq hbounds
  rcases exec_next h with ⟨-, hbad⟩ | ⟨u, w, hr, rfl⟩
  · rcases hbad with hbad | hbad | hbad <;> contradiction
  · obtain ⟨ha, hs⟩ := hr.appends hi
    exact ⟨ha.cfg ▸ ha.inRange hs, ha.grows hs⟩

end Sys2Proof.Machine

/-! Every step keeps the invariants (spec/10_state.md R56). -/

namespace Sys2Proof.Machine

/-! ### Reset, CLEAR and the open table -/

theorem inv_clearDatapath {s : State} (h : buffersCanonical s) : Inv (clearDatapath s) where
  buffers := h
  phases := ⟨nofun, nofun⟩
  acc _ _ := BitVec.getLsbD_zero
  counters := ⟨Nat.zero_le _, Nat.zero_le _, Nat.zero_le _⟩
  frozen := nofun
  tree := nofun
  noTree _ := ⟨rfl, rfl, rfl, rfl, rfl⟩
  noCodes _ := ⟨rfl, rfl, rfl, rfl, rfl⟩
  codes := nofun
  descent := nofun

theorem inv_resetWith (c : Config) : Inv (State.resetWith c) :=
  (inv_clearDatapath (s := State.resetWith c) ⟨Memory.nil_wf _, Memory.nil_wf _⟩).of_invView_eq rfl

theorem inv_hardwareReset (s : State) : Inv (hardwareReset s) := (inv_resetWith s.cfg).of_invView_eq rfl

/-- Settles O57: no flag is set and every counter is 0, so each invariant is void or speaks of reset values. -/
theorem resetMeetsTheInvariants : Obligations.ResetMeetsTheInvariants := by
  unfold Obligations.ResetMeetsTheInvariants
  exact inv_resetWith

/-- Without a tree there are no codes and nothing has been encoded (R52, R56 (5)). -/
theorem Inv.encoder_of_no_tree {s : State} (h : Inv s) (hv : s.treeValid = false) :
    s.codesValid = false ∧ s.encCount = 0 ∧ s.encBits = 0 := by
  have hc : s.codesValid = false := by
    by_contra hc
    simp [h.phases.1 (by simpa using hc)] at hv
  obtain ⟨-, -, -, hcount, hbits⟩ := h.noCodes hc
  exact ⟨hc, hcount, hbits⟩

/-- While TREE_VALID = 0 no invariant ties the table to anything but counters that are 0. -/
theorem Inv.withTable {s : State} (h : Inv s) (hv : s.treeValid = false) (f : Vector Word 256) (n : Word) :
    Inv { s with freq := f, total := n } := by
  obtain ⟨-, hcount, hbits⟩ := h.encoder_of_no_tree hv
  obtain ⟨-, -, -, -, hdec⟩ := h.noTree hv
  refine ⟨h.buffers, h.phases, h.acc, ?_, ?_, ?_, h.noTree, h.noCodes, h.codes, ?_⟩
  · simp [countersBounded, hcount, hbits, hdec]
  all_goals exact fun e => absurd e (by simp [hv])

/-- COUNT and HDR_LOAD run only while the table is open (R130). -/
theorem TableFrame.inv {s t : State} (h : TableFrame s t) (hi : Inv s) (hv : s.treeValid = false) : Inv t := by
  rw [h]
  exact (hi.withTable hv t.freq t.total).of_invView_eq rfl

theorem Inv.withIbuf {s : State} (h : Inv s) {m : List Host.Cell} (hm : Memory.wf s.cfg.ibufBytes m) :
    Inv { s with ibuf := m } :=
  ⟨⟨hm, h.buffers.2⟩, h.phases, h.acc, h.counters, h.frozen, h.tree, h.noTree, h.noCodes, h.codes, h.descent⟩

theorem Inv.withObuf {s : State} (h : Inv s) {m : List Host.Cell} (hm : Memory.wf s.cfg.obufBytes m) :
    Inv { s with obuf := m } :=
  ⟨⟨h.buffers.1, hm⟩, h.phases, h.acc, h.counters, h.frozen, h.tree, h.noTree, h.noCodes, h.codes, h.descent⟩

theorem HostChange.inv {s t : State} (h : HostChange s t) (hi : Inv s) : Inv t := by
  cases h with
  | nothing e => exact hi.of_invView_eq e
  | table hv f n e => exact (hi.withTable hv f n).of_invView_eq e
  | ibufWord i v fits e => exact (hi.withIbuf (Memory.writeList_wf hi.buffers.1 fits)).of_invView_eq e
  | obufWord i v fits e => exact (hi.withObuf (Memory.writeList_wf hi.buffers.2 fits)).of_invView_eq e

/-! ### BUILD and GENCODES -/

/-- What BUILD writes meets the invariants when the sum is TOTAL (R154, R157). -/
theorem Inv.built {s : State} (h : Inv s) (hv : s.treeValid = false) (hsum : freqSum s.freq = s.total.toNat) :
    Inv { s with
      node := buildArena s.freq
      root := buildRoot s.freq
      nsym := BitVec.ofNat 9 (symbolCount s.freq)
      decNode := buildRoot s.freq
      decCount := 0
      treeValid := true } := by
  obtain ⟨hc, hcount, hbits⟩ := h.encoder_of_no_tree hv
  have hn := symbolCount_le s.freq
  have hn' : (BitVec.ofNat 9 (symbolCount s.freq)).toNat = symbolCount s.freq := Nat.mod_eq_of_lt (by omega)
  exact ⟨h.buffers, ⟨fun _ => rfl, h.phases.2⟩, h.acc, ⟨h.counters.1, Nat.zero_le _, h.counters.2.2⟩, fun _ => hsum,
    fun _ => ⟨rfl, rfl, hn'⟩, nofun, h.noCodes, fun e => absurd e (by simp [hc]), fun _ => .inl rfl⟩

/-- What GENCODES writes meets the invariants. -/
theorem Inv.coded {s : State} (h : Inv s) (hv : s.treeValid = true) {c : Vector (List Bool) 256}
    (hc : codeTable s.node s.root s.nsym.toNat = .ok c) :
    Inv { s with
      code := c
      accBits := 0
      accN := 0
      encCount := 0
      encBits := 0
      codesValid := true
      encClosed := false } :=
  ⟨h.buffers, ⟨fun _ => hv, nofun⟩, fun _ _ => BitVec.getLsbD_zero,
    ⟨Nat.zero_le _, h.counters.2.1, Nat.zero_le _⟩, h.frozen, h.tree, h.noTree, nofun, fun _ => hc, h.descent⟩

/-! ### The encoder -/

/-- ENCODE keeps the counters within TOTAL and R39's bound, while no code is longer than 255 bits. -/
theorem encodeBody_keeps {s t : State} {w : Stop} (h : encodeBody s = .next (t, w)) (ha : accPadded s)
    (hk : countersBounded s) (hl : ∀ b, (symGet s.code b).length ≤ maxCodeLen) : accPadded t ∧ countersBounded t := by
  refine loop_induct (I := fun s => accPadded s ∧ countersBounded s ∧ ∀ b, (symGet s.code b).length ≤ maxCodeLen)
    (Q := fun t _ => accPadded t ∧ countersBounded t) (fun s t hi h => ?_) (fun s t w hi h => ?_) _ s t w ⟨ha, hk, hl⟩ h
  · obtain ⟨ha, ⟨hcount, hdec, hbits⟩, hl⟩ := hi
    obtain ⟨b, d, c, n, hne, hc, hn, -, rfl⟩ := encodeTurn_again h
    have hlt : s.encCount.toNat < s.total.toNat := lt_of_le_of_ne hcount fun e => hne (BitVec.eq_of_toNat_eq e)
    have hlen := hl b
    have hc' := bump_toNat hc
    have hn' := bump_toNat hn
    unfold maxCodeLen at hlen
    have hpad := putbits_accPadded (s := { s with draws := d }) (symGet s.code b) ha
    rw [putbits_frame] at hpad ⊢
    exact ⟨hpad, ⟨by simp only [hc']; omega, hdec, by simp only [hc', hn']; omega⟩, hl⟩
  · obtain ⟨ha, hk, -⟩ := hi
    rw [encodeTurn_ends h]
    exact ⟨ha, hk⟩

theorem encodeBody_inv {s t : State} {w : Stop} (h : encodeBody s = .next (t, w)) (hi : Inv s) (hc : s.codesValid = true)
    (ho : s.outLen.toNat ≤ s.cfg.obufBytes) : Inv t := by
  obtain ⟨ha, hk⟩ := encodeBody_keeps h hi.acc hi.counters (codeTable_length (hi.codes hc))
  have hm := (encodeBody_appends h).canonical ho hi.buffers.2
  have hf := encodeBody_frame h
  rw [hf] at ha hk ⊢
  exact ⟨⟨hi.buffers.1, hm⟩, hi.phases, ha, hk, hi.frozen, hi.tree, hi.noTree, fun e => absurd e (by simp [hc]), hi.codes, hi.descent⟩

theorem flushBody_inv {s t : State} {w : Stop} (h : flushBody s = .next (t, w)) (hi : Inv s) (hc : s.codesValid = true)
    (ho : s.outLen.toNat ≤ s.cfg.obufBytes) : Inv t := by
  have hm := (flushBody_appends h).canonical ho hi.buffers.2
  have hphases : ∀ b, (s.codesValid = true → s.treeValid = true) ∧ (b = true → s.codesValid = true) :=
    fun _ => ⟨hi.phases.1, fun _ => hc⟩
  rcases flushBody_next h with e | ⟨-, -, -, rfl⟩ | ⟨-, -, rfl⟩
  · exact hi.of_invView_eq e.invView
  · exact ⟨⟨hi.buffers.1, hm⟩, hphases _, fun _ _ => BitVec.getLsbD_zero, hi.counters, hi.frozen, hi.tree, hi.noTree,
      fun e => absurd e (by simp [hc]), hi.codes, hi.descent⟩
  · exact ⟨hi.buffers, hphases _, hi.acc, hi.counters, hi.frozen, hi.tree, hi.noTree, hi.noCodes, hi.codes, hi.descent⟩

/-! ### The decoder -/

/-- DECODE stays in the tree and in range, to its end. -/
theorem decodeBody_keeps {last : Bool} {s t : State} {w : Stop} (h : decodeBody last s = .next (t, w)) (hs : DecodeSafe s) :
    DecodeSafe t := by
  refine loop_induct (I := DecodeSafe) (Q := fun t _ => DecodeSafe t) (fun s t hs h => ?_) (fun s t w hs h => ?_) _ s t w hs h
  · rcases decodeTurn_advances last s hs with ⟨_, _, e⟩ | ⟨u, e, hu, -⟩ <;> rw [h] at e <;> cases e
    exact hu
  · rw [decodeTurn_ends h]
    exact ⟨hs.valid, hs.tree, hs.frozen, hs.descent, hs.count, hs.input, hs.output⟩

theorem decodeBody_inv {last : Bool} {s t : State} {w : Stop} (h : decodeBody last s = .next (t, w)) (hi : Inv s)
    (hs : DecodeSafe s) : Inv t := by
  obtain ⟨hv, -, -, hdescent, hcount, -, -⟩ := decodeBody_keeps h hs
  have hm := (decodeBody_appends h).canonical hs.output hi.buffers.2
  have hf := decodeBody_frame h
  rw [hf] at hdescent hcount ⊢
  exact ⟨⟨hi.buffers.1, hm⟩, hi.phases, hi.acc, ⟨hi.counters.1, hcount, hi.counters.2.2⟩, hi.frozen, hi.tree,
    fun e => absurd e (by simp [hs.valid]), hi.noCodes, hi.codes, hdescent⟩

/-! ### The step -/

/-- The body of every command keeps the invariants. -/
theorem Ran.inv {i : Instr} {s t : State} {w : Stop} (h : Ran i s t w) (hi : Inv s) : Inv t := by
  obtain ⟨hp, hq, hb⟩ := h
  cases i with
  | nop => rwa [nopBody_next hb]
  | clear => obtain ⟨-, rfl⟩ := clearBody_next hb; exact (inv_clearDatapath hi.buffers).of_invView_eq rfl
  | count => exact (countBody_frame hb).inv hi (by simpa [phaseOK] using hp)
  | build =>
    rcases buildBody_next hb with e | ⟨-, hsum, rfl⟩
    · exact hi.of_invView_eq e.invView
    · exact hi.built (by simpa [phaseOK] using hp) hsum
  | genCodes => obtain ⟨-, c, hc, rfl⟩ := genCodesBody_next hb; exact hi.coded (Bool.and_eq_true_iff.mp hp).1 hc
  | hdrEmit =>
    have hm := (hdrEmitBody_appends hb).canonical (of_decide_eq_true hq) hi.buffers.2
    rcases hdrEmitBody_next hb with rfl | ⟨-, rfl⟩
    · exact hi
    · exact (hi.withObuf hm).of_invView_eq (by simp only [invView])
  | hdrLoad => exact (hdrLoadBody_frame hb).inv hi (by simpa [phaseOK] using hp)
  | encode =>
    exact encodeBody_inv hb hi (Bool.and_eq_true_iff.mp hp).1 (of_decide_eq_true (Bool.and_eq_true_iff.mp hq).2)
  | flush => exact flushBody_inv hb hi (Bool.and_eq_true_iff.mp hp).1 (of_decide_eq_true hq)
  | decode last => exact decodeBody_inv hb hi (hi.decodeSafe hp hq)

/-- Settles O58: an access stores into an open table or inside a buffer, reset gives the reset state, and the engine's turn moves
the frame alone or runs the body of a command in phase and in range, which keeps the invariants. -/
theorem stepKeepsTheInvariants : Obligations.StepKeepsTheInvariants := by
  unfold Obligations.StepKeepsTheInvariants
  intro s t hi h
  rcases step_next h with ⟨x, rest, -, rfl⟩ | ⟨rest, -, rfl⟩ | ⟨-, rest, h⟩
  · exact (hostAccess_hostChange x _).inv (hi.withTimeline rest)
  · exact inv_hardwareReset _
  · rcases engineStep_next h with hf | ⟨i, u, w, -, hr, rfl⟩
    · exact (hi.withTimeline rest).of_invView_eq hf.invView
    · have hu := hr.inv (hi.of_invView_eq rfl)
      exact hu.of_invView_eq rfl

end Sys2Proof.Machine

/-! The window and the buffers (spec/20_memory.md): which offsets reach a word, what a bus error and a dropped write leave, and the
bytes of a buffer word. -/

namespace Sys2Proof.Machine

/-! ### The map (R60, R74) -/

theorem reach_word (c : Config) {a : Offset} (h : a.toNat % 4 = 0) : reach c a .word = target c a := by
  simp [reach, h]

/-- The words of IBUF lie from 0x4000 on; no range of the map before it comes so far. -/
theorem target_ibuf {c : Config} {a : Offset} (h : 0x4000 ≤ a.toNat) (h' : a.toNat < 0x4000 + c.ibufBytes) :
    target c a = some (.ibuf (a.toNat - 0x4000)) := by
  simp (disch := omega) only [target, if_pos, if_neg]

/-- The words of OBUF lie from 0x8000 on, where IBUF has ended (R6). -/
theorem target_obuf {c : Config} {a : Offset} (h : 0x8000 ≤ a.toNat) (h' : a.toNat < 0x8000 + c.obufBytes) :
    target c a = some (.obuf (a.toNat - 0x8000)) := by
  have hi := c.ibufOk.2.1
  simp (disch := omega) only [target, if_pos, if_neg]

theorem reach_ibuf (c : Config) {k : Nat} (h : 4 * k < c.ibufBytes) :
    reach c (BitVec.ofNat 16 (0x4000 + 4 * k)) .word = some (.ibuf (4 * k)) := by
  have hsize := c.ibufOk.2.1
  have hn : (BitVec.ofNat 16 (0x4000 + 4 * k)).toNat = 0x4000 + 4 * k := Nat.mod_eq_of_lt (by omega)
  rw [reach_word c (by omega), target_ibuf (by omega) (by omega), hn, Nat.add_sub_cancel_left]

theorem reach_obuf (c : Config) {k : Nat} (h : 4 * k < c.obufBytes) :
    reach c (BitVec.ofNat 16 (0x8000 + 4 * k)) .word = some (.obuf (4 * k)) := by
  have hsize := c.obufOk.2.1
  have hn : (BitVec.ofNat 16 (0x8000 + 4 * k)).toNat = 0x8000 + 4 * k := Nat.mod_eq_of_lt (by omega)
  rw [reach_word c (by omega), target_obuf (by omega) (by omega), hn, Nat.add_sub_cancel_left]

/-- Between the five ranges of the map nothing is reached. -/
theorem target_reserved {c : Config} {a : Offset}
    (h : (0x8C ≤ a.toNat ∧ a.toNat < 0x400) ∨ (0x800 ≤ a.toNat ∧ a.toNat < 0x4000) ∨
      (0x4000 + c.ibufBytes ≤ a.toNat ∧ a.toNat < 0x8000) ∨ (0x8000 + c.obufBytes ≤ a.toNat ∧ a.toNat < 0xC000) ∨
      0xC000 ≤ a.toNat) : target c a = none := by
  have hi := c.ibufOk.2.1
  have ho := c.obufOk.2.1
  rcases h with h | h | h | h | h <;> simp (disch := omega) only [target, if_pos, if_neg]

/-- Settles O42: the offsets of the table are those of `Reg.offset`, the word k of FREQ or of a buffer lies 4 k past its start,
and the three constants are among the registers that read their values also while BUSY = 1. -/
theorem everyMappedWordIsReached : Obligations.EveryMappedWordIsReached := by
  unfold Obligations.EveryMappedWordIsReached
  refine ⟨fun c => ⟨fun p hp => ?_, fun k => reach_reg c (.codeW k), reach_freq c, fun k => reach_ibuf c,
    fun k => reach_obuf c⟩, fun s => ?_⟩
  · obtain ⟨r, -, rfl⟩ : ∃ r ∈ Reg.all.take 27, (BitVec.ofNat 16 r.offset, r) = p := List.mem_map.mp hp
    exact reach_reg c r
  · rw [readTarget_of_mem_plainBusy (by decide), readTarget_of_mem_plainBusy (by decide),
      readTarget_of_mem_plainBusy (by decide)]
    have hi := s.cfg.ibufOk.2.1
    have ho := s.cfg.obufOk.2.1
    refine ⟨rfl, rfl, ?_⟩
    rw [readReg, configWord_eq, BitVec.toNat_ofNat]
    omega

/-! ### Bus errors (R62-R64, R74) -/

theorem step_host {s : State} {x : Access} {rest : List Event} (ht : s.timeline = .host x :: rest) :
    step s = .next (hostAccess x { s with timeline := rest }) := by
  simp only [step, advance, ht, takeEvent]

/-- An access that reaches nothing is a bus error. -/
theorem hostAccess_of_reach_none {s : State} {a : Offset} {w : Width} {x : Access}
    (hx : x = .read a w ∨ ∃ v, x = .write a w v) (h : reach s.cfg a w = none) : hostAccess x s = busError a s := by
  rcases hx with rfl | ⟨v, rfl⟩ <;> simp only [hostAccess, h]

/-- Settles O43: such an access reaches nothing. -/
theorem busErrorHasNoEffect : Obligations.BusErrorHasNoEffect := by
  unfold Obligations.BusErrorHasNoEffect
  intro s a w x rest ht hx h
  have hnone : reach s.cfg a w = none := by
    unfold reach
    split
    · rename_i hw
      exact target_reserved (by tauto)
    · rfl
  rw [step_host ht, hostAccess_of_reach_none (s := { s with timeline := rest }) hx hnone]
  rfl

/-! ### Reads (R72) -/

/-- A read that reaches a word moves the draw counter alone, and one that reaches none is a bus error. -/
theorem hostAccess_read_frame (a : Offset) (w : Width) (s : State) :
    hostAccess (.read a w) s = { s with
      response := (hostAccess (.read a w) s).response
      busFaults := (hostAccess (.read a w) s).busFaults
      draws := (hostAccess (.read a w) s).draws } := by
  cases h : reach s.cfg a w with
  | none => rw [hostAccess_of_reach_none (.inl rfl) h]; rfl
  | some g => simp only [hostAccess, h]; rw [readTarget_state]

/-- Settles O49: a step that begins with a read is that read, whose frame is the model's own fields. -/
theorem readsHaveNoSideEffect : Obligations.ReadsHaveNoSideEffect := by
  unfold Obligations.ReadsHaveNoSideEffect
  intro s t a w rest ht h
  rw [step_host ht, Host.Outcome.next.injEq] at h
  subst h
  exact hostAccess_read_frame a w { s with timeline := rest }

/-! ### Writes while BUSY = 1 (R65, R223) -/

/-- The registers whose writes R65 drops, in offset order. -/
def Reg.busyDropped : List Reg := [.cmd, .inLen, .ipos, .ibitpos, .outLen, .total, .nodeSel, .codeSel]

theorem Reg.droppedBusy_of_mem {r : Reg} (h : r ∈ Reg.busyDropped) : r.droppedBusy = true := by
  fin_cases h <;> rfl

theorem Reg.droppedBusy_of_mem_readOnly {r : Reg} (h : r ∈ Reg.readOnly) : r.droppedBusy = false := by
  fin_cases h <;> rfl

/-- A register is dropped, written as while BUSY = 0 (R26-R28), or read-only. -/
theorem Reg.mem_readOnly_of_not_mem {r : Reg} (h : r ∉ Reg.busyDropped ++ [.irqEn, .irqStat, .errClr]) : r ∈ Reg.readOnly := by
  cases r with
  | codeW k => fin_cases k <;> decide
  | _ => revert h; decide

theorem writeTarget_busy {s : State} (h : s.busy = true) (g : Target) (v : Word) : writeTarget g v s = writeBusy g v s := by
  rw [writeTarget, if_pos h]

/-- Settles O44: of the words of the window R65 drops the buffers, FREQ and eight registers; a register that is neither dropped nor
written is read-only. -/
theorem busyDropsWrites : Obligations.BusyDropsWrites := by
  unfold Obligations.BusyDropsWrites
  intro s a v rest g ht hb hg
  rw [step_write ht hg]
  refine ⟨fun hdrop => ?_, fun ⟨r, hgr, hr⟩ => ?_⟩
  · have hrec : writeTarget g v { s with timeline := rest } = recordErr .busyWrite { s with timeline := rest } := by
      rw [writeTarget_busy (s := { s with timeline := rest }) hb]
      rcases hdrop with hreg | ⟨b, rfl⟩ | ⟨i, rfl⟩ | ⟨i, rfl⟩
      · obtain ⟨r, hr, rfl⟩ : ∃ r ∈ Reg.busyDropped, Target.reg r = g := List.mem_map.mp hreg
        simp only [writeBusy, Reg.droppedBusy_of_mem hr, if_true]
      all_goals rfl
    rw [hrec]
    rfl
  · have hro := Reg.mem_readOnly_of_not_mem hr
    rw [hgr, writeTarget_of_not_droppedBusy (Reg.droppedBusy_of_mem_readOnly hro), writeReg_readOnly hro]

/-! ### Buffer words (R67, R68, R70) -/

theorem byteOf_eq_ofNat (w : Word) (j : Nat) : byteOf w j = BitVec.ofNat 8 (w.toNat / 2 ^ (8 * j)) := by
  rw [byteOf, BitVec.extractLsb', Nat.shiftRight_eq_div_pow]

theorem Memory.read_writeList_bytesOf (m : List Host.Cell) (a : Nat) (v : Word) {j : Nat} (hj : j < 4) :
    Memory.read (Memory.writeList m a (bytesOf v)) (a + j) = some (byteOf v j) := by
  rw [Memory.read_writeList_at hj]
  interval_cases j <;> rfl

/-- A little-endian word of OBUF whose four bytes are written. -/
theorem readObufWord_some {s : State} {i : Nat} {b0 b1 b2 b3 : Byte} (h0 : Memory.read s.obuf i = some b0)
    (h1 : Memory.read s.obuf (i + 1) = some b1) (h2 : Memory.read s.obuf (i + 2) = some b2)
    (h3 : Memory.read s.obuf (i + 3) = some b3) : readObufWord i s = (wordOf b0 b1 b2 b3, s) := by
  simp [readObufWord, readObuf, h0, h1, h2, h3, byteOrDraw]

/-- A word of IBUF reads back as it was written, without a draw. -/
theorem readIbufWord_written {s : State} {m : List Host.Cell} {i : Nat} {v : Word}
    (h : s.ibuf = Memory.writeList m i (bytesOf v)) : readIbufWord i s = (v, s) := by
  have byte {j : Nat} (hj : j < 4) : Memory.read s.ibuf (i + j) = some (byteOf v j) :=
    h ▸ Memory.read_writeList_bytesOf m i v hj
  rw [readIbufWord, readWord_some (p := i) (byte (j := 0) (by decide)) (byte (j := 1) (by decide)) (byte (j := 2) (by decide))
    (byte (j := 3) (by decide)), wordOf_bytes]

/-- A word of OBUF reads back as it was written, without a draw. -/
theorem readObufWord_written {s : State} {m : List Host.Cell} {i : Nat} {v : Word}
    (h : s.obuf = Memory.writeList m i (bytesOf v)) : readObufWord i s = (v, s) := by
  have byte {j : Nat} (hj : j < 4) : Memory.read s.obuf (i + j) = some (byteOf v j) :=
    h ▸ Memory.read_writeList_bytesOf m i v hj
  rw [readObufWord_some (i := i) (byte (j := 0) (by decide)) (byte (j := 1) (by decide)) (byte (j := 2) (by decide))
    (byte (j := 3) (by decide)), wordOf_bytes]

theorem step_write_idle {s : State} (h : s.pending = none) {a : Offset} {v : Word} {rest : List Event} {g : Target}
    (ht : s.timeline = .host (.write a .word v) :: rest) (hg : reach s.cfg a .word = some g) :
    step s = .next { writeIdle g v { s with timeline := rest } with response := some ⟨0, false⟩ } := by
  rw [step_write ht hg, writeTarget_idle (s := { s with timeline := rest }) h]

/-- The read of a word that moves nothing, while BUSY = 0. -/
theorem step_read_idle {s : State} (h : s.pending = none) {a : Offset} {d : Word} {rest : List Event} {g : Target}
    (ht : s.timeline = .host (.read a .word) :: rest) (hg : reach s.cfg a .word = some g)
    (hr : readIdle g { s with timeline := rest } = (d, { s with timeline := rest })) :
    step s = .next { s with timeline := rest, response := some ⟨d, false⟩ } := by
  rw [step_read ht hg, readTarget_idle (s := { s with timeline := rest }) h, hr]

/-- Settles O48: the write stores the four bytes of the word, and the read finds all four written. -/
theorem bufferWordsAreLittleEndian : Obligations.BufferWordsAreLittleEndian := by
  unfold Obligations.BufferWordsAreLittleEndian
  intro s v k h
  have bytes (m : List Host.Cell) (j : Nat) (hj : j < 4) :
      Memory.read (Memory.writeList m (4 * k) (bytesOf v)) (4 * k + j) = some (BitVec.ofNat 8 (v.toNat / 2 ^ (8 * j))) := by
    rw [Memory.read_writeList_bytesOf m _ v hj, byteOf_eq_ofNat]
  refine ⟨fun hk ht => ?_, fun hk ht => ?_⟩
  · have hg := reach_ibuf s.cfg hk
    exact ⟨_, _, step_write_idle h ht hg, step_read_idle (by exact h) rfl hg (readIbufWord_written rfl), rfl, rfl, bytes s.ibuf,
      fun p hp => Memory.read_writeList_other hp, rfl⟩
  · have hg := reach_obuf s.cfg hk
    exact ⟨_, _, step_write_idle h ht hg, step_read_idle (by exact h) rfl hg (readObufWord_written rfl), rfl, rfl, bytes s.obuf,
      fun p hp => Memory.read_writeList_other hp, rfl⟩

/-! ### The canonical form (R60, R71) -/

theorem buffersCanonical_of_invView_eq {s t : State} (e : invView t = invView s) (h : buffersCanonical s) :
    buffersCanonical t :=
  have h' : buffersCanonical (invView s) := h
  have ht : buffersCanonical (invView t) := e ▸ h'
  ht

theorem HostChange.buffersCanonical {s t : State} (h : HostChange s t) (hs : buffersCanonical s) : buffersCanonical t := by
  obtain ⟨hi, ho⟩ := hs
  cases h with
  | nothing e => exact buffersCanonical_of_invView_eq e ⟨hi, ho⟩
  | table hv f n e => exact buffersCanonical_of_invView_eq e ⟨hi, ho⟩
  | ibufWord i v fits e => exact buffersCanonical_of_invView_eq e ⟨Memory.writeList_wf hi fits, ho⟩
  | obufWord i v fits e => exact buffersCanonical_of_invView_eq e ⟨hi, Memory.writeList_wf ho fits⟩

/-- The body of every command keeps the canonical form: four commands append to OBUF, no other writes a buffer. -/
theorem Ran.buffersCanonical {i : Instr} {s t : State} {w : Stop} (h : Ran i s t w) (hs : buffersCanonical s) :
    buffersCanonical t := by
  have appended (hi : i ∈ [Instr.hdrEmit, .encode, .flush, .decode false, .decode true]) : Machine.buffersCanonical t := by
    obtain ⟨ha, hout⟩ := h.appends hi
    obtain ⟨-, hibuf, -⟩ := h.sameHost (by rintro rfl; simp at hi)
    unfold Machine.buffersCanonical
    rw [ha.cfg, hibuf]
    exact ⟨hs.1, ha.canonical hout hs.2⟩
  cases i with
  | nop => rwa [nopBody_next h.body]
  | clear => obtain ⟨-, rfl⟩ := clearBody_next h.body; exact hs
  | count => rw [countBody_frame h.body]; exact hs
  | build => rcases buildBody_next h.body with e | ⟨-, -, e⟩ <;> rw [e] <;> exact hs
  | genCodes => obtain ⟨-, c, -, rfl⟩ := genCodesBody_next h.body; exact hs
  | hdrLoad => rw [hdrLoadBody_frame h.body]; exact hs
  | hdrEmit | encode | flush => exact appended (by decide)
  | decode last => exact appended (by cases last <;> decide)

/-- Settles O56: an access writes whole words inside a buffer, reset empties both, and the engine's turn moves the frame alone or
runs the body of a command. -/
theorem stepKeepsBuffersCanonical : Obligations.StepKeepsBuffersCanonical := by
  unfold Obligations.StepKeepsBuffersCanonical
  intro s t hs h
  rcases step_next h with ⟨x, rest, -, rfl⟩ | ⟨rest, -, rfl⟩ | ⟨-, rest, h⟩
  · exact (hostAccess_hostChange x _).buffersCanonical hs
  · exact (inv_hardwareReset _).buffers
  · rcases engineStep_next h with hf | ⟨i, u, w, -, hr, rfl⟩
    · exact buffersCanonical_of_invView_eq hf.invView hs
    · exact hr.buffersCanonical hs

end Sys2Proof.Machine

/-! Command words and the header (spec/30_encoding.md): decode and encode are inverse, a word's outcome by its fields, and the byte
at each place of the header. -/

namespace Sys2Proof.Machine

/-! ### Rows of the opcode table (R91, R92) -/

/-- The word of every command has legal fields and lies in the command's row. -/
theorem wordForm : ∀ i : Instr, Laws.WordForm.Statement i
  | .nop => Laws.WordForm.nop
  | .clear => Laws.WordForm.clear
  | .count => Laws.WordForm.count
  | .build => Laws.WordForm.build
  | .genCodes => Laws.WordForm.genCodes
  | .hdrEmit => Laws.WordForm.hdrEmit
  | .hdrLoad => Laws.WordForm.hdrLoad
  | .encode => Laws.WordForm.encode
  | .flush => Laws.WordForm.flush
  | .decode last => Laws.WordForm.decode last

theorem encode_and_mask (i : Instr) : encode i &&& (opcodeRow i).mask = (opcodeRow i).value :=
  eq_of_beq (wordForm i).2

theorem encode_getLsbD_last (i : Instr) : (encode i).getLsbD 8 = lastOf i := by
  simp only [encode, commandWord, BitVec.getLsbD_append]
  simp

@[simp] theorem decode_encode (i : Instr) : decode (encode i) = .ok i := by
  cases i with
  | decode last => cases last <;> decide
  | _ => decide

theorem decode_eq_ok_iff {w : Word} {i : Instr} : decode w = .ok i ↔ w = encode i :=
  ⟨fun h => (encode_of_decode h).symm, fun h => h ▸ decode_encode i⟩

/-- The mask of DECODE's row leaves out bit 8 alone. -/
theorem eq_of_decodeMask_eq {v w : Word} (hm : w &&& 0xFFFFFEFF = v &&& 0xFFFFFEFF) (hl : w.getLsbD 8 = v.getLsbD 8) : w = v := by
  have mask : ∀ j < 32, j ≠ 8 → (0xFFFFFEFF : Word).getLsbD j = true := by decide
  apply BitVec.eq_of_getLsbD_eq
  intro j hj
  by_cases h8 : j = 8
  · rw [h8, hl]
  · have hbit := congrArg (·.getLsbD j) hm
    simpa only [BitVec.getLsbD_and, mask j hj h8, Bool.and_true] using hbit

/-- A word matches the row of a command, with DECODE's LAST, only as the command's own word. -/
theorem row_match_iff {w : Word} {i : Instr} :
    (w &&& (opcodeRow i).mask = (opcodeRow i).value ∧ ∀ last, i = .decode last → w.getLsbD 8 = last) ↔ w = encode i := by
  constructor
  · rintro ⟨hm, hl⟩
    rw [← encode_and_mask i] at hm
    cases i with
    | decode last => exact eq_of_decodeMask_eq hm ((hl last rfl).trans (encode_getLsbD_last (.decode last)).symm)
    | _ =>
      have full (v : Word) : v &&& 0xFFFFFFFF = v := BitVec.and_allOnes
      exact (full w).symm.trans (hm.trans (full _))
  · rintro rfl
    refine ⟨encode_and_mask i, ?_⟩
    rintro last rfl
    exact encode_getLsbD_last (.decode last)

/-- Settles O1: decode and encode are inverse, and both the decoder and the table's row single out the command's own word. -/
theorem decodeFollowsTheOpcodeTable : Obligations.DecodeFollowsTheOpcodeTable :=
  ⟨decode_encode, fun _ _ => decode_eq_ok_iff.trans row_match_iff.symm, fun _ _ => encode_of_decode⟩

/-- Settles O3: the eleven words are the words of the ten commands, DECODE's with either LAST. -/
theorem tableWordsDecodeAsTheirRows : Obligations.TableWordsDecodeAsTheirRows :=
  ⟨decode_encode .nop, decode_encode .clear, decode_encode .count, decode_encode .build, decode_encode .genCodes,
    decode_encode .hdrEmit, decode_encode .hdrLoad, decode_encode .encode, decode_encode .flush,
    decode_encode (.decode false), decode_encode (.decode true)⟩

/-! ### Invalid words (R92, R93) -/

@[simp] theorem commandFields_opcode_toNat (w : Word) : (commandFields w).opcode.toNat = w.toNat % 2 ^ 8 := by
  simp [commandFields]

theorem commandFields_last_iff (w : Word) : (commandFields w).last = true ↔ w.toNat / 2 ^ 8 % 2 = 1 := by
  simp [commandFields, BitVec.getLsbD, Nat.testBit_eq_decide_div_mod_eq]

@[simp] theorem commandFields_rsvd_toNat (w : Word) : (commandFields w).rsvd.toNat = w.toNat / 2 ^ 9 := by
  have := w.isLt
  simp only [commandFields, BitVec.extractLsb'_toNat, Nat.shiftRight_eq_div_pow]
  omega

theorem plainCommand_eq_none_iff {o : Byte} : plainCommand o = none ↔ 9 ≤ o.toNat := by
  unfold plainCommand
  split
  case h_10 => simp only [imp_false, true_iff] at *; omega
  all_goals simp [*]

/-- The first check of R92 that a word fails, if it fails one. -/
theorem decode_eq_error_iff (w : Word) :
    (decode w = .error .reservedBits ↔ (commandFields w).rsvd ≠ 0#23) ∧
    (decode w = .error .lastNotDecode ↔
      (commandFields w).rsvd = 0#23 ∧ (commandFields w).opcode ≠ 0x09#8 ∧ (commandFields w).last = true) ∧
    (decode w = .error .reservedOpcode ↔
      (commandFields w).rsvd = 0#23 ∧ (commandFields w).opcode ≠ 0x09#8 ∧ ¬ (commandFields w).last = true ∧
        plainCommand (commandFields w).opcode = none) := by
  simp only [decode]
  by_cases hr : (commandFields w).rsvd = 0#23
  · by_cases ho : (commandFields w).opcode = 0x09#8
    · simp [hr, ho]
    · cases hl : (commandFields w).last
      · cases hp : plainCommand (commandFields w).opcode <;> simp [hr, ho]
      · simp [hr, ho]
  · simp [hr]

/-- Settles O2: the checks of R92 in turn, read as ranges of the word. -/
theorem illegalWordsAreInvalid : Obligations.IllegalWordsAreInvalid := by
  unfold Obligations.IllegalWordsAreInvalid
  intro w
  have rsvd : (commandFields w).rsvd = 0#23 ↔ w.toNat / 2 ^ 9 = 0 := by simp [← BitVec.toNat_inj]
  have opcode : (commandFields w).opcode = 0x09#8 ↔ w.toNat % 2 ^ 8 = 9 := by simp [← BitVec.toNat_inj]
  simp only [decode_eq_error_iff, ne_eq, rsvd, opcode, commandFields_last_iff, plainCommand_eq_none_iff,
    commandFields_opcode_toNat]
  refine ⟨trivial, ?_, ?_⟩ <;> omega

/-! ### The header (R104) -/

theorem getElem?_bytesOf (w : Word) {j : Nat} (hj : j < 4) : (bytesOf w)[j]? = some (byteOf w j) := by
  interval_cases j <;> rfl

/-- Byte j of word k stands at place 4 k + j. -/
theorem getElem?_flatMap_bytesOf (ws : List Word) (k : Nat) {j : Nat} (hj : j < 4) :
    (ws.flatMap bytesOf)[4 * k + j]? = ws[k]?.map (byteOf · j) := by
  induction ws generalizing k with
  | nil => rfl
  | cons w ws ih =>
    rw [List.flatMap_cons]
    cases k with
    | zero =>
      rw [Nat.mul_zero, Nat.zero_add, List.getElem?_append_left hj, getElem?_bytesOf w hj]
      rfl
    | succ k =>
      rw [List.getElem?_append_right (by rw [bytesOf_length]; omega), bytesOf_length,
        show 4 * (k + 1) + j - 4 = 4 * k + j by omega, ih, List.getElem?_cons_succ]

theorem getElem?_headerBytes_freq (t : Vector Word 256) (total : Word) (s : Byte) {j : Nat} (hj : j < 4) :
    (headerBytes t total)[4 * s.toNat + j]? = some (byteOf (symGet t s) j) := by
  have hs : s.toNat < 256 := s.isLt
  rw [headerBytes, getElem?_flatMap_bytesOf _ _ hj, List.getElem?_append_left (by simpa using hs), Vector.getElem?_toList,
    Vector.getElem?_eq_getElem hs]
  rfl

theorem getElem?_headerBytes_total (t : Vector Word 256) (total : Word) {j : Nat} (hj : j < 4) :
    (headerBytes t total)[1024 + j]? = some (byteOf total j) := by
  rw [headerBytes, show 1024 + j = 4 * 256 + j from rfl, getElem?_flatMap_bytesOf _ _ hj,
    List.getElem?_append_right (by simp), Vector.length_toList]
  rfl

/-- Settles O27: the header is 257 words of four bytes, and byte j of a word is its quotient by 2 ^ (8 j). -/
theorem headerIsLittleEndianFields : Obligations.HeaderIsLittleEndianFields := by
  unfold Obligations.HeaderIsLittleEndianFields
  intro t total
  refine ⟨headerBytes_length t total, fun s j hj => ?_, fun j hj => ?_⟩
  · rw [getElem?_headerBytes_freq t total s hj, byteOf_eq_ofNat]
  · rw [getElem?_headerBytes_total t total hj, byteOf_eq_ofNat]

end Sys2Proof.Machine

/-! The lifecycle of a command (spec/40_control.md): the engine's turn, the checks before a command's body in their order, how a
completion ends, and the two control commands. -/

namespace Sys2Proof.Machine

/-! ### The engine's turn (R120, R121) -/

theorem step_engine {s : State} {rest : List Event} (h : s.timeline = .engine :: rest) :
    step s = engineStep { s with timeline := rest } := by
  simp only [step, advance, h, takeEvent]

theorem step_nil {s : State} (h : s.timeline = []) : step s = engineStep s := by
  simp only [step, advance, h]

theorem engineStep_idle {s : State} (h : s.pending = none) : engineStep s = .next s := by
  simp only [engineStep, h]

theorem engineStep_legal {s : State} {w : Word} {i : Instr} (h : s.pending = some w) (hd : decode w = .ok i) :
    engineStep s = exec i s := by
  simp only [engineStep, h, hd]

theorem engineStep_invalid {s : State} {w : Word} {e : Invalid} (h : s.pending = some w) (hd : decode w = .error e) :
    engineStep s = runInvalid w s := by
  simp only [engineStep, h, hd]

/-- Settles O4: after the timeline's event is used up, or at its end, the turn is the engine's, which runs the decoded command or
idles. -/
theorem stepRunsTheDecodedCommand : Obligations.StepRunsTheDecodedCommand := by
  unfold Obligations.StepRunsTheDecodedCommand
  refine ⟨fun s w i hp hd => ⟨fun rest ht => ?_, fun ht => ?_⟩, fun s hp => ⟨fun rest ht => ?_, fun ht => ?_⟩⟩
  · exact (step_engine ht).trans (engineStep_legal hp hd)
  · exact (step_nil ht).trans (engineStep_legal hp hd)
  · exact (step_engine ht).trans (engineStep_idle hp)
  · exact (step_nil ht).trans (engineStep_idle hp)

/-! ### The checks before the body (R122, R123, R130-R132) -/

/-- A completion that raises from ERR = 0 sets both bits of IRQ_STAT (R121, R222). -/
theorem finish_recordErr {s : State} (e : ErrCode) (he : s.err = .none) :
    finish .error (recordErr e s) =
      { s with err := e, stop := .error, irqStat := s.irqStat ||| 0b11#2, pending := none } := by
  simp only [finish, recordErr, if_pos he, BitVec.or_assoc]
  rfl

/-- What a command does once it is not refused: its phase is checked, then its bounds, then its body runs (R131). -/
def checkedBody (i : Instr) (s : State) : Result :=
  if !phaseOK i s then raise .seq s
  else if !boundsOK i s then raise .bounds s
  else commandBody i s

theorem exec_eq_completion (i : Instr) (s : State) : exec i s = completion (encode i) (checkedBody i) s :=
  exec_eq_runCommand i s

theorem exec_of_raise {i : Instr} {s : State} {e : ErrCode} (he : s.err = .none)
    (hb : checkedBody i { s with lastOp := opcodeOf i } = raise e { s with lastOp := opcodeOf i }) :
    exec i s = .next { s with
      lastOp := opcodeOf i, err := e, stop := .error, irqStat := s.irqStat ||| 0b11#2, pending := none } := by
  rw [← opcodeByte_encode] at hb ⊢
  rw [exec_eq_completion, completion_runs (.inl he) hb]
  exact congrArg _ (finish_recordErr e he)

/-- Settles O5: with ERR = 0 the frame runs the body of an Invalid word, which raises BAD_CMD. -/
theorem invalidWordRaisesBadCmd : Obligations.InvalidWordRaisesBadCmd := by
  unfold Obligations.InvalidWordRaisesBadCmd
  intro s w e rest ht hp hd he
  calc step s = engineStep { s with timeline := rest } := step_engine ht
    _ = runInvalid w { s with timeline := rest } := engineStep_invalid hp hd
    _ = .next (finish .error (recordErr .badCmd { s with timeline := rest, lastOp := opcodeByte w })) :=
      completion_runs (.inl he) rfl
    _ = _ := congrArg _ (finish_recordErr .badCmd he)

/-- Settles O7: each row of the phase table makes `phaseOK` false, and SEQ is the first check of a command. -/
theorem outOfPhaseCommandRaisesSeq : Obligations.OutOfPhaseCommandRaisesSeq := by
  unfold Obligations.OutOfPhaseCommandRaisesSeq
  intro i s he h
  have hphase : phaseOK i s = false := by
    cases i with
    | nop | clear => cases h
    | count | build | hdrLoad | decode last => simp [phaseOK, h]
    | genCodes | encode | flush => rcases h with h | h <;> simp [phaseOK, h]
    | hdrEmit => rcases h with h | h | h <;> simp_all [phaseOK]
  exact exec_of_raise he (by simp [checkedBody, hphase])

theorem inputInRange_eq_false {s : State} :
    inputInRange s = false ↔ s.cfg.ibufBytes < s.inLen.toNat ∨ s.inLen.toNat < s.ipos.toNat := by
  simp only [inputInRange, decide_eq_false_iff_not]
  omega

theorem outputInRange_eq_false {s : State} : outputInRange s = false ↔ s.cfg.obufBytes < s.outLen.toNat := by
  simp only [outputInRange, decide_eq_false_iff_not, Nat.not_le]

theorem bitsInRange_eq_false {s : State} :
    bitsInRange s = false ↔ s.cfg.ibufBytes < s.inLen.toNat ∨ 8 * s.inLen.toNat < s.ibitpos.toNat := by
  simp only [bitsInRange, decide_eq_false_iff_not]
  omega

/-- Settles O8: each row of the bounds table keeps `phaseOK` and makes `boundsOK` false, the check that follows the phase. -/
theorem outOfRangeCommandRaisesBounds : Obligations.OutOfRangeCommandRaisesBounds := by
  unfold Obligations.OutOfRangeCommandRaisesBounds
  intro i s he h
  have hchecks : phaseOK i s = true ∧ boundsOK i s = false := by
    cases i with
    | nop | clear | build | genCodes => cases h
    | count | hdrLoad =>
      obtain ⟨hv, h⟩ := h
      exact ⟨by simp [phaseOK, hv], inputInRange_eq_false.mpr h⟩
    | encode =>
      obtain ⟨hc, hx, h⟩ := h
      exact ⟨by simp [phaseOK, hc, hx],
        by simpa only [boundsOK, Bool.and_eq_false_iff, inputInRange_eq_false, outputInRange_eq_false, or_assoc]⟩
    | hdrEmit =>
      obtain ⟨hv, hn, hx, h⟩ := h
      exact ⟨by simp [phaseOK, hv, hn, hx], outputInRange_eq_false.mpr h⟩
    | flush =>
      obtain ⟨hc, hx, h⟩ := h
      exact ⟨by simp [phaseOK, hc, hx], outputInRange_eq_false.mpr h⟩
    | decode last =>
      obtain ⟨hv, h⟩ := h
      exact ⟨hv, by simpa only [boundsOK, Bool.and_eq_false_iff, bitsInRange_eq_false, outputInRange_eq_false, or_assoc]⟩
  obtain ⟨hphase, hbounds⟩ := hchecks
  exact exec_of_raise he (by simp [checkedBody, hphase, hbounds])

/-! ### NOP and CLEAR (R124, R125) -/

/-- Settles O11: NOP has no check that fails and its body leaves the state alone. -/
theorem nopOnlyCompletes : Obligations.NopOnlyCompletes := by
  unfold Obligations.NopOnlyCompletes
  intro s he
  exact runCommand_runs (body := commandBody .nop) (.inl he) rfl rfl rfl

/-- Settles O12: CLEAR is not refused in any state, has no check that fails, and its body resets the datapath. -/
theorem clearResetsTheDatapath : Obligations.ClearResetsTheDatapath := by
  unfold Obligations.ClearResetsTheDatapath
  intro s
  exact runCommand_runs (body := commandBody .clear) (.inr rfl) rfl rfl rfl

/-! ### How a body ends (R121) -/

/-- A body that ends in t with the STOP value w has left LAST_OP and the timeline to the frame, and w says how it ended. -/
structure BodyEnds (s t : State) (w : Stop) : Prop where
  lastOp : t.lastOp = s.lastOp
  timeline : t.timeline = s.timeline
  stop : w ≠ .none

theorem raise_bodyEnds {e : ErrCode} {s t : State} {w : Stop} (h : raise e s = .next (t, w)) : BodyEnds s t w := by
  cases h
  exact ⟨rfl, rfl, nofun⟩

theorem loop_stop {turn : State → Turn} (ends : ∀ {s t w}, turn s = .ends t w → w ≠ .none) {n : Nat} {s t : State} {w : Stop}
    (h : loop turn n s = .next (t, w)) : w ≠ .none :=
  loop_induct (I := fun _ => True) (Q := fun _ w => w ≠ .none) (fun _ _ _ _ => trivial) (fun _ _ _ _ e => ends e)
    n s t w trivial h

theorem countTurn_stop {s t : State} {w : Stop} (h : countTurn s = .ends t w) : w ≠ .none := by
  unfold countTurn at h
  split at h
  · cases h; nofun
  dsimp only at h
  split at h <;> cases h
  nofun

theorem buildBody_stop {s t : State} {w : Stop} (h : buildBody s = .next (t, w)) : w ≠ .none := by
  unfold buildBody at h
  split at h <;> cases h <;> nofun

theorem hdrEmitBody_stop {s t : State} {w : Stop} (h : hdrEmitBody s = .next (t, w)) : w ≠ .none := by
  unfold hdrEmitBody at h
  split at h <;> cases h <;> nofun

theorem hdrLoadBody_stop {s t : State} {w : Stop} (h : hdrLoadBody s = .next (t, w)) : w ≠ .none := by
  unfold hdrLoadBody at h
  split at h
  · cases h; nofun
  dsimp only at h
  split at h <;>
  · simp only [raise, stopWith, Host.Outcome.next.injEq, Prod.mk.injEq] at h
    rw [← h.2]
    nofun

theorem encodeTurn_stop {s t : State} {w : Stop} (h : encodeTurn s = .ends t w) : w ≠ .none := by
  unfold encodeTurn at h
  split at h
  · cases h; nofun
  dsimp only at h
  split at h
  · cases h; nofun
  split at h
  · cases h; nofun
  split at h
  · cases h; nofun
  · split at h <;> cases h

theorem flushBody_stop {s t : State} {w : Stop} (h : flushBody s = .next (t, w)) : w ≠ .none := by
  unfold flushBody at h
  split at h
  · cases h; nofun
  split at h
  · split at h <;> cases h <;> nofun
  · cases h; nofun

theorem decodeTurn_stop {last : Bool} {s t : State} {w : Stop} (h : decodeTurn last s = .ends t w) : w ≠ .none := by
  unfold decodeTurn at h
  split at h
  · cases h; nofun
  split at h
  · cases h
  split at h
  · split at h
    · cases h; nofun
    · split at h <;> cases h
  split at h
  · split at h <;> cases h <;> nofun
  dsimp only at h
  split at h
  · cases h
  split at h
  · split at h
    · cases h; nofun
    · split at h <;> cases h
  · cases h

/-- A command's body ends with one of the STOP values that R121 lists. -/
theorem Ran.stop {i : Instr} {s t : State} {w : Stop} (h : Ran i s t w) : w ≠ .none := by
  have hb := h.body
  cases i with
  | nop => cases hb; nofun
  | clear => obtain ⟨rfl, -⟩ := clearBody_next hb; nofun
  | count => exact loop_stop countTurn_stop hb
  | build => exact buildBody_stop hb
  | genCodes => obtain ⟨rfl, -⟩ := genCodesBody_next hb; nofun
  | hdrEmit => exact hdrEmitBody_stop hb
  | hdrLoad => exact hdrLoadBody_stop hb
  | encode => exact loop_stop encodeTurn_stop hb
  | flush => exact flushBody_stop hb
  | decode last => exact loop_stop decodeTurn_stop hb

theorem Ran.lastOp {i : Instr} {s t : State} {w : Stop} (h : Ran i s t w) : t.lastOp = s.lastOp := by
  have hb := h.body
  cases i with
  | nop => rw [nopBody_next hb]
  | clear => obtain ⟨-, rfl⟩ := clearBody_next hb; rfl
  | count => rw [countBody_frame hb]
  | build => rcases buildBody_next hb with e | ⟨-, -, e⟩ <;> rw [e]
  | genCodes => obtain ⟨-, c, -, rfl⟩ := genCodesBody_next hb; rfl
  | hdrEmit => rcases hdrEmitBody_next hb with rfl | ⟨-, rfl⟩ <;> rfl
  | hdrLoad => rw [hdrLoadBody_frame hb]
  | encode => rw [encodeBody_frame hb]
  | flush =>
    rcases flushBody_next hb with e | ⟨-, -, -, rfl⟩ | ⟨-, -, rfl⟩
    · rw [e]
    · rfl
    · rfl
  | decode last => rw [decodeBody_frame hb]

theorem Ran.timeline {i : Instr} {s t : State} {w : Stop} (h : Ran i s t w) : t.timeline = s.timeline := by
  by_cases hi : i = .clear
  · subst hi
    obtain ⟨-, rfl⟩ := clearBody_next h.body
    rfl
  · obtain ⟨-, -, -, -, -, -, htimeline, -, -⟩ := h.sameHost hi
    exact htimeline

theorem Ran.bodyEnds {i : Instr} {s t : State} {w : Stop} (h : Ran i s t w) : BodyEnds s t w :=
  ⟨h.lastOp, h.timeline, h.stop⟩

theorem checkedBody_bodyEnds {i : Instr} {s t : State} {w : Stop} (h : checkedBody i s = .next (t, w)) : BodyEnds s t w := by
  unfold checkedBody at h
  split at h
  · exact raise_bodyEnds h
  rename_i hphase
  split at h
  · exact raise_bodyEnds h
  rename_i hbounds
  exact Ran.bodyEnds ⟨by simpa using hphase, by simpa using hbounds, h⟩

/-- The engine's turn with a word in flight is the one frame of R121 about the word's body, legal or not. -/
theorem engineStep_eq_completion {s : State} {w : Word} (hp : s.pending = some w) :
    ∃ body, engineStep s = completion w body s ∧ ∀ {u t st}, body u = .next (t, st) → BodyEnds u t st := by
  cases hd : decode w with
  | error e => exact ⟨raise .badCmd, engineStep_invalid hp hd, raise_bodyEnds⟩
  | ok i =>
    refine ⟨checkedBody i, ?_, checkedBody_bodyEnds⟩
    rw [engineStep_legal hp hd, exec_eq_completion, encode_of_decode hd]

/-- Settles O6: the frame refuses every word but CLEAR's before its body is looked at. -/
theorem errorRefusesEveryWordButClear : Obligations.ErrorRefusesEveryWordButClear := by
  unfold Obligations.ErrorRefusesEveryWordButClear
  intro s w rest ht hp he hw
  obtain ⟨body, hbody, -⟩ := engineStep_eq_completion (s := { s with timeline := rest }) hp
  calc step s = engineStep { s with timeline := rest } := step_engine ht
    _ = completion w body { s with timeline := rest } := hbody
    _ = _ := completion_refused body he hw

/-- Settles O9: refused or run, a completion ends with the frame's last lines, and no body writes LAST_OP or the timeline or ends
without a STOP value. -/
theorem completionEndsTheCommand : Obligations.CompletionEndsTheCommand := by
  unfold Obligations.CompletionEndsTheCommand
  intro s t w rest ht hp h
  obtain ⟨body, hbody, hends⟩ := engineStep_eq_completion (s := { s with timeline := rest }) hp
  rw [step_engine ht, hbody] at h
  have doneBit (x : BitVec 2) : (x ||| 0b01#2).getLsbD 0 = true := by simp
  rcases completion_next h with ⟨-, -, rfl⟩ | ⟨-, u, st, hb, rfl⟩
  · exact ⟨rfl, rfl, rfl, doneBit _, nofun, rfl⟩
  · obtain ⟨hop, htimeline, hstop⟩ := hends hb
    exact ⟨rfl, rfl, hop, doneBit _, hstop, htimeline⟩

end Sys2Proof.Machine

/-! COUNT (spec/41_frequency.md R140, R141): what one pass of its loop does, then runs of passes over written bytes and over any
bytes. -/

namespace Sys2Proof.Machine

/-! ### One pass -/

/-- FREQ[b] or TOTAL is 2^32 − 1, so that counting b is an overflow (R141). -/
def CountFull (s : State) (b : Byte) : Prop := symGet s.freq b = 0xFFFFFFFF#32 ∨ s.total = 0xFFFFFFFF#32

theorem countFull_iff {s : State} {b : Byte} :
    CountFull s b ↔ (symGet s.freq b).toNat = 2 ^ 32 - 1 ∨ s.total.toNat = 2 ^ 32 - 1 := by
  simp only [CountFull, ← BitVec.toNat_inj, BitVec.toNat_ofNat]
  rfl

/-- What a pass writes for the byte b. -/
def countByte (s : State) (b : Byte) : State :=
  { s with freq := symSet s.freq b (symGet s.freq b + 1), total := s.total + 1, ipos := s.ipos + 1 }

theorem countTurn_at_end {s : State} (h : s.ipos = s.inLen) : countTurn s = .ends s .done := by
  simp only [countTurn, if_pos h]

theorem countTurn_of_full {s u : State} {b : Byte} (hne : s.ipos ≠ s.inLen) (hr : readIbuf s.ipos.toNat s = (b, u))
    (hf : CountFull u b) : countTurn s = Turn.raise .countOverflow u := by
  simp only [countTurn, if_neg hne, hr]
  exact if_pos hf

theorem countTurn_of_not_full {s u : State} {b : Byte} (hne : s.ipos ≠ s.inLen) (hr : readIbuf s.ipos.toNat s = (b, u))
    (hf : ¬ CountFull u b) : countTurn s = .again (countByte u b) := by
  simp only [countTurn, if_neg hne, hr]
  exact if_neg hf

theorem symGet_countByte_freq (s : State) (b c : Byte) :
    symGet (countByte s b).freq c = symGet s.freq c + BitVec.ofNat 32 ([b].count c) := by
  simp only [countByte, symGet_symSet, List.count_singleton]
  by_cases h : c = b
  · simp [h]
  · simp [h, Ne.symm h]

theorem total_add_one_toNat {s : State} {b : Byte} (h : ¬ CountFull s b) : (s.total + 1).toNat = s.total.toNat + 1 := by
  have : s.total ≠ 0xFFFFFFFF#32 := fun e => h (.inr e)
  bv_omega

/-- COUNT in phase and in range ends as its loop does (R121, R130, R132). -/
theorem exec_count_of_body {s t : State} {w : Stop} (he : s.err = .none) (hv : s.treeValid = false)
    (hlen : s.inLen.toNat ≤ s.cfg.ibufBytes) (hpos : s.ipos.toNat ≤ s.inLen.toNat)
    (hb : countBody { s with lastOp := 0x02 } = .next (t, w)) : exec .count s = .next (finish w t) :=
  runCommand_runs (i := .count) (.inl he) (by simp [phaseOK, hv]) (by simp [boundsOK, inputInRange, hlen, hpos]) hb

/-! ### Bytes that stand in IBUF -/

theorem ibufHolds_cons {s : State} {a : Nat} {b : Byte} {bs : List Byte} :
    ibufHolds s a (b :: bs) ↔ Memory.read s.ibuf a = some b ∧ ibufHolds s (a + 1) bs := by
  refine ⟨fun h => ⟨h 0 (Nat.succ_pos _), fun j hj => ?_⟩, fun ⟨h, h'⟩ j hj => ?_⟩
  · rw [Nat.add_assoc, Nat.add_comm 1]
    exact h (j + 1) (Nat.succ_lt_succ hj)
  · cases j with
    | zero => exact h
    | succ j =>
      rw [List.getElem_cons_succ, ← Nat.add_assoc, Nat.add_right_comm]
      exact h' j (Nat.lt_of_succ_lt_succ hj)

theorem ibufHolds_append {s : State} {a : Nat} {xs ys : List Byte} :
    ibufHolds s a (xs ++ ys) ↔ ibufHolds s a xs ∧ ibufHolds s (a + xs.length) ys := by
  induction xs generalizing a with
  | nil => simp [ibufHolds]
  | cons x xs ih =>
    rw [List.cons_append, ibufHolds_cons, ibufHolds_cons, ih, and_assoc, List.length_cons, Nat.add_right_comm, Nat.add_assoc]

/-! ### Passes over written bytes -/

/-- The bytes bs stand written at IPOS, inside the chunk, and neither a count nor the total reaches 2^32 on them. -/
structure Countable (s : State) (bs : List Byte) : Prop where
  written : ibufHolds s s.ipos.toNat bs
  inChunk : s.ipos.toNat + bs.length ≤ s.inLen.toNat
  totalFits : s.total.toNat + bs.length < 2 ^ 32
  countsFit : ∀ c, (symGet s.freq c).toNat + bs.count c < 2 ^ 32

/-- What the passes write for the bytes bs. -/
def countBytes (s : State) (bs : List Byte) : State := bs.foldl countByte s

theorem countBytes_cons (s : State) (b : Byte) (bs : List Byte) : countBytes s (b :: bs) = countBytes (countByte s b) bs := rfl

theorem countBytes_eq (s : State) (bs : List Byte) :
    countBytes s bs = { s with
      freq := (countBytes s bs).freq
      total := BitVec.ofNat 32 (s.total.toNat + bs.length)
      ipos := BitVec.ofNat 15 (s.ipos.toNat + bs.length) } := by
  induction bs generalizing s with
  | nil => simp [countBytes]
  | cons b bs ih =>
    rw [countBytes_cons, ih]
    simp only [countByte, List.length_cons]
    congr 1 <;> bv_omega

theorem symGet_countBytes_freq (s : State) (bs : List Byte) (c : Byte) :
    symGet (countBytes s bs).freq c = symGet s.freq c + BitVec.ofNat 32 (bs.count c) := by
  induction bs generalizing s with
  | nil => simp [countBytes]
  | cons b bs ih =>
    rw [countBytes_cons, ih, symGet_countByte_freq, BitVec.add_assoc, ← BitVec.ofNat_add, ← List.count_append,
      List.singleton_append]

theorem Countable.ipos_ne {s : State} {b : Byte} {bs : List Byte} (h : Countable s (b :: bs)) : s.ipos ≠ s.inLen := by
  intro e
  have := h.inChunk
  simp [e] at this

theorem Countable.not_full {s : State} {b : Byte} {bs : List Byte} (h : Countable s (b :: bs)) : ¬ CountFull s b := by
  have hcount := h.countsFit b
  have htotal := h.totalFits
  simp only [List.count_cons_self, List.length_cons] at hcount htotal
  rw [countFull_iff]
  omega

theorem Countable.tail {s : State} {b : Byte} {bs : List Byte} (h : Countable s (b :: bs)) : Countable (countByte s b) bs := by
  have htot : (countByte s b).total.toNat = _ := total_add_one_toNat h.not_full
  obtain ⟨hpos : (countByte s b).ipos.toNat = _, -⟩ := ipos_add_one_toNat (Nat.le_of_add_right_le h.inChunk) h.ipos_ne
  obtain ⟨hw, hin, htotal, hcount⟩ := h
  simp only [List.length_cons] at hin htotal
  refine ⟨?_, ?_, by omega, fun c => ?_⟩
  · rw [hpos]; exact (ibufHolds_cons.mp hw).2
  · change _ ≤ s.inLen.toNat; omega
  · have := hcount c
    rw [← List.singleton_append, List.count_append] at this
    rw [symGet_countByte_freq, BitVec.toNat_add, BitVec.toNat_ofNat]
    omega

theorem Countable.loop_countTurn {bs : List Byte} (n : Nat) {s : State} (h : Countable s bs) :
    loop countTurn (bs.length + n) s = loop countTurn n (countBytes s bs) := by
  induction bs generalizing s with
  | nil => simp [countBytes]
  | cons b bs ih =>
    have hread := readIbuf_some (ibufHolds_cons.mp h.written).1
    rw [List.length_cons, Nat.add_right_comm, loop_succ_again _ (countTurn_of_not_full h.ipos_ne hread h.not_full)]
    exact ih h.tail

theorem Countable.freq_toNat {s : State} {bs : List Byte} (h : Countable s bs) (c : Byte) :
    (symGet (countBytes s bs).freq c).toNat = (symGet s.freq c).toNat + bs.count c := by
  have := h.countsFit c
  rw [symGet_countBytes_freq, BitVec.toNat_add, BitVec.toNat_ofNat]
  omega

theorem Countable.total_toNat {s : State} {bs : List Byte} (h : Countable s bs) :
    (countBytes s bs).total.toNat = s.total.toNat + bs.length := by
  rw [countBytes_eq]
  exact Nat.mod_eq_of_lt h.totalFits

theorem Countable.ipos_toNat {s : State} {bs : List Byte} (h : Countable s bs) :
    (countBytes s bs).ipos.toNat = s.ipos.toNat + bs.length := by
  rw [countBytes_eq]
  exact Nat.mod_eq_of_lt (h.inChunk.trans_lt s.inLen.isLt)

@[simp] theorem countBytes_inLen (s : State) (bs : List Byte) : (countBytes s bs).inLen = s.inLen := by rw [countBytes_eq]
@[simp] theorem countBytes_ibuf (s : State) (bs : List Byte) : (countBytes s bs).ibuf = s.ibuf := by rw [countBytes_eq]
@[simp] theorem countBytes_err (s : State) (bs : List Byte) : (countBytes s bs).err = s.err := by rw [countBytes_eq]

/-- The passes count a chunk to its end. -/
theorem Countable.countBody_done {s : State} {bs : List Byte} (h : Countable s bs)
    (hend : s.ipos.toNat + bs.length = s.inLen.toNat) : countBody s = .next (countBytes s bs, .done) := by
  have hipos : (countBytes s bs).ipos = (countBytes s bs).inLen :=
    BitVec.eq_of_toNat_eq (by rw [h.ipos_toNat, countBytes_inLen, hend])
  rw [countBody, show s.inLen.toNat - s.ipos.toNat + 1 = bs.length + 1 by omega, h.loop_countTurn,
    loop_succ_ends _ (countTurn_at_end hipos)]

/-- The passes count the bytes before one that has no room. -/
theorem Countable.countBody_raise {s : State} {pre : List Byte} {b : Byte} (h : Countable s pre)
    (hlt : s.ipos.toNat + pre.length < s.inLen.toNat) (hb : Memory.read s.ibuf (s.ipos.toNat + pre.length) = some b)
    (hfull : (symGet s.freq b).toNat + pre.count b = 2 ^ 32 - 1 ∨ s.total.toNat + pre.length = 2 ^ 32 - 1) :
    countBody s = raise .countOverflow (countBytes s pre) := by
  have hne : (countBytes s pre).ipos ≠ (countBytes s pre).inLen := fun e => by
    rw [← h.ipos_toNat, e, countBytes_inLen] at hlt
    exact lt_irrefl _ hlt
  have hread : readIbuf (countBytes s pre).ipos.toNat (countBytes s pre) = (b, countBytes s pre) :=
    readIbuf_some (by rwa [h.ipos_toNat, countBytes_ibuf])
  have hf : CountFull (countBytes s pre) b := countFull_iff.mpr (by rwa [h.freq_toNat, h.total_toNat])
  rw [countBody, show s.inLen.toNat - s.ipos.toNat + 1 = pre.length + (s.inLen.toNat - s.ipos.toNat - pre.length + 1) by omega,
    h.loop_countTurn, loop_succ_ends _ (countTurn_of_full hne hread hf)]
  rfl

/-- Settles O14: the passes count every byte and leave IPOS = IN_LEN, where the last pass ends the loop. -/
theorem countAddsOccurrences : Obligations.CountAddsOccurrences := by
  unfold Obligations.CountAddsOccurrences
  intro s bs he hv hlen hin hw htotal hcount
  have hc : Countable { s with lastOp := 0x02 } bs := ⟨hw, hin.le, htotal, hcount⟩
  refine ⟨_, hc.freq_toNat, ?_⟩
  rw [exec_count_of_body he hv hlen (by omega) (hc.countBody_done hin), countBytes_eq]
  simp only [finish, hin, BitVec.ofNat_toNat, BitVec.setWidth_eq]

/-- Settles O15: the passes count the bytes of `pre`, and the next pass finds no room for b. -/
theorem countStopsBeforeOverflow : Obligations.CountStopsBeforeOverflow := by
  unfold Obligations.CountStopsBeforeOverflow
  intro s pre post b he hv hlen hin hw htotal hcount hfull
  simp only [List.length_append, List.length_cons] at hin
  obtain ⟨hpre, hb⟩ := ibufHolds_append.mp hw
  have hc : Countable { s with lastOp := 0x02 } pre := ⟨hpre, by simp only; omega, htotal, hcount⟩
  have hbody := hc.countBody_raise (by simp only; omega) (ibufHolds_cons.mp hb).1 hfull
  refine ⟨_, hc.freq_toNat, ?_⟩
  rw [exec_count_of_body he hv hlen (by omega) hbody, finish_recordErr .countOverflow (by simpa using he), countBytes_eq]

/-! ### Passes over any bytes -/

/-- t comes from s by passes that counted the bytes between the two values of IPOS, with a draw for each that is not written. -/
structure Counted (s t : State) : Prop where
  frame : t = { s with freq := t.freq, total := t.total, ipos := t.ipos, draws := t.draws }
  advance : s.ipos.toNat ≤ t.ipos.toNat
  inChunk : t.ipos.toNat ≤ t.inLen.toNat
  total : t.total.toNat = s.total.toNat + (t.ipos.toNat - s.ipos.toNat)

theorem Counted.refl {s : State} (h : s.ipos.toNat ≤ s.inLen.toNat) : Counted s s := ⟨rfl, le_rfl, h, by simp⟩

theorem Counted.withDraws {s t : State} (h : Counted s t) (d : Nat) : Counted s { t with draws := d } := by
  obtain ⟨hframe, hle, hin, htotal⟩ := h
  exact ⟨by rw [hframe], hle, hin, htotal⟩

theorem Counted.countByte {s t : State} {b : Byte} (h : Counted s t) (hne : t.ipos ≠ t.inLen) (hf : ¬ CountFull t b) :
    Counted s (countByte t b) := by
  obtain ⟨hframe, hle, hin, htotal⟩ := h
  obtain ⟨hpos : (Machine.countByte t b).ipos.toNat = _, hlt⟩ := ipos_add_one_toNat hin hne
  have htot : (Machine.countByte t b).total.toNat = _ := total_add_one_toNat hf
  refine ⟨?_, by omega, ?_, by omega⟩
  · rw [hframe]; rfl
  · change _ ≤ t.inLen.toNat; omega

/-- The loop from s ends in t: after some passes, at IN_LEN or with COUNT_OVERFLOW before it. -/
def CountEnds (s t : State) (w : Stop) : Prop :=
  ∃ u, Counted s u ∧
    ((w = .done ∧ t = u ∧ u.ipos = u.inLen) ∨ (w = .error ∧ t = recordErr .countOverflow u ∧ u.ipos ≠ u.inLen))

/-- What a pass can do, whatever byte it reads. -/
theorem Counted.countTurn_cases {s t : State} (h : Counted s t) :
    (∃ u, countTurn t = .again u ∧ Counted s u) ∨ ∃ u w, countTurn t = .ends u w ∧ CountEnds s u w := by
  by_cases hend : t.ipos = t.inLen
  · exact .inr ⟨_, _, countTurn_at_end hend, t, h, .inl ⟨rfl, rfl, hend⟩⟩
  obtain ⟨b, d, hread⟩ := readIbuf_eq t.ipos.toNat t
  by_cases hf : CountFull { t with draws := d } b
  · exact .inr ⟨_, _, countTurn_of_full hend hread hf, _, h.withDraws d, .inr ⟨rfl, rfl, hend⟩⟩
  · exact .inl ⟨_, countTurn_of_not_full hend hread hf, (h.withDraws d).countByte hend hf⟩

theorem countBody_next {s t : State} {w : Stop} (hpos : s.ipos.toNat ≤ s.inLen.toNat) (h : countBody s = .next (t, w)) :
    CountEnds s t w := by
  refine loop_induct (I := Counted s) (Q := CountEnds s) (fun u v hu e => ?_) (fun u v w hu e => ?_) _ s t w (.refl hpos) h
  · rcases hu.countTurn_cases with ⟨v', e', hv⟩ | ⟨_, _, e', -⟩ <;> rw [e] at e' <;> cases e'
    exact hv
  · rcases hu.countTurn_cases with ⟨_, e', -⟩ | ⟨_, _, e', hv⟩ <;> rw [e] at e' <;> cases e'
    exact hv

/-- Settles O16: the loop ends, and it ends as `countBody_next` says. -/
theorem countCompletesOnAnyBytes : Obligations.CountCompletesOnAnyBytes := by
  unfold Obligations.CountCompletesOnAnyBytes
  intro s he hv hlen hpos
  obtain ⟨⟨t, w⟩, hbody⟩ := countBody_ends (s := { s with lastOp := 0x02 }) hpos
  obtain ⟨u, ⟨hframe, hadvance, hin, htotal⟩, hend⟩ := countBody_next (s := { s with lastOp := 0x02 }) hpos hbody
  have herr : u.err = .none := by rw [hframe]; exact he
  have hirq : u.irqStat = s.irqStat := by rw [hframe]
  have hinLen : u.inLen = s.inLen := by rw [hframe]
  refine ⟨finish w t, exec_count_of_body he hv hlen hpos hbody, ?_⟩
  rcases hend with ⟨rfl, rfl, hend⟩ | ⟨rfl, rfl, hne⟩
  · refine ⟨?_, hadvance, htotal, .inl ⟨rfl, hend.trans hinLen, herr, congrArg (· ||| 0b01#2) hirq⟩⟩
    rw [hframe]
    rfl
  · have hlt : u.ipos.toNat < s.inLen.toNat := hinLen ▸ (ipos_add_one_toNat hin hne).2
    rw [finish_recordErr .countOverflow herr]
    refine ⟨?_, hadvance, htotal, .inr ⟨rfl, hlt, rfl, congrArg (· ||| 0b11#2) hirq⟩⟩
    rw [hframe]

end Sys2Proof.Machine

/-! BUILD (spec/42_tree_build.md): its two outcomes, the least pair, the layout of its arena, the exact sums of its nodes, and the
tables of no symbol, of one symbol and of R159. -/

namespace Sys2Proof.Machine

/-! ### The leaf list (R150) -/

theorem leavesFrom_cons_of_eq_zero (s : Nat) {f : Word} (fs : List Word) (h : f = 0) :
    leavesFrom s (f :: fs) = leavesFrom (s + 1) fs := if_pos h

theorem leavesFrom_cons_of_ne_zero (s : Nat) {f : Word} (fs : List Word) (h : f ≠ 0) :
    leavesFrom s (f :: fs) = leafEntry s f :: leavesFrom (s + 1) fs := if_neg h

theorem leavesFrom_sum (s : Nat) (fs : List Word) :
    ((leavesFrom s fs).map fun e => e.f.toNat).sum = (fs.map fun f => f.toNat).sum := by
  induction fs generalizing s with
  | nil => rfl
  | cons f fs ih =>
    by_cases h : f = 0
    · rw [leavesFrom_cons_of_eq_zero s fs h, ih]
      simp [h]
    · simp [leavesFrom_cons_of_ne_zero s fs h, ih, leafEntry]

theorem leaves_sum (t : Vector Word 256) : ((leaves t).map fun e => e.f.toNat).sum = freqSum t := leavesFrom_sum 0 t.toList

theorem leavesFrom_length (s : Nat) (fs : List Word) :
    (leavesFrom s fs).length = (fs.filter fun f => f ≠ 0).length := by
  induction fs generalizing s with
  | nil => rfl
  | cons f fs ih =>
    by_cases h : f = 0
    · rw [leavesFrom_cons_of_eq_zero s fs h, List.filter_cons_of_neg (by simpa using h), ih]
    · rw [leavesFrom_cons_of_ne_zero s fs h, List.filter_cons_of_pos (by simpa using h), List.length_cons, List.length_cons, ih]

theorem symbolCount_eq (t : Vector Word 256) : symbolCount t = (t.toList.filter fun f => f ≠ 0).length :=
  leavesFrom_length 0 t.toList

theorem leavesFrom_eq_nil {s : Nat} {fs : List Word} (h : ∀ f ∈ fs, f = 0) : leavesFrom s fs = [] := by
  rw [← List.length_eq_zero_iff, leavesFrom_length, List.length_eq_zero_iff, List.filter_eq_nil_iff]
  simpa using h

theorem leavesFrom_eq_singleton {s k : Nat} {fs : List Word} (hk : k < fs.length) (h0 : fs[k] ≠ 0)
    (h : ∀ j (hj : j < fs.length), j ≠ k → fs[j] = 0) : leavesFrom s fs = [leafEntry (s + k) fs[k]] := by
  induction fs generalizing s k with
  | nil => simp at hk
  | cons f fs ih =>
    cases k with
    | zero =>
      have hf : f ≠ 0 := h0
      have hfs : ∀ g ∈ fs, g = 0 := List.forall_mem_iff_getElem.mpr fun j hj =>
        h (j + 1) (Nat.succ_lt_succ hj) (Nat.succ_ne_zero j)
      rw [leavesFrom_cons_of_ne_zero s fs hf, leavesFrom_eq_nil hfs]
      rfl
    | succ k =>
      have hf : f = 0 := h 0 (Nat.succ_pos _) (Nat.succ_ne_zero k).symm
      rw [leavesFrom_cons_of_eq_zero s fs hf,
        ih (Nat.lt_of_succ_lt_succ hk) h0 fun j hj hne => h (j + 1) (Nat.succ_lt_succ hj) (by omega), Nat.add_right_comm]
      rfl

theorem leaves_of_empty {t : Vector Word 256} (h : ∀ b, symGet t b = 0) : leaves t = [] := by
  have ht : t = Vector.replicate 256 0 := symGet_ext fun b => by rw [h, symGet_replicate]
  exact leavesFrom_eq_nil fun f hf => List.eq_of_mem_replicate (by rwa [ht, Vector.toList_replicate] at hf)

theorem leaves_of_single {t : Vector Word 256} {b : Byte} (hb : symGet t b ≠ 0) (h : ∀ c, c ≠ b → symGet t c = 0) :
    leaves t = [leafEntry b.toNat (symGet t b)] := by
  have hz (j : Nat) (hj : j < t.toList.length) (hne : j ≠ b.toNat) : t.toList[j] = 0 := by
    have hj : j < 256 := by simpa using hj
    have hc : (BitVec.ofNat 8 j).toNat = j := Nat.mod_eq_of_lt hj
    simpa [symGet, hc] using h (BitVec.ofNat 8 j) fun e => hne (by rw [← e, hc])
  have hl := leavesFrom_eq_singleton (s := 0) (k := b.toNat) (by simpa using b.isLt) hb hz
  rwa [Nat.zero_add] at hl

/-! ### The outcomes of BUILD (R150, R154) -/

theorem exec_build_of_sum {s : State} (he : s.err = .none) (hv : s.treeValid = false)
    (hsum : freqSum s.freq = s.total.toNat) :
    exec .build s = .next { s with
      node := buildArena s.freq, root := buildRoot s.freq, decNode := buildRoot s.freq, decCount := 0, treeValid := true,
      nsym := BitVec.ofNat 9 (symbolCount s.freq),
      lastOp := 0x03, stop := .done, irqStat := s.irqStat ||| 0b01#2, pending := none } :=
  runCommand_runs (i := .build) (body := buildBody) (.inl he) (by simp [phaseOK, hv]) rfl (if_neg (not_not.mpr hsum))

theorem exec_build_of_wrong_sum {s : State} (he : s.err = .none) (hv : s.treeValid = false)
    (hsum : freqSum s.freq ≠ s.total.toNat) :
    exec .build s = .next { s with
      err := .corruptHeader, lastOp := 0x03, stop := .error, irqStat := s.irqStat ||| 0b11#2, pending := none } := by
  have hphase : phaseOK .build { s with lastOp := opcodeOf .build } = true := by simp [phaseOK, hv]
  refine exec_of_raise (i := .build) he ?_
  rw [checkedBody, hphase]
  exact if_pos hsum

/-- Settles O17: BUILD has no other check than its phase, so the sum decides between its two ends. -/
theorem buildWritesTheTreeOfARightSum : Obligations.BuildWritesTheTreeOfARightSum := by
  unfold Obligations.BuildWritesTheTreeOfARightSum
  intro s he hv
  refine ⟨fun hsum => ?_, exec_build_of_wrong_sum he hv⟩
  rw [exec_build_of_sum he hv hsum, symbolCount_eq]

/-! ### The least pair (R151) -/

/-- The pair (frequency, index) that the queue is ordered by, lexicographically. -/
def queueKey (ns : List Entry) (i : Nat) : ℕ ×ₗ ℕ := toLex (freqOf ns i, i)

theorem keyLt_iff {ns : List Entry} {i j : Nat} : keyLt ns i j = true ↔ queueKey ns i < queueKey ns j := by
  simp [keyLt, queueKey, Prod.Lex.toLex_lt_toLex]

theorem minkey_queueKey_le {ns : List Entry} {q : List Nat} {i : Nat} (h : minkey ns q = some i) :
    ∀ j ∈ q, queueKey ns i ≤ queueKey ns j := by
  induction q generalizing i with
  | nil => simp
  | cons k q ih =>
    unfold minkey at h
    split at h
    · rename_i hnone
      obtain rfl := Option.some.inj h
      simp [minkey_eq_none.mp hnone]
    · rename_i m hm
      split at h
      · rename_i hlt
        obtain rfl := Option.some.inj h
        exact List.forall_mem_cons.mpr ⟨le_rfl, fun j hj => (keyLt_iff.mp hlt).le.trans (ih hm j hj)⟩
      · rename_i hlt
        obtain rfl := Option.some.inj h
        exact List.forall_mem_cons.mpr ⟨not_lt.mp (mt keyLt_iff.mpr hlt), ih hm⟩

/-- Settles O18: minkey answers on a non-empty queue with a member, and no member's pair lies before that one's. -/
theorem minkeyIsTheLeastPair : Obligations.MinkeyIsTheLeastPair := by
  unfold Obligations.MinkeyIsTheLeastPair
  intro ns q hq
  obtain ⟨i, hi⟩ := Option.ne_none_iff_exists'.mp (mt minkey_eq_none.mp hq)
  refine ⟨i, hi, minkey_mem hi, fun j hj => ?_⟩
  have hle := Prod.Lex.toLex_le_toLex.mp (minkey_queueKey_le hi j hj)
  simp only at hle
  omega

/-! ### The arena's layout (R153) -/

/-- Settles O19: the merge invariant at the end of the loop is the layout, and leaves node 2n − 2 alone in the queue. -/
theorem builtTreeHasTheLayout : Obligations.BuiltTreeHasTheLayout := by
  unfold Obligations.BuiltTreeHasTheLayout
  exact fun t hn => ⟨buildArena_layout hn, buildRoot_eq hn⟩

/-! ### The frequencies of the nodes (R152) -/

theorem freqOf_eq (ns : List Entry) (i : Nat) : freqOf ns i = (madeNode ns i).f.toNat := rfl

theorem freqOf_joined_old {ns : List Entry} {a b i : Nat} (hi : i < ns.length) (hab : a ≠ b) :
    freqOf (joined ns a b) i = freqOf ns i := by
  obtain ⟨_, _, e⟩ := madeNode_joined_frame hi hab
  rw [freqOf_eq, e, freqOf_eq]

theorem freqOf_joined_new {ns : List Entry} {a b : Nat} (h : freqOf ns a + freqOf ns b < 2 ^ 32) :
    freqOf (joined ns a b) ns.length = freqOf ns a + freqOf ns b := by
  rw [freqOf_eq, madeNode_joined_new, internalEntry_eq]
  exact BitVec.toNat_add_of_lt h

/-- The frequencies of a queue of nodes add up to this. -/
def queueSum (ns : List Entry) (q : List Nat) : Nat := (q.map (freqOf ns)).sum

theorem queueSum_erase_erase (ns : List Entry) {q : List Nat} {a b : Nat} (ha : a ∈ q) (hb : b ∈ q.erase a) :
    freqOf ns a + (freqOf ns b + queueSum ns ((q.erase a).erase b)) = queueSum ns q := by
  rw [queueSum, List.sum_map_erase _ hb, List.sum_map_erase _ ha, queueSum]

/-- Node i has the exact sum of its two children's frequencies, which are earlier nodes. -/
def SumsChildren (ns : List Entry) (i : Nat) : Prop :=
  ∃ l r, l < i ∧ r < i ∧ (madeNode ns i).left = BitVec.ofNat 9 l ∧ (madeNode ns i).right = BitVec.ofNat 9 r ∧
    freqOf ns i = freqOf ns l + freqOf ns r

theorem SumsChildren.joined {ns : List Entry} {a b i : Nat} (h : SumsChildren ns i) (hi : i < ns.length) (hab : a ≠ b) :
    SumsChildren (joined ns a b) i := by
  obtain ⟨l, r, hl, hr, el, er, hf⟩ := h
  obtain ⟨_, _, e⟩ := madeNode_joined_frame hi hab
  refine ⟨l, r, hl, hr, by rw [e, el], by rw [e, er], ?_⟩
  rw [freqOf_joined_old hi hab, freqOf_joined_old (hl.trans hi) hab, freqOf_joined_old (hr.trans hi) hab, hf]

theorem sumsChildren_new {ns : List Entry} {a b : Nat} (ha : a < ns.length) (hb : b < ns.length) (hab : a ≠ b)
    (h : freqOf ns a + freqOf ns b < 2 ^ 32) : SumsChildren (joined ns a b) ns.length := by
  refine ⟨a, b, ha, hb, by rw [madeNode_joined_new]; rfl, by rw [madeNode_joined_new]; rfl, ?_⟩
  rw [freqOf_joined_new h, freqOf_joined_old ha hab, freqOf_joined_old hb hab]

/-- The merge of the leaf list ls has wrapped no frequency: the queue still holds the leaves' total. -/
structure ExactMerging (ls ns : List Entry) (q : List Nat) : Prop extends Merging ls ns q where
  total : queueSum ns q = (ls.map fun e => e.f.toNat).sum
  sums : ∀ i, ls.length ≤ i → i < ns.length → SumsChildren ns i

theorem exactMerging_start {ls : List Entry} (h : ∀ e ∈ ls, e.parent = Index.none ∧ e.side = false) :
    ExactMerging ls ls (List.range ls.length) where
  toMerging := merging_start h
  total := by
    refine congrArg List.sum (List.ext_getElem (by simp) fun i hi _ => ?_)
    have hi : i < ls.length := by simpa using hi
    simp [freqOf, hi]
  sums := fun i h1 h2 => by omega

theorem ExactMerging.joined {ls ns : List Entry} {q : List Nat} {a b : Nat} (h : ExactMerging ls ns q)
    (hbound : (ls.map fun e => e.f.toNat).sum < 2 ^ 32) (ha : a ∈ q) (hb : b ∈ q.erase a) :
    ExactMerging ls (joined ns a b) ((q.erase a).erase b ++ [ns.length]) := by
  obtain ⟨hba, hbq⟩ := h.nodup.mem_erase_iff.mp hb
  have hab : a ≠ b := hba.symm
  have hsum := (queueSum_erase_erase ns ha hb).trans h.total
  have hfit : freqOf ns a + freqOf ns b < 2 ^ 32 := by omega
  refine ⟨h.toMerging.joined ha hb, ?total, ?sums⟩
  case total =>
    have hold : queueSum (Machine.joined ns a b) ((q.erase a).erase b) = queueSum ns ((q.erase a).erase b) :=
      congrArg List.sum (List.map_congr_left fun x hx =>
        freqOf_joined_old (h.made x (List.mem_of_mem_erase (List.mem_of_mem_erase hx))) hab)
    rw [queueSum, List.map_append, List.sum_append, ← queueSum, hold, List.map_singleton, List.sum_singleton,
      freqOf_joined_new hfit]
    omega
  case sums =>
    intro i hi hlt
    rw [joined_length] at hlt
    rcases Nat.lt_succ_iff_lt_or_eq.mp hlt with hlt | rfl
    · exact (h.sums i hi hlt).joined hlt hab
    · exact sumsChildren_new (h.made a ha) (h.made b hbq) hab hfit

theorem ExactMerging.merge {ls : List Entry} (hbound : (ls.map fun e => e.f.toNat).sum < 2 ^ 32) (k : Nat) {ns : List Entry}
    {q : List Nat} (h : ExactMerging ls ns q) (hk : k < q.length) : ExactMerging ls (merge k ns q).1 (merge k ns q).2 := by
  induction k generalizing ns q with
  | zero => exact h
  | succ k ih =>
    obtain ⟨a, b, ha, hb, hm⟩ := mergeOnce_joins ns (q := q) (by omega)
    have hlen := length_erase_erase_append ns.length ha hb
    simp only [Machine.merge, hm]
    exact ih (h.joined hbound ha hb) (by omega)

theorem exactMerging_leaves {t : Vector Word 256} (hn : 1 ≤ symbolCount t) (hsum : freqSum t < 2 ^ 32) :
    ExactMerging (leaves t) (mergeLeaves (leaves t)).1 [2 * symbolCount t - 2] := by
  have hstart : ExactMerging (leaves t) (leaves t) (List.range (leaves t).length) := by
    refine exactMerging_start fun e he => ?_
    obtain ⟨b, -, rfl⟩ := mem_leaves he
    exact ⟨rfl, rfl⟩
  rw [← (merging_leaves hn).2]
  refine hstart.merge (by rwa [leaves_sum]) _ ?_
  rw [List.length_range, ← symbolCount]
  omega

theorem nodeOf_buildArena (t : Vector Word 256) {i : Nat} (h : i < 511) :
    nodeOf (buildArena t) i = madeNode (mergeLeaves (leaves t)).1 i := nodeOf_arenaOf _ h

theorem ofNat_index_inj {i j : Nat} (hi : i < 511) (hj : j < 511) (h : BitVec.ofNat 9 i = BitVec.ofNat 9 j) : i = j := by
  simp only [← BitVec.toNat_inj, BitVec.toNat_ofNat] at h
  omega

/-- Settles O20: no merge wraps while the queue holds the table's sum, and at the end only the root is queued. -/
theorem rootFrequencyIsTheTotal : Obligations.RootFrequencyIsTheTotal := by
  unfold Obligations.RootFrequencyIsTheTotal
  intro t hn hsum
  have hle := symbolCount_le t
  have hm := exactMerging_leaves hn hsum
  have hcount := hm.count
  rw [List.length_singleton, ← symbolCount] at hcount
  refine ⟨?_, fun i l r hi hlt hl hr hl511 hr511 => ?_⟩
  · rw [nodeOf_buildArena t (by omega), ← leaves_sum, ← hm.total]
    simp [queueSum, freqOf_eq]
  · obtain ⟨l', r', hl', hr', el, er, hf⟩ := hm.sums i hi (by omega)
    rw [nodeOf_buildArena t (by omega)] at hl hr
    obtain rfl := ofNat_index_inj (by omega) hl511 (el.symm.trans hl)
    obtain rfl := ofNat_index_inj (by omega) hr511 (er.symm.trans hr)
    rw [nodeOf_buildArena t (by omega), nodeOf_buildArena t hl511, nodeOf_buildArena t hr511]
    exact hf

/-! ### The tables of no symbol and of one (R155, R156) -/

theorem arenaOf_nil : arenaOf [] = Vector.replicate 511 Entry.cleared := by
  ext1 i hi
  simp [arenaOf, padded_getElem]

theorem arenaOf_singleton (e : Entry) : arenaOf [e] = (Vector.replicate 511 Entry.cleared).set 0 e := by
  ext1 i hi
  cases i <;> simp [arenaOf, padded_getElem]

/-- Settles O21: without leaves, and with one leaf, the merge loop makes no pass; the sum is then 0, and the one count. -/
theorem degenerateTablesBuildTheirTrees : Obligations.DegenerateTablesBuildTheirTrees := by
  unfold Obligations.DegenerateTablesBuildTheirTrees
  intro s he hv
  refine ⟨fun h0 htotal => ?_, fun b hb htotal h0 => ?_⟩
  · have hl := leaves_of_empty h0
    have hsum : freqSum s.freq = s.total.toNat := by rw [← leaves_sum, hl, htotal]; rfl
    rw [exec_build_of_sum he hv hsum, buildArena, buildRoot, symbolCount, hl, ← arenaOf_nil]
    rfl
  · have hl := leaves_of_single (hb ▸ htotal) h0
    rw [hb] at hl
    have hsum : freqSum s.freq = s.total.toNat := by rw [← leaves_sum, hl]; exact List.sum_singleton
    rw [exec_build_of_sum he hv hsum, buildArena, buildRoot, symbolCount, hl]
    simp only [← arenaOf_singleton]
    simp [mergeLeaves, merge, rootOf, leafEntry]

/-! ### The known tree (R159) -/

/-- Settles O22: the five merges of the six leaves, evaluated. -/
theorem knownTreeHasItsArena : Obligations.KnownTreeHasItsArena := by
  unfold Obligations.KnownTreeHasItsArena
  decide

end Sys2Proof.Machine

/-! GENCODES (spec/43_code_table.md): a path code walked back down from ROOT, the leaves of a table's symbols, and what the code
store then holds. -/

namespace Sys2Proof.Machine

/-! ### Walks up and descents (R172, R173) -/

theorem descend_append (a : Vector Entry 511) (x : Index) (front back : List Bool) :
    descend a x (front ++ back) = (descend a x front).bind fun y => descend a y back := by
  induction front generalizing x with
  | nil => rfl
  | cons bit front ih =>
    simp only [List.cons_append, descend]
    split
    · rfl
    · split
      · exact ih _
      · rfl

/-- No descent leaves a leaf (R173). -/
theorem eq_nil_of_descend_leaf {a : Vector Entry 511} {i : Nat} {bits : List Bool} {y : Index} (hi : i < 511)
    (hleaf : (nodeOf a i).isLeaf = true) (h : descend a (BitVec.ofNat 9 i) bits = some y) : bits = [] := by
  cases bits with
  | nil => rfl
  | cons bit bits => simp [descend, entryAt_ofNat a hi, hleaf] at h

/-- From its parent a node is one bit down, its own side (R153). -/
theorem TreeLayout.descend_side {t : Vector Word 256} {a : Vector Entry 511} {n : Nat} (h : TreeLayout t a n) (hn : n ≤ 256)
    {x : Nat} (hx : x < 2 * n - 2) :
    ∃ p, x < p ∧ n ≤ p ∧ p ≤ 2 * n - 2 ∧ (nodeOf a x).parent = BitVec.ofNat 9 p ∧
      descend a (BitVec.ofNat 9 p) [(nodeOf a x).side] = some (BitVec.ofNat 9 x) := by
  obtain ⟨p, hxp, hnp, hpt, hparent, hchild⟩ := h.nonRoot x hx
  obtain ⟨huse, hleaf, -⟩ := h.internal p hnp hpt
  refine ⟨p, hxp, hnp, by omega, hparent, ?_⟩
  simpa [descend, childOf, entryAt_ofNat a (show p < 511 by omega), huse, hleaf] using hchild

/-- A walk that ends is at the root, or goes on from the parent with the side in front. -/
theorem walkUp_ok_cases {a : Vector Entry 511} {root x : Index} {k : Nat} {bits code : List Bool}
    (h : walkUp a root k x bits = .ok code) :
    (x = root ∧ code = bits) ∨
    (x ≠ root ∧ ∃ j e, k = j + 1 ∧ entryAt a x = some e ∧ walkUp a root j e.parent (e.side :: bits) = .ok code) := by
  unfold walkUp at h
  split at h
  · rename_i hroot
    cases h
    exact .inl ⟨hroot, rfl⟩
  · rename_i hroot
    split at h
    · cases h
    · rename_i j
      split at h
      · cases h
      · rename_i e he
        exact .inr ⟨hroot, j, e, rfl, he, h⟩

/-- The walk up from x puts the descent to x in front of the bits found before; each of its steps but the first leaves an internal
node. -/
theorem TreeLayout.walkUp_descends {t : Vector Word 256} {a : Vector Entry 511} {n : Nat} (h : TreeLayout t a n) (hn : n ≤ 256)
    {k x : Nat} (hx : x ≤ 2 * n - 2) {bits code : List Bool}
    (hw : walkUp a (BitVec.ofNat 9 (2 * n - 2)) k (BitVec.ofNat 9 x) bits = .ok code) :
    ∃ path, code = path ++ bits ∧ descend a (BitVec.ofNat 9 (2 * n - 2)) path = some (BitVec.ofNat 9 x) ∧
      path.length ≤ 2 * n - 2 - max x (n - 1) := by
  induction k using Nat.strong_induction_on generalizing x bits with
  | _ k ih =>
    rcases walkUp_ok_cases hw with ⟨hroot, rfl⟩ | ⟨hroot, j, e, rfl, he, hup⟩
    · exact ⟨[], rfl, congrArg some hroot.symm, Nat.zero_le _⟩
    · have hne : x ≠ 2 * n - 2 := fun hx => hroot (hx ▸ rfl)
      obtain ⟨p, hxp, hnp, hpt, hparent, hdown⟩ := h.descend_side hn (x := x) (by omega)
      obtain rfl := Option.some.inj ((entryAt_ofNat a (by omega)).symm.trans he)
      rw [hparent] at hup
      obtain ⟨path, rfl, hpath, hlen⟩ := ih j (Nat.lt_succ_self j) hpt hup
      refine ⟨path ++ [(nodeOf a x).side], by simp, by rw [descend_append, hpath]; exact hdown, ?_⟩
      rw [List.length_append, List.length_singleton]
      omega

/-! ### Path codes of two or more leaves (R172, R174) -/

/-- The path code of a leaf is the descent to it, of 1 to n − 1 bits: a leaf of two or more is not the root. -/
theorem TreeLayout.pathcode_descends {t : Vector Word 256} {a : Vector Entry 511} {n : Nat} (h : TreeLayout t a n)
    (hn : n ≤ 256) {k : Nat} (h2 : 2 ≤ n) (hk : k < n) {code : List Bool}
    (hc : pathcode a (BitVec.ofNat 9 (2 * n - 2)) n k = .ok code) :
    descend a (BitVec.ofNat 9 (2 * n - 2)) code = some (BitVec.ofNat 9 k) ∧ 1 ≤ code.length ∧ code.length ≤ n - 1 := by
  rw [pathcode, if_neg (show n ≠ 1 by omega)] at hc
  obtain ⟨path, hpath, hdown, hlen⟩ := h.walkUp_descends hn (by omega) hc
  rw [List.append_nil] at hpath
  subst hpath
  refine ⟨hdown, List.length_pos_iff.mpr fun hnil => ?_, by omega⟩
  rw [hnil, descend, Option.some.injEq] at hdown
  have := ofNat_index_inj (by omega) (by omega) hdown
  omega

/-- Two leaves with one path code ahead of the other's are one leaf: the descent stops at the first. -/
theorem TreeLayout.eq_of_pathcode_isPrefix {t : Vector Word 256} {a : Vector Entry 511} {n : Nat} (h : TreeLayout t a n)
    (hn : n ≤ 256) {i j : Nat} (h2 : 2 ≤ n) (hi : i < n) (hj : j < n) {ci cj : List Bool}
    (hci : pathcode a (BitVec.ofNat 9 (2 * n - 2)) n i = .ok ci)
    (hcj : pathcode a (BitVec.ofNat 9 (2 * n - 2)) n j = .ok cj) (hp : ci <+: cj) : i = j := by
  obtain ⟨rest, rfl⟩ := hp
  obtain ⟨hdi, -⟩ := h.pathcode_descends hn h2 hi hci
  obtain ⟨hdj, -⟩ := h.pathcode_descends hn h2 hj hcj
  rw [descend_append, hdi, Option.bind_some] at hdj
  have hi511 : i < 511 := by omega
  obtain ⟨-, hleaf, -⟩ := h.leaf i hi
  obtain rfl := eq_nil_of_descend_leaf hi511 hleaf hdj
  exact ofNat_index_inj hi511 (by omega) (Option.some.inj hdj)

/-- Settles O24: the walk up of a leaf finds the descent to it, bit by bit from its end. -/
theorem pathCodeLeadsDownToItsLeaf : Obligations.PathCodeLeadsDownToItsLeaf := by
  unfold Obligations.PathCodeLeadsDownToItsLeaf
  intro t k h2 hk
  have hlay := buildArena_layout (t := t) (by omega)
  have hle := symbolCount_le t
  obtain ⟨code, hc⟩ := hlay.pathcode_ok hle hk
  rw [buildRoot_eq (by omega)]
  exact ⟨code, hc, (hlay.pathcode_descends hle h2 hk hc).1⟩

/-! ### The leaf of a symbol (R150, R153) -/

theorem byte_setWidth_inj {a b : Byte} (h : a.setWidth 9 = b.setWidth 9) : a = b := by bv_omega

theorem leafEntry_mem_leavesFrom (s : Nat) {fs : List Word} {k : Nat} (hk : k < fs.length) (h0 : fs[k] ≠ 0) :
    leafEntry (s + k) fs[k] ∈ leavesFrom s fs := by
  induction fs generalizing s k with
  | nil => simp at hk
  | cons f fs ih =>
    cases k with
    | zero =>
      have h0 : f ≠ 0 := h0
      rw [leavesFrom_cons_of_ne_zero s fs h0]
      exact List.mem_cons_self
    | succ k =>
      have htail := ih (s + 1) (Nat.lt_of_succ_lt_succ hk) h0
      rw [Nat.add_right_comm] at htail
      by_cases hf : f = 0
      · rw [leavesFrom_cons_of_eq_zero s fs hf]; exact htail
      · rw [leavesFrom_cons_of_ne_zero s fs hf]; exact List.mem_cons_of_mem _ htail

theorem leafEntry_mem_leaves {t : Vector Word 256} {b : Byte} (h : symGet t b ≠ 0) :
    leafEntry b.toNat (symGet t b) ∈ leaves t := by
  have hmem := leafEntry_mem_leavesFrom 0 (fs := t.toList) (k := b.toNat) (by simpa using b.isLt) h
  rwa [Nat.zero_add] at hmem

/-- A symbol that occurs has a leaf. -/
theorem exists_leaf {t : Vector Word 256} {b : Byte} (h : symGet t b ≠ 0) :
    ∃ k, k < symbolCount t ∧ (nodeOf (buildArena t) k).sym = b.setWidth 9 := by
  obtain ⟨k, hkl, he⟩ := List.getElem_of_mem (leafEntry_mem_leaves h)
  have hk : k < symbolCount t := hkl
  have hle := symbolCount_le t
  obtain ⟨p, d, hleaf⟩ := (merging_leaves (t := t) (by omega)).1.leaf k hk
  refine ⟨k, hk, ?_⟩
  rw [nodeOf_buildArena t (by omega), hleaf, madeNode, List.getD_eq_getElem _ _ hkl]
  simp only [he]
  simp [leafEntry]

/-- A leaf's symbol is a byte that occurs. -/
theorem leaf_symbol {t : Vector Word 256} {k : Nat} (hk : k < symbolCount t) :
    ∃ b : Byte, (nodeOf (buildArena t) k).sym = b.setWidth 9 ∧ symGet t b ≠ 0 := by
  obtain ⟨-, -, -, -, b, hb, -, h0⟩ := (buildArena_layout (t := t) (by omega)).leaf k hk
  exact ⟨b, hb, h0⟩

/-! ### The code store (R170) -/

/-- One pass of the loop of R170 writes one path code at its leaf's symbol. -/
theorem codesOf_cons {a : Vector Entry 511} {root : Index} {n k : Nat} {ks : List Nat} {t c : Vector (List Bool) 256}
    (h : codesOf a root n (k :: ks) t = .ok c) :
    ∃ (b : Byte) (bits : List Bool), (nodeOf a k).sym = b.setWidth 9 ∧ pathcode a root n k = .ok bits ∧
      codesOf a root n ks (symSet t b bits) = .ok c := by
  unfold codesOf at h
  split at h
  · cases h
  · rename_i e he
    split at h
    · rename_i hsym
      split at h
      · rename_i bits hbits
        refine ⟨e.sym.setWidth 8, bits, ?_, hbits, h⟩
        rw [nodeOf, he, Option.getD_some]
        bv_omega
      · cases h
    · cases h

/-- The loop leaves the code of a symbol without a leaf as it was. -/
theorem codesOf_other {a : Vector Entry 511} {root : Index} {n : Nat} {ks : List Nat} {t c : Vector (List Bool) 256}
    (h : codesOf a root n ks t = .ok c) {b : Byte} (hb : ∀ k ∈ ks, (nodeOf a k).sym ≠ b.setWidth 9) :
    symGet c b = symGet t b := by
  induction ks generalizing t with
  | nil => cases h; rfl
  | cons k ks ih =>
    obtain ⟨d, bits, hd, -, h⟩ := codesOf_cons h
    obtain ⟨hk, hks⟩ := List.forall_mem_cons.mp hb
    rw [ih h hks, symGet_symSet_other t bits fun e => hk (by rw [e, hd])]

/-- The loop over leaves of distinct symbols leaves each its path code. -/
theorem codesOf_leaf {a : Vector Entry 511} {root : Index} {n : Nat} {ks : List Nat} {t c : Vector (List Bool) 256}
    (h : codesOf a root n ks t = .ok c) (hks : ks.Pairwise fun i j => (nodeOf a i).sym ≠ (nodeOf a j).sym) {k : Nat}
    (hk : k ∈ ks) {b : Byte} (hb : (nodeOf a k).sym = b.setWidth 9) : pathcode a root n k = .ok (symGet c b) := by
  induction ks generalizing t with
  | nil => simp at hk
  | cons j ks ih =>
    obtain ⟨d, bits, hd, hbits, h⟩ := codesOf_cons h
    obtain ⟨hj, hks⟩ := List.pairwise_cons.mp hks
    rcases List.mem_cons.mp hk with rfl | hk
    · obtain rfl := byte_setWidth_inj (hb.symm.trans hd)
      have hother : ∀ i ∈ ks, (nodeOf a i).sym ≠ b.setWidth 9 := fun i hi e => hj i hi (hb.trans e.symm)
      rw [codesOf_other h hother, symGet_symSet_same, hbits]
    · exact ih h hks hk

theorem TreeLayout.pairwise_sym_ne {t : Vector Word 256} {a : Vector Entry 511} {n : Nat} (h : TreeLayout t a n) :
    (List.range n).Pairwise fun i j => (nodeOf a i).sym ≠ (nodeOf a j).sym :=
  List.pairwise_iff_getElem.mpr fun i j hi hj hij e => by
    rw [List.getElem_range, List.getElem_range] at e
    exact (h.ascending i j hij (by simpa using hj)).ne (congrArg BitVec.toNat e)

/-- The code store of a built tree holds each leaf's path code at its symbol. -/
theorem codeTable_leaf {t : Vector Word 256} {c : Vector (List Bool) 256}
    (h : codeTable (buildArena t) (buildRoot t) (symbolCount t) = .ok c) {k : Nat} (hk : k < symbolCount t) {b : Byte}
    (hb : (nodeOf (buildArena t) k).sym = b.setWidth 9) :
    pathcode (buildArena t) (buildRoot t) (symbolCount t) k = .ok (symGet c b) :=
  codesOf_leaf h (buildArena_layout (by omega)).pairwise_sym_ne (List.mem_range.mpr hk) hb

theorem codeTable_present {t : Vector Word 256} {c : Vector (List Bool) 256}
    (h : codeTable (buildArena t) (buildRoot t) (symbolCount t) = .ok c) {b : Byte} (hb : symGet t b ≠ 0) :
    ∃ k, k < symbolCount t ∧ (nodeOf (buildArena t) k).sym = b.setWidth 9 ∧
      pathcode (buildArena t) (BitVec.ofNat 9 (2 * symbolCount t - 2)) (symbolCount t) k = .ok (symGet c b) := by
  obtain ⟨k, hk, hsym⟩ := exists_leaf hb
  refine ⟨k, hk, hsym, ?_⟩
  rw [← buildRoot_eq (by omega)]
  exact codeTable_leaf h hk hsym

theorem codeTable_absent {t : Vector Word 256} {c : Vector (List Bool) 256}
    (h : codeTable (buildArena t) (buildRoot t) (symbolCount t) = .ok c) {b : Byte} (hb : symGet t b = 0) :
    symGet c b = [] := by
  refine (codesOf_other h fun k hk e => ?_).trans (symGet_replicate [] b)
  obtain ⟨d, hd, h0⟩ := leaf_symbol (List.mem_range.mp hk)
  exact h0 (byte_setWidth_inj (hd.symm.trans e) ▸ hb)

/-! ### The obligations on GENCODES (R170, R171, R174) -/

theorem genCodesBody_of_codeTable {s : State} {c : Vector (List Bool) 256}
    (h : codeTable s.node s.root s.nsym.toNat = .ok c) :
    genCodesBody s = .next ({ s with
      code := c, accBits := 0, accN := 0, encCount := 0, encBits := 0, codesValid := true, encClosed := false }, .done) := by
  simp only [genCodesBody, h]
  rfl

theorem exec_genCodes_of_codeTable {s : State} {c : Vector (List Bool) 256} (he : s.err = .none) (hv : s.treeValid = true)
    (hc : s.codesValid = false) (h : codeTable s.node s.root s.nsym.toNat = .ok c) :
    exec .genCodes s = .next { s with
      code := c, accBits := 0, accN := 0, encCount := 0, encBits := 0, codesValid := true, encClosed := false,
      lastOp := 0x04, stop := .done, irqStat := s.irqStat ||| 0b01#2, pending := none } :=
  runCommand_runs (i := .genCodes) (body := genCodesBody) (.inl he) (by simp [phaseOK, hv, hc]) rfl
    (genCodesBody_of_codeTable h)

/-- Settles O23: the code table of a built tree exists, and holds a path code at each leaf's symbol and nothing elsewhere. -/
theorem genCodesWritesEveryPathCode : Obligations.GenCodesWritesEveryPathCode := by
  unfold Obligations.GenCodesWritesEveryPathCode
  intro s he hv hc htree
  obtain ⟨hnode, hroot, hnsym⟩ := htree hv
  obtain ⟨c, hct⟩ := codeTable_ok s.freq
  refine ⟨c, exec_genCodes_of_codeTable he hv hc (by rw [hnode, hroot, hnsym, hct]), fun b => codeTable_absent hct, ?_, ?_⟩
  · rw [hnode, hroot, hnsym]
    intro k hk
    obtain ⟨b, hb, -⟩ := leaf_symbol hk
    exact ⟨b, hb, codeTable_leaf hct hk hb⟩
  · intro hone b hb
    have hcount : symbolCount s.freq = 1 := by rw [← hnsym, hone]; rfl
    obtain ⟨k, -, -, hcode⟩ := codeTable_present hct hb
    rw [pathcode, if_pos hcount] at hcode
    exact (Except.ok.inj hcode).symm

/-- Settles O25: a code ahead of another would lead the descent to one leaf for both, but a leaf has one symbol. -/
theorem codesArePrefixFree : Obligations.CodesArePrefixFree := by
  unfold Obligations.CodesArePrefixFree
  intro t c a b h2 hct ha hb hne hp
  obtain ⟨i, hi, hia, hci⟩ := codeTable_present hct ha
  obtain ⟨j, hj, hjb, hcj⟩ := codeTable_present hct hb
  obtain rfl := (buildArena_layout (by omega)).eq_of_pathcode_isPrefix (symbolCount_le t) h2 hi hj hci hcj hp
  exact hne (byte_setWidth_inj (hia.symm.trans hjb))

/-- Settles O26: a symbol that occurs has its leaf's path code, of 1 to n − 1 bits, and any other the empty code. -/
theorem codeLengthsAreBounded : Obligations.CodeLengthsAreBounded := by
  unfold Obligations.CodeLengthsAreBounded
  intro t c h2 hct b
  have hle := symbolCount_le t
  by_cases hb : symGet t b = 0
  · have hcode := codeTable_absent hct hb
    simp only [hcode, hb, List.length_nil, ne_eq, not_true_eq_false, iff_false]
    omega
  · obtain ⟨k, hk, -, hcode⟩ := codeTable_present hct hb
    obtain ⟨-, hpos, hlen⟩ := (buildArena_layout (by omega)).pathcode_descends hle h2 hk hcode
    exact ⟨iff_of_true hpos hb, hlen, by omega⟩

end Sys2Proof.Machine

/-! The encoder (spec/44_encoder.md): the outcomes of HDR_EMIT and FLUSH, what `putbit` packs, what one pass of ENCODE's loop
does, then runs of passes over written bytes and over any bytes. -/

namespace Sys2Proof.Machine

/-! ### HDR_EMIT (R180) -/

theorem hdrEmitBody_of_room {s : State} (h : s.outLen.toNat + headerSize ≤ s.cfg.obufBytes) :
    hdrEmitBody s = stopWith .done { s with
      obuf := Memory.writeList s.obuf s.outLen.toNat (headerBytes s.freq s.total)
      outLen := BitVec.ofNat 15 (s.outLen.toNat + headerSize) } := by
  have hsize := s.cfg.obufOk.2.1
  rw [hdrEmitBody, if_neg (Nat.not_lt.mpr h), emitAll_eq _ _ (by rw [headerBytes_length]; omega), headerBytes_length]

theorem hdrEmitBody_of_no_room {s : State} (h : s.cfg.obufBytes < s.outLen.toNat + headerSize) :
    hdrEmitBody s = stopWith .outFull s := if_pos h

/-- HDR_EMIT in phase and in range ends as its body does (R121, R130, R132). -/
theorem exec_hdrEmit_of_body {s t : State} {w : Stop} (he : s.err = .none) (hv : s.treeValid = true) (hc : s.encCount = 0)
    (hx : s.encClosed = false) (hout : s.outLen.toNat ≤ s.cfg.obufBytes)
    (hb : hdrEmitBody { s with lastOp := 0x05 } = .next (t, w)) : exec .hdrEmit s = .next (finish w t) :=
  runCommand_runs (i := .hdrEmit) (.inl he) (by simp [phaseOK, hv, hc, hx]) (decide_eq_true hout) hb

/-- Settles O28: the body writes the header's 1028 bytes at OUT_LEN, or stops before the first. -/
theorem hdrEmitAppendsTheHeaderOrNothing : Obligations.HdrEmitAppendsTheHeaderOrNothing := by
  unfold Obligations.HdrEmitAppendsTheHeaderOrNothing
  intro s he hv hc hx hout
  have hlen : (headerBytes s.freq s.total).length = 1028 := headerBytes_length s.freq s.total
  refine ⟨fun hroom => ⟨Memory.writeList s.obuf s.outLen.toNat (headerBytes s.freq s.total), ?_, fun j hj => ?_,
    fun p hp => ?_⟩, fun hroom => ?_⟩
  · rw [exec_hdrEmit_of_body he hv hc hx hout (hdrEmitBody_of_room hroom), headerSize]
    rfl
  · rw [List.getElem?_eq_getElem (hlen ▸ hj), Memory.read_writeList_at]
  · exact Memory.read_writeList_other (hlen.symm ▸ hp)
  · exact exec_hdrEmit_of_body he hv hc hx hout (hdrEmitBody_of_no_room hroom)

/-! ### FLUSH (R190, R191) -/

theorem flushBody_of_count_ne {s : State} (h : s.encCount ≠ s.total) : flushBody s = raise .incomplete s := if_pos h

theorem flushBody_of_no_room {s : State} (h : s.encCount = s.total) (hn : s.accN ≠ 0) (hfull : s.outLen.toNat = s.cfg.obufBytes) :
    flushBody s = stopWith .outFull s := by
  rw [flushBody, if_neg (not_not.mpr h), if_pos hn, if_pos hfull]

theorem flushBody_of_pending {s : State} (h : s.encCount = s.total) (hn : s.accN ≠ 0)
    (hroom : s.outLen.toNat ≠ s.cfg.obufBytes) :
    flushBody s = stopWith .done { emit s.accBits s with accBits := 0, accN := 0, encClosed := true } := by
  rw [flushBody, if_neg (not_not.mpr h), if_pos hn, if_neg hroom]

theorem flushBody_of_no_pending {s : State} (h : s.encCount = s.total) (hn : s.accN = 0) :
    flushBody s = stopWith .done { s with encClosed := true } := by
  rw [flushBody, if_neg (not_not.mpr h), if_neg (not_not.mpr hn)]

/-- FLUSH in phase and in range ends as its body does (R121, R130, R132). -/
theorem exec_flush_of_body {s t : State} {w : Stop} (he : s.err = .none) (hc : s.codesValid = true) (hx : s.encClosed = false)
    (hout : s.outLen.toNat ≤ s.cfg.obufBytes) (hb : flushBody { s with lastOp := 0x08 } = .next (t, w)) :
    exec .flush s = .next (finish w t) :=
  runCommand_runs (i := .flush) (.inl he) (by simp [phaseOK, hc, hx]) (decide_eq_true hout) hb

/-- Settles O35: one equation of the body per outcome. -/
theorem flushWritesThePaddedLastByte : Obligations.FlushWritesThePaddedLastByte := by
  unfold Obligations.FlushWritesThePaddedLastByte
  intro s he hc hx hout
  refine ⟨fun hne => ?_, fun h hn hfull => ?_, fun h hn hroom => ?_, fun h hn => ?_⟩
  · rw [exec_flush_of_body he hc hx hout (flushBody_of_count_ne hne)]
    exact congrArg _ (finish_recordErr .incomplete he)
  · exact exec_flush_of_body he hc hx hout (flushBody_of_no_room h hn hfull)
  · exact exec_flush_of_body he hc hx hout (flushBody_of_pending h hn hroom.ne)
  · exact exec_flush_of_body he hc hx hout (flushBody_of_no_pending h hn)

/-! ### Bits in bytes (R102, R103) -/

theorem byteOfBits_getLsbD (bits : List Bool) {j : Nat} (hj : j < 8) :
    (byteOfBits bits).getLsbD (7 - j) = bits.getD j false := by
  interval_cases j <;> simp [byteOfBits, List.range_succ]

@[simp] theorem packBits_length (k : Nat) (bits : List Bool) : (packBits k bits).length = k := by
  induction k generalizing bits with
  | zero => rfl
  | succ k ih => rw [packBits, List.length_cons, ih]

@[simp] theorem pendingBits_length (s : State) : (pendingBits s).length = s.accN.toNat := by simp [pendingBits]

/-- Two bytes are equal when their stream bits are (R103). -/
theorem byte_ext {a b : Byte} (h : ∀ j, j < 8 → a.getLsbD (7 - j) = b.getLsbD (7 - j)) : a = b := by
  refine BitVec.eq_of_getLsbD_eq fun k hk => ?_
  have := h (7 - k) (by omega)
  rwa [show 7 - (7 - k) = k by omega] at this

/-- A zero-padded accumulator is its pending bits, the first at bit 7 (R37, R56 (1)). -/
theorem accBits_getLsbD {s : State} (h : accPadded s) {j : Nat} (hj : j < 8) :
    s.accBits.getLsbD (7 - j) = (pendingBits s).getD j false := by
  by_cases hn : j < s.accN.toNat
  · simp [pendingBits, hn, streamBit]
  · rw [h _ (by omega)]
    simp [pendingBits, Nat.le_of_not_lt hn]

theorem byteOfBits_pendingBits {s : State} (h : accPadded s) : byteOfBits (pendingBits s) = s.accBits :=
  byte_ext fun _ hj => by rw [byteOfBits_getLsbD _ hj, accBits_getLsbD h hj]

theorem withBit_accBits {s : State} (x : Bool) (h : accPadded s) :
    withBit s.accBits (7 - s.accN.toNat) x = byteOfBits (pendingBits s ++ [x]) := by
  have hn := s.accN.isLt
  refine byte_ext fun j hj => ?_
  rw [byteOfBits_getLsbD _ hj, withBit_getLsbD _ _ _ (by omega), accBits_getLsbD h hj, List.getD_eq_getElem?_getD,
    List.getD_eq_getElem?_getD, List.getElem?_append, pendingBits_length]
  rcases lt_trichotomy j s.accN.toNat with hlt | rfl | hgt
  · simp [hlt, show 7 - j ≠ 7 - s.accN.toNat by omega]
  · simp
  · simp [hgt.not_gt, show 7 - j ≠ 7 - s.accN.toNat by omega, show j - s.accN.toNat ≠ 0 by omega]

/-! ### `putbit` (R184) -/

theorem putbit_of_eq {s : State} (x : Bool) (h : accPadded s) (hn : s.accN = 7) :
    putbit x s = { emit (byteOfBits (pendingBits s ++ [x])) s with accBits := 0, accN := 0 } := by
  simp only [putbit, withBit_accBits x h, if_pos hn]

theorem putbit_of_ne {s : State} (x : Bool) (h : accPadded s) (hn : s.accN ≠ 7) :
    putbit x s = { s with accBits := byteOfBits (pendingBits s ++ [x]), accN := s.accN + 1 } := by
  simp only [putbit, withBit_accBits x h, if_neg hn]

/-- Bits written into a byte are pending there in their order. -/
theorem pendingBits_of_byteOfBits {s : State} {bits : List Bool} (hb : s.accBits = byteOfBits bits)
    (hn : s.accN.toNat = bits.length) : pendingBits s = bits := by
  refine List.ext_getElem (by simpa using hn) fun j hj hj' => ?_
  have hlt := s.accN.isLt
  simp [pendingBits, streamBit, hb, byteOfBits_getLsbD bits (j := j) (by omega), hj']

/-- The state with the bits packed behind the pending ones: whole bytes at OUT_LEN, the rest pending over zeros. -/
def afterBits (s : State) (bits : List Bool) : State :=
  { s with
    obuf := Memory.writeList s.obuf s.outLen.toNat (packBits ((pendingBits s ++ bits).length / 8) (pendingBits s ++ bits))
    outLen := BitVec.ofNat 15 (s.outLen.toNat + (pendingBits s ++ bits).length / 8)
    accBits := byteOfBits ((pendingBits s ++ bits).drop (8 * ((pendingBits s ++ bits).length / 8)))
    accN := BitVec.ofNat 3 ((pendingBits s ++ bits).length % 8) }

theorem afterBits_nil {s : State} (h : accPadded s) : afterBits s [] = s := by
  have hdiv : s.accN.toNat / 8 = 0 := Nat.div_eq_of_lt s.accN.isLt
  have hmod : s.accN.toNat % 8 = s.accN.toNat := Nat.mod_eq_of_lt s.accN.isLt
  simp [afterBits, hdiv, hmod, packBits, Memory.writeList, byteOfBits_pendingBits h]

/-- A bit that does not fill the byte stays pending. -/
theorem afterBits_putbit_of_ne {s : State} (x : Bool) (xs : List Bool) (h : accPadded s) (hn : s.accN ≠ 7) :
    afterBits (putbit x s) xs = afterBits s (x :: xs) := by
  have hp : pendingBits (putbit x s) = pendingBits s ++ [x] :=
    pendingBits_of_byteOfBits (by rw [putbit_of_ne x h hn])
      (by rw [putbit_accN, if_neg hn, List.length_append, pendingBits_length, List.length_singleton]; bv_omega)
  unfold afterBits
  rw [hp, List.append_assoc, List.singleton_append, putbit_of_ne x h hn]

/-- The bit that fills the byte sends it out. -/
theorem afterBits_putbit_of_eq {s : State} (x : Bool) (xs : List Bool) (h : accPadded s) (hn : s.accN = 7)
    (ho : (s.outLen + 1).toNat = s.outLen.toNat + 1) : afterBits (putbit x s) xs = afterBits s (x :: xs) := by
  have hp : pendingBits (putbit x s) = [] := by rw [putbit_of_eq x h hn]; rfl
  have hfull : (pendingBits s ++ [x]).length = 8 := by simp [hn]
  have hbits : pendingBits s ++ x :: xs = (pendingBits s ++ [x]) ++ xs := by simp
  have hdiv : (8 + xs.length) / 8 = xs.length / 8 + 1 := by omega
  unfold afterBits
  rw [hp, List.nil_append, hbits, List.length_append, hfull, hdiv, packBits, List.take_left' hfull, List.drop_left' hfull,
    Nat.mul_add, Nat.mul_one, Nat.add_comm _ 8, ← List.drop_drop, List.drop_left' hfull, putbit_of_eq x h hn,
    Nat.add_mod_left]
  simp only [emit, ho, Memory.writeList, Nat.add_assoc, Nat.add_comm 1]

/-- `putbits` packs MSB first behind the pending bits (R102, R184). -/
theorem putbits_eq_afterBits (bits : List Bool) {s : State} (h : accPadded s)
    (hroom : bitsOut s + bits.length < 8 * (s.cfg.obufBytes + 1)) : putbits bits s = afterBits s bits := by
  induction bits generalizing s with
  | nil => exact (afterBits_nil h).symm
  | cons x xs ih =>
    rw [List.length_cons] at hroom
    have hroom' : bitsOut (putbit x s) + xs.length < 8 * ((putbit x s).cfg.obufBytes + 1) := by
      rw [(putbit_output x (by omega)).1, putbit_cfg]
      omega
    rw [putbits, ih (putbit_accPadded x h) hroom']
    by_cases hn : s.accN = 7
    · have hn7 : s.accN.toNat = 7 := congrArg BitVec.toNat hn
      unfold bitsOut at hroom
      exact afterBits_putbit_of_eq x xs h hn (outLen_add_one_toNat (by omega))
    · exact afterBits_putbit_of_ne x xs h hn

theorem putbits_append (xs ys : List Bool) (s : State) : putbits (xs ++ ys) s = putbits ys (putbits xs s) := by
  induction xs generalizing s with
  | nil => rfl
  | cons x xs ih => exact ih (putbit x s)

/-- `putbits` does not look at ENCODE's counters. -/
theorem putbits_withCounters (xs : List Bool) (s : State) (c : Word) (n : BitVec 64) (p : BitVec 15) :
    putbits xs { s with encCount := c, encBits := n, ipos := p } =
      { putbits xs s with encCount := c, encBits := n, ipos := p } := by
  induction xs generalizing s with
  | nil => rfl
  | cons x xs ih =>
    have hx : putbit x { s with encCount := c, encBits := n, ipos := p } =
        { putbit x s with encCount := c, encBits := n, ipos := p } := by
      by_cases hn : s.accN = 7
      · simp only [putbit, if_pos hn, emit]
      · simp only [putbit, if_neg hn]
    rw [putbits, hx]
    exact ih (putbit x s)

/-! ### One pass of ENCODE (R182, R183, R185) -/

/-- What a pass writes for the byte b. -/
def encodeByte (s : State) (b : Byte) : State :=
  { putbits (symGet s.code b) s with
    encCount := BitVec.ofNat 32 (s.encCount.toNat + 1)
    encBits := BitVec.ofNat 64 (s.encBits.toNat + (symGet s.code b).length)
    ipos := s.ipos + 1 }

/-- Before TOTAL is reached ENCODE's counters do not wrap (R10, R39). -/
theorem EncodeSafe.counters_fit {s : State} (h : EncodeSafe s) (hall : s.encCount ≠ s.total) (b : Byte) :
    s.encCount.toNat < s.total.toNat ∧ s.encBits.toNat + (symGet s.code b).length < 2 ^ 64 := by
  obtain ⟨-, hcount, hbits, hcodes⟩ := h
  have hlen := hcodes b
  have hword := s.total.isLt
  unfold maxCodeLen at hbits hlen
  exact ⟨lt_of_le_of_ne hcount fun e => hall (BitVec.eq_of_toNat_eq e), by omega⟩

theorem encodeTurn_at_end {s : State} (h : s.ipos = s.inLen) : encodeTurn s = .ends s .done := if_pos h

section
variable {s : State} {b : Byte} {d : Nat} (hne : s.ipos ≠ s.inLen) (hread : readIbuf s.ipos.toNat s = (b, { s with draws := d }))
include hne hread

theorem encodeTurn_of_no_code (hcode : symGet s.code b = []) : encodeTurn s = Turn.raise .noCode { s with draws := d } := by
  simp only [encodeTurn, if_neg hne, hread, hcode, List.length_nil, if_true]

theorem encodeTurn_of_excess (hcode : symGet s.code b ≠ []) (hall : s.encCount = s.total) :
    encodeTurn s = Turn.raise .excessSymbol { s with draws := d } := by
  simp only [encodeTurn, if_neg hne, hread, List.length_eq_zero_iff, if_neg hcode, if_pos hall]

theorem encodeTurn_of_no_room (hcode : symGet s.code b ≠ []) (hall : s.encCount ≠ s.total)
    (hfull : s.cfg.obufBytes < s.outLen.toNat + (s.accN.toNat + (symGet s.code b).length) / 8) :
    encodeTurn s = .ends { s with draws := d } .outFull := by
  simp only [encodeTurn, if_neg hne, hread, List.length_eq_zero_iff, if_neg hcode, if_neg hall, if_pos hfull]

end

/-- The pass takes the byte b, read at IPOS with the draw counter left at d. -/
structure EncodeTakes (s : State) (b : Byte) (d : Nat) : Prop where
  more : s.ipos ≠ s.inLen
  read : readIbuf s.ipos.toNat s = (b, { s with draws := d })
  coded : symGet s.code b ≠ []
  allowed : s.encCount.toNat < s.total.toNat
  room : s.outLen.toNat + (s.accN.toNat + (symGet s.code b).length) / 8 ≤ s.cfg.obufBytes
  bits : s.encBits.toNat + (symGet s.code b).length < 2 ^ 64

theorem EncodeTakes.encodeTurn {s : State} {b : Byte} {d : Nat} (h : EncodeTakes s b d) :
    encodeTurn s = .again (encodeByte { s with draws := d } b) := by
  obtain ⟨hne, hread, hcode, hall, hroom, hbits⟩ := h
  have hall' : s.encCount ≠ s.total := fun e => hall.ne (congrArg BitVec.toNat e)
  have hcount : s.encCount.toNat + 1 < 2 ^ 32 := Nat.lt_of_le_of_lt hall s.total.isLt
  simp only [Machine.encodeTurn, if_neg hne, hread, List.length_eq_zero_iff, if_neg hcode, if_neg hall', if_neg hroom.not_gt,
    bump_of_lt _ hcount, bump_of_lt _ hbits]
  rfl

/-- The loop ends in t: at IN_LEN, or at a byte that it cannot take. -/
def EncodeStops (s t : State) (w : Stop) : Prop :=
  (w = .done ∧ t = s ∧ s.ipos = s.inLen) ∨
  (s.ipos ≠ s.inLen ∧ ∃ d, (w = .outFull ∧ t = { s with draws := d }) ∨
    (w = .error ∧ ∃ e, (e = .noCode ∨ e = .excessSymbol) ∧ t = recordErr e { s with draws := d }))

/-- What a pass can do, whatever byte it reads. -/
theorem EncodeSafe.encodeTurn_cases {s : State} (h : EncodeSafe s) :
    (∃ b d, EncodeTakes s b d) ∨ ∃ t w, encodeTurn s = .ends t w ∧ EncodeStops s t w := by
  by_cases hend : s.ipos = s.inLen
  · exact .inr ⟨_, _, encodeTurn_at_end hend, .inl ⟨rfl, rfl, hend⟩⟩
  obtain ⟨b, d, hread⟩ := readIbuf_eq s.ipos.toNat s
  by_cases hcode : symGet s.code b = []
  · exact .inr ⟨_, _, encodeTurn_of_no_code hend hread hcode, .inr ⟨hend, d, .inr ⟨rfl, _, .inl rfl, rfl⟩⟩⟩
  by_cases hall : s.encCount = s.total
  · exact .inr ⟨_, _, encodeTurn_of_excess hend hread hcode hall, .inr ⟨hend, d, .inr ⟨rfl, _, .inr rfl, rfl⟩⟩⟩
  by_cases hroom : s.outLen.toNat + (s.accN.toNat + (symGet s.code b).length) / 8 ≤ s.cfg.obufBytes
  · obtain ⟨hlt, hbits⟩ := h.counters_fit hall b
    exact .inl ⟨b, d, hend, hread, hcode, hlt, hroom, hbits⟩
  · exact .inr ⟨_, _, encodeTurn_of_no_room hend hread hcode hall (Nat.lt_of_not_le hroom), .inr ⟨hend, d, .inl ⟨rfl, rfl⟩⟩⟩

/-! ### Symbols that ENCODE takes -/

@[simp] theorem payloadBits_append (code : Vector (List Bool) 256) (xs ys : List Byte) :
    payloadBits code (xs ++ ys) = payloadBits code xs ++ payloadBits code ys := List.flatMap_append

@[simp] theorem payloadBits_singleton (code : Vector (List Bool) 256) (b : Byte) : payloadBits code [b] = symGet code b :=
  List.flatMap_singleton _ _

theorem afterEncoding_nil {s : State} (h : accPadded s) : afterEncoding s [] = s := by
  have hbits : afterBits s [] = s := afterBits_nil h
  calc afterEncoding s [] = { afterBits s [] with
        encCount := BitVec.ofNat 32 s.encCount.toNat
        encBits := BitVec.ofNat 64 s.encBits.toNat
        ipos := BitVec.ofNat 15 s.ipos.toNat } := rfl
    _ = s := by simp only [hbits, BitVec.ofNat_toNat, BitVec.setWidth_eq]

/-- The symbols bs have codes, lie within the chunk and TOTAL, and their bits fit ENC_BITS and OBUF. -/
structure Encodable (s : State) (bs : List Byte) : Prop where
  padded : accPadded s
  inChunk : s.ipos.toNat + bs.length ≤ s.inLen.toNat
  coded : ∀ b ∈ bs, symGet s.code b ≠ []
  allowed : s.encCount.toNat + bs.length ≤ s.total.toNat
  bits : s.encBits.toNat + (payloadBits s.code bs).length < 2 ^ 64
  room : s.outLen.toNat + (s.accN.toNat + (payloadBits s.code bs).length) / 8 ≤ s.cfg.obufBytes

theorem Encodable.nil {s : State} (hpad : accPadded s) (hin : s.ipos.toNat ≤ s.inLen.toNat)
    (hcount : s.encCount.toNat ≤ s.total.toNat) (hout : s.outLen.toNat ≤ s.cfg.obufBytes) : Encodable s [] :=
  ⟨hpad, hin, nofun, hcount, s.encBits.isLt, by rwa [payloadBits, List.flatMap_nil, List.length_nil, Nat.add_zero,
    Nat.div_eq_of_lt s.accN.isLt]⟩

theorem Encodable.withDraws {s : State} {bs : List Byte} (h : Encodable s bs) (d : Nat) : Encodable { s with draws := d } bs :=
  ⟨h.padded, h.inChunk, h.coded, h.allowed, h.bits, h.room⟩

theorem Encodable.withLastOp {s : State} {bs : List Byte} (h : Encodable s bs) (b : Byte) :
    Encodable { s with lastOp := b } bs :=
  ⟨h.padded, h.inChunk, h.coded, h.allowed, h.bits, h.room⟩

/-- A symbol is encodable behind others where it has a code, a place in the chunk and in TOTAL, and room. -/
theorem encodable_snoc {s : State} {bs : List Byte} {b : Byte} :
    Encodable s (bs ++ [b]) ↔ Encodable s bs ∧ s.ipos.toNat + bs.length < s.inLen.toNat ∧ symGet s.code b ≠ [] ∧
      s.encCount.toNat + bs.length < s.total.toNat ∧
      s.encBits.toNat + (payloadBits s.code bs).length + (symGet s.code b).length < 2 ^ 64 ∧
      s.outLen.toNat + (s.accN.toNat + (payloadBits s.code bs).length + (symGet s.code b).length) / 8 ≤ s.cfg.obufBytes := by
  have hlen : (bs ++ [b]).length = bs.length + 1 := List.length_append
  have hbits : (payloadBits s.code (bs ++ [b])).length = (payloadBits s.code bs).length + (symGet s.code b).length := by
    rw [payloadBits_append, payloadBits_singleton, List.length_append]
  have hcoded : (∀ x ∈ bs ++ [b], symGet s.code x ≠ []) ↔ (∀ x ∈ bs, symGet s.code x ≠ []) ∧ symGet s.code b ≠ [] := by
    simp [or_imp, forall_and]
  constructor
  · rintro ⟨hpad, hin, hc, hcount, hsum, hroom⟩
    rw [hlen] at hin hcount
    rw [hbits] at hsum hroom
    obtain ⟨hcs, hcb⟩ := hcoded.mp hc
    exact ⟨⟨hpad, by omega, hcs, by omega, by omega, by omega⟩, by omega, hcb, by omega, by omega, by omega⟩
  · rintro ⟨⟨hpad, -, hcs, -, -, -⟩, hin, hcb, hcount, hsum, hroom⟩
    exact ⟨hpad, by omega, hcoded.mpr ⟨hcs, hcb⟩, by omega, by omega, by rw [hbits]; omega⟩

theorem afterEncoding_accN_toNat (s : State) (bs : List Byte) :
    (afterEncoding s bs).accN.toNat = (s.accN.toNat + (payloadBits s.code bs).length) % 8 := by
  rw [afterEncoding, List.length_append, pendingBits_length]
  exact Nat.mod_eq_of_lt (Nat.mod_lt _ (by decide))

theorem afterEncoding_obufSameOutside (s : State) (bs : List Byte) :
    obufSameOutside s (afterEncoding s bs) s.outLen.toNat ((s.accN.toNat + (payloadBits s.code bs).length) / 8) := fun _ hp =>
  Memory.read_writeList_other (by rwa [packBits_length, List.length_append, pendingBits_length])

section
variable {s : State} {bs : List Byte} (h : Encodable s bs)
include h

theorem Encodable.ipos_toNat : (afterEncoding s bs).ipos.toNat = s.ipos.toNat + bs.length :=
  Nat.mod_eq_of_lt (h.inChunk.trans_lt s.inLen.isLt)

theorem Encodable.ipos_ne_iff : (afterEncoding s bs).ipos ≠ s.inLen ↔ s.ipos.toNat + bs.length < s.inLen.toNat := by
  rw [ne_eq, ← BitVec.toNat_inj, h.ipos_toNat]
  exact h.inChunk.lt_iff_ne.symm

theorem Encodable.encCount_toNat : (afterEncoding s bs).encCount.toNat = s.encCount.toNat + bs.length :=
  Nat.mod_eq_of_lt (h.allowed.trans_lt s.total.isLt)

theorem Encodable.encBits_toNat : (afterEncoding s bs).encBits.toNat = s.encBits.toNat + (payloadBits s.code bs).length :=
  Nat.mod_eq_of_lt h.bits

theorem Encodable.outLen_toNat :
    (afterEncoding s bs).outLen.toNat = s.outLen.toNat + (s.accN.toNat + (payloadBits s.code bs).length) / 8 := by
  have hsize := s.cfg.obufOk.2.1
  rw [afterEncoding, List.length_append, pendingBits_length]
  exact Nat.mod_eq_of_lt (h.room.trans_lt (by omega))

/-- Where the output comes to with k bits more. -/
theorem Encodable.outLen_add (k : Nat) :
    (afterEncoding s bs).outLen.toNat + ((afterEncoding s bs).accN.toNat + k) / 8 =
      s.outLen.toNat + (s.accN.toNat + (payloadBits s.code bs).length + k) / 8 := by
  rw [h.outLen_toNat, afterEncoding_accN_toNat]
  omega

theorem Encodable.afterEncoding_eq_putbits : afterEncoding s bs = { putbits (payloadBits s.code bs) s with
    encCount := BitVec.ofNat 32 (s.encCount.toNat + bs.length)
    encBits := BitVec.ofNat 64 (s.encBits.toNat + (payloadBits s.code bs).length)
    ipos := BitVec.ofNat 15 (s.ipos.toNat + bs.length) } := by
  have hroom := h.room
  rw [putbits_eq_afterBits _ h.padded (by unfold bitsOut; omega)]
  rfl

end

/-- A pass adds its symbol to the symbols taken. -/
theorem Encodable.encodeByte_snoc {s : State} {bs : List Byte} {b : Byte} (h : Encodable s (bs ++ [b])) :
    encodeByte (afterEncoding s bs) b = afterEncoding s (bs ++ [b]) := by
  obtain ⟨hbs, -⟩ := encodable_snoc.mp h
  rw [encodeByte, afterEncoding_code, hbs.encCount_toNat, hbs.encBits_toNat, hbs.afterEncoding_eq_putbits, putbits_withCounters,
    ← putbits_append, h.afterEncoding_eq_putbits, payloadBits_append, payloadBits_singleton, List.length_append,
    List.length_append, List.length_singleton]
  simp only [Nat.add_assoc, BitVec.ofNat_add, BitVec.add_assoc]
  rfl

/-- Behind bs the pass takes b exactly when bs with b is encodable. -/
theorem Encodable.encodeTakes_iff {s : State} {bs : List Byte} (h : Encodable s bs) {b : Byte} {d : Nat}
    (hread : readIbuf (afterEncoding s bs).ipos.toNat (afterEncoding s bs) = (b, { afterEncoding s bs with draws := d })) :
    EncodeTakes (afterEncoding s bs) b d ↔ Encodable s (bs ++ [b]) := by
  rw [encodable_snoc, ← h.ipos_ne_iff, ← h.encCount_toNat, ← h.encBits_toNat, ← h.outLen_add]
  exact ⟨fun ⟨hne, _, hcode, hall, hroom, hbits⟩ => ⟨h, hne, hcode, hall, hbits, hroom⟩,
    fun ⟨_, hne, hcode, hall, hbits, hroom⟩ => ⟨hne, hread, hcode, hall, hroom, hbits⟩⟩

/-! ### Passes over written bytes -/

theorem Encodable.readIbuf_of_written {s : State} {bs : List Byte} {b : Byte} (h : Encodable s bs)
    (hb : Memory.read s.ibuf (s.ipos.toNat + bs.length) = some b) :
    readIbuf (afterEncoding s bs).ipos.toNat (afterEncoding s bs) = (b, afterEncoding s bs) :=
  readIbuf_some (by rwa [h.ipos_toNat, afterEncoding_ibuf])

theorem Encodable.loop_encodeTurn {s : State} {bs : List Byte} (n : Nat) (h : Encodable s bs)
    (hw : ibufHolds s s.ipos.toNat bs) : loop encodeTurn (bs.length + n) s = loop encodeTurn n (afterEncoding s bs) := by
  induction bs using List.reverseRecOn generalizing n with
  | nil => simp [afterEncoding_nil h.padded]
  | append_singleton bs b ih =>
    obtain ⟨hbs, -⟩ := encodable_snoc.mp h
    obtain ⟨hw, hb⟩ := ibufHolds_append.mp hw
    have hread := hbs.readIbuf_of_written (ibufHolds_cons.mp hb).1
    rw [List.length_append, List.length_singleton, Nat.add_assoc, Nat.add_comm 1, ih (n + 1) hbs hw,
      loop_succ_again n ((hbs.encodeTakes_iff hread).mpr h).encodeTurn]
    exact congrArg _ h.encodeByte_snoc

/-- The body takes the written bytes bs and ends as the pass behind them does. -/
theorem Encodable.encodeBody_of_ends {s t : State} {bs : List Byte} {w : Stop} (h : Encodable s bs)
    (hw : ibufHolds s s.ipos.toNat bs) (ht : encodeTurn (afterEncoding s bs) = .ends t w) : encodeBody s = .next (t, w) := by
  have hin := h.inChunk
  rw [encodeBody, show s.inLen.toNat - s.ipos.toNat + 1 = bs.length + (s.inLen.toNat - s.ipos.toNat - bs.length + 1) by omega,
    h.loop_encodeTurn _ hw, loop_succ_ends _ ht]

/-- ENCODE in phase and in range ends as its loop does (R121, R130, R132). -/
theorem exec_encode_of_body {s t : State} {w : Stop} (he : s.err = .none) (hc : s.codesValid = true) (hx : s.encClosed = false)
    (hlen : s.inLen.toNat ≤ s.cfg.ibufBytes) (hpos : s.ipos.toNat ≤ s.inLen.toNat) (hout : s.outLen.toNat ≤ s.cfg.obufBytes)
    (hb : encodeBody { s with lastOp := 0x07 } = .next (t, w)) : exec .encode s = .next (finish w t) :=
  runCommand_runs (i := .encode) (.inl he) (by simp [phaseOK, hc, hx])
    (by simp [boundsOK, inputInRange, outputInRange, hlen, hpos, hout]) hb

/-- Settles O31: the passes take every byte and leave IPOS = IN_LEN, where the last pass ends the loop. -/
theorem encodePacksTheCodes : Obligations.EncodePacksTheCodes := by
  unfold Obligations.EncodePacksTheCodes
  intro s bs he hc hx hpad hlen hout hin hw hcode hcount hbits hroom
  have h : Encodable { s with lastOp := 0x07 } bs := ⟨hpad, hin.le, hcode, hcount, hbits, by simpa using hroom⟩
  have hend : (afterEncoding { s with lastOp := 0x07 } bs).ipos = s.inLen := BitVec.eq_of_toNat_eq (h.ipos_toNat.trans hin)
  rw [exec_encode_of_body he hc hx hlen (by omega) hout (h.encodeBody_of_ends hw (encodeTurn_at_end hend)), ← hend]
  rfl

/-- Where the loop comes to a written byte b in the state u, ENCODE tests it for NO_CODE, EXCESS_SYMBOL and OUT_FULL in this
order (R227 (a)). -/
theorem exec_encode_of_stop {s u : State} {b : Byte} (he : u.err = .none) (hne : u.ipos ≠ u.inLen)
    (hread : readIbuf u.ipos.toNat u = (b, u))
    (hexec : ∀ t w, encodeTurn u = .ends t w → exec .encode s = .next (finish w t)) :
    (symGet u.code b = [] → exec .encode s = .next { u with
      err := .noCode, stop := .error, irqStat := u.irqStat ||| 0b11#2, pending := none }) ∧
    (symGet u.code b ≠ [] → u.encCount = u.total → exec .encode s = .next { u with
      err := .excessSymbol, stop := .error, irqStat := u.irqStat ||| 0b11#2, pending := none }) ∧
    (symGet u.code b ≠ [] → u.encCount ≠ u.total →
      u.cfg.obufBytes < u.outLen.toNat + (u.accN.toNat + (symGet u.code b).length) / 8 → exec .encode s = .next { u with
      stop := .outFull, irqStat := u.irqStat ||| 0b01#2, pending := none }) := by
  refine ⟨fun hcode => ?_, fun hcode hall => ?_, fun hcode hall hfull => ?_⟩
  · rw [hexec _ _ (encodeTurn_of_no_code hne hread hcode)]
    exact congrArg _ (finish_recordErr .noCode he)
  · rw [hexec _ _ (encodeTurn_of_excess hne hread hcode hall)]
    exact congrArg _ (finish_recordErr .excessSymbol he)
  · exact hexec _ _ (encodeTurn_of_no_room hne hread hcode hall hfull)

/-- Settles O32: the loop comes to b at once, or behind the bytes of `pre`. -/
theorem encodeStopsAtTheByteItCannotTake : Obligations.EncodeStopsAtTheByteItCannotTake := by
  unfold Obligations.EncodeStopsAtTheByteItCannotTake
  intro s b he hc hx hlen hout
  refine ⟨fun hlt hb => ?_, fun pre post hpad hin hw hpre hcount hbits hroom => ?_⟩
  · exact exec_encode_of_stop (u := { s with lastOp := 0x07 }) he (fun e => hlt.ne (congrArg BitVec.toNat e)) (readIbuf_some hb)
      fun _ _ ht => exec_encode_of_body he hc hx hlen hlt.le hout (loop_succ_ends _ ht)
  · rw [List.length_append, List.length_cons] at hin
    have h : Encodable { s with lastOp := 0x07 } pre :=
      ⟨hpad, by simp only; omega, hpre, hcount, hbits, by simpa using hroom⟩
    obtain ⟨hw, hb⟩ := ibufHolds_append.mp hw
    obtain ⟨hnoCode, hexcess, hfull⟩ := exec_encode_of_stop (s := s) (u := afterEncoding { s with lastOp := 0x07 } pre) he
      (h.ipos_ne_iff.mpr (by simp only; omega)) (h.readIbuf_of_written (ibufHolds_cons.mp hb).1)
      fun _ _ ht => exec_encode_of_body he hc hx hlen (by omega) hout (h.encodeBody_of_ends hw ht)
    have hcount' : (afterEncoding { s with lastOp := 0x07 } pre).encCount.toNat = s.encCount.toNat + pre.length :=
      h.encCount_toNat
    refine ⟨hnoCode, fun hcode hall => hexcess hcode (BitVec.eq_of_toNat_eq (hcount'.trans hall)),
      fun hcode hall hroom' => hfull hcode (fun e => ?_) ?_⟩
    · exact hall.ne (hcount'.symm.trans (congrArg BitVec.toNat e))
    · rw [h.outLen_add]
      simpa [Nat.add_assoc] using hroom'

/-! ### Passes over any bytes -/

/-- The symbols xs are IBUF's bytes from IPOS on wherever those are written. -/
def agreesWithIbuf (s : State) (xs : List Byte) : Prop :=
  ∀ j b, j < xs.length → Memory.read s.ibuf (s.ipos.toNat + j) = some b → xs[j]? = some b

theorem agreesWithIbuf_snoc {s : State} {xs : List Byte} {b : Byte} (h : agreesWithIbuf s xs)
    (hb : ∀ c, Memory.read s.ibuf (s.ipos.toNat + xs.length) = some c → b = c) : agreesWithIbuf s (xs ++ [b]) := by
  intro j c hj hc
  rw [List.length_append, List.length_singleton] at hj
  rcases Nat.lt_succ_iff_lt_or_eq.mp hj with hlt | rfl
  · rw [List.getElem?_append_left hlt]
    exact h j c hlt hc
  · rw [List.getElem?_concat_length, hb c hc]

/-- t comes from s by passes that took some symbols, with a draw for each byte that is not written. -/
def Encoded (s t : State) : Prop :=
  ∃ xs d, Encodable s xs ∧ agreesWithIbuf s xs ∧ t = { afterEncoding s xs with draws := d }

theorem Encoded.encodeByte {s t : State} {b : Byte} {d : Nat} (h : Encoded s t) (ht : EncodeTakes t b d) :
    Encoded s (encodeByte { t with draws := d } b) := by
  obtain ⟨xs, d0, hxs, hibuf, rfl⟩ := h
  have hsnoc : Encodable s (xs ++ [b]) := by
    have := ((hxs.withDraws d0).encodeTakes_iff ht.read).mp ht
    exact this.withDraws s.draws
  refine ⟨xs ++ [b], d, hsnoc, agreesWithIbuf_snoc hibuf fun c hc => ?_, (hsnoc.withDraws d).encodeByte_snoc⟩
  have hread := (hxs.withDraws d0).readIbuf_of_written hc
  exact congrArg Prod.fst (ht.read.symm.trans hread)

/-- The loop from s ends in t behind some passes. -/
def EncodeEnds (s t : State) (w : Stop) : Prop := ∃ u, Encoded s u ∧ encodeTurn u = .ends t w ∧ EncodeStops u t w

theorem encodeBody_next {s t : State} {w : Stop} (hsafe : EncodeSafe s) (hpad : accPadded s)
    (hout : s.outLen.toNat ≤ s.cfg.obufBytes) (h : encodeBody s = .next (t, w)) : EncodeEnds s t w := by
  have hstart : Encoded s s := ⟨[], s.draws, .nil hpad hsafe.input hsafe.count hout, nofun, by rw [afterEncoding_nil hpad]⟩
  refine loop_induct (I := fun u => EncodeSafe u ∧ Encoded s u) (Q := EncodeEnds s) (fun u v hu e => ?_) (fun u t w hu e => ?_)
    _ s t w ⟨hsafe, hstart⟩ h
  · obtain ⟨hsafe, hu⟩ := hu
    refine ⟨?_, ?_⟩
    · rcases encodeTurn_advances u hsafe with ⟨_, _, e'⟩ | ⟨v', e', hv, -⟩ <;> cases e.symm.trans e'
      exact hv
    · rcases hsafe.encodeTurn_cases with ⟨b, d, hb⟩ | ⟨_, _, e', -⟩
      · cases e.symm.trans hb.encodeTurn
        exact hu.encodeByte hb
      · cases e.symm.trans e'
  · obtain ⟨hsafe, hu⟩ := hu
    rcases hsafe.encodeTurn_cases with ⟨b, d, hb⟩ | ⟨_, _, e', hstop⟩
    · cases e.symm.trans hb.encodeTurn
    · cases e.symm.trans e'
      exact ⟨u, hu, e, hstop⟩

/-- How ENCODE completes at u: DONE at IN_LEN, OUT_FULL or an error before it. -/
def EncodeOutcome (u : State) (e : ErrCode) (st : Stop) (irq : BitVec 2) : Prop :=
  (st = .done ∧ u.ipos = u.inLen ∧ e = .none ∧ irq = u.irqStat ||| 0b01#2) ∨
  (st = .outFull ∧ u.ipos.toNat < u.inLen.toNat ∧ e = .none ∧ irq = u.irqStat ||| 0b01#2) ∨
  (st = .error ∧ u.ipos.toNat < u.inLen.toNat ∧ (e = .noCode ∨ e = .excessSymbol) ∧ irq = u.irqStat ||| 0b11#2)

theorem EncodeStops.finish {u t : State} {w : Stop} (h : EncodeStops u t w) (he : u.err = .none)
    (hin : u.ipos.toNat ≤ u.inLen.toNat) : ∃ e st irq d, EncodeOutcome u e st irq ∧
      finish w t = { u with err := e, draws := d, stop := st, irqStat := irq, pending := none } := by
  rcases h with ⟨rfl, rfl, hend⟩ | ⟨hne, d, ⟨rfl, rfl⟩ | ⟨rfl, e, hcause, rfl⟩⟩
  · exact ⟨t.err, _, _, _, .inl ⟨rfl, hend, he, rfl⟩, rfl⟩
  · exact ⟨u.err, _, _, _, .inr (.inl ⟨rfl, (ipos_add_one_toNat hin hne).2, he, rfl⟩), rfl⟩
  · exact ⟨e, _, _, _, .inr (.inr ⟨rfl, (ipos_add_one_toNat hin hne).2, hcause, rfl⟩),
      finish_recordErr e (s := { u with draws := d }) he⟩

theorem Inv.encodeSafe_of_codesValid {s : State} (h : Inv s) (hc : s.codesValid = true) (hpos : s.ipos.toNat ≤ s.inLen.toNat) :
    EncodeSafe s := by
  obtain ⟨hcount, -, hbits⟩ := h.counters
  exact ⟨hpos, hcount, hbits, codeTable_length (h.codes hc)⟩

/-- ENCODE in phase and in range completes behind the symbols it took, at a pass that ends its loop. -/
theorem exec_encode_completes {s : State} (hinv : Inv s) (he : s.err = .none) (hc : s.codesValid = true)
    (hx : s.encClosed = false) (hlen : s.inLen.toNat ≤ s.cfg.ibufBytes) (hpos : s.ipos.toNat ≤ s.inLen.toNat)
    (hout : s.outLen.toNat ≤ s.cfg.obufBytes) : ∃ xs e st irq d, Encodable s xs ∧ agreesWithIbuf s xs ∧
      (∃ d' t w, encodeTurn { afterEncoding s xs with lastOp := 0x07, draws := d' } = .ends t w) ∧
      EncodeOutcome (afterEncoding s xs) e st irq ∧
      exec .encode s = .next { afterEncoding s xs with
        err := e, draws := d, lastOp := 0x07, stop := st, irqStat := irq, pending := none } := by
  have hsafe := (hinv.encodeSafe_of_codesValid hc hpos).withLastOp 0x07
  obtain ⟨⟨t, w⟩, hbody⟩ := encodeBody_ends hsafe
  obtain ⟨u, ⟨xs, d', hxs, hibuf, rfl⟩, hturn, hstop⟩ := encodeBody_next hsafe hinv.acc hout hbody
  obtain ⟨e, st, irq, d, houtcome, hfinish⟩ := hstop.finish he (hxs.ipos_toNat.trans_le hxs.inChunk)
  have hexec := exec_encode_of_body he hc hx hlen hpos hout hbody
  rw [hfinish] at hexec
  exact ⟨xs, e, st, irq, d, hxs.withLastOp s.lastOp, hibuf, ⟨d', t, w, hturn⟩, houtcome, hexec⟩

/-- Settles O33: the symbols taken, and how the command completes behind them. -/
theorem encodeCompletesOnAnyBytes : Obligations.EncodeCompletesOnAnyBytes := by
  unfold Obligations.EncodeCompletesOnAnyBytes
  intro s hinv he hc hx hlen hpos hout
  obtain ⟨xs, e, st, irq, d, hxs, hibuf, -, houtcome, hexec⟩ := exec_encode_completes hinv he hc hx hlen hpos hout
  have hbits : (afterEncoding s xs).encBits.toNat - s.encBits.toNat = (payloadBits s.code xs).length :=
    Nat.sub_eq_of_eq_add' hxs.encBits_toNat
  refine ⟨_, xs, hexec, rfl, hxs.coded, hibuf, hxs.ipos_toNat, hxs.ipos_toNat.trans_le hxs.inChunk, hxs.encCount_toNat,
    hxs.encBits_toNat, ?_, ?_, houtcome⟩
  · simp only [hbits]
    exact hxs.outLen_toNat
  · simp only [hbits]
    exact afterEncoding_obufSameOutside s xs

/-- With OUT_LEN = 0 there is room for any code behind any pending bits. -/
theorem room_of_drained {s : State} {k : Nat} (h : s.outLen = 0) (hk : k ≤ maxCodeLen) :
    s.outLen.toNat + (s.accN.toNat + k) / 8 ≤ s.cfg.obufBytes := by
  have hzero : s.outLen.toNat = 0 := congrArg BitVec.toNat h
  have hn := s.accN.isLt
  have hsize := s.cfg.obufOk.1
  unfold maxCodeLen at hk
  omega

/-- Settles O34: the pass that ends the loop is not the first, which takes b. -/
theorem drainedOutputTakesTheNextSymbol : Obligations.DrainedOutputTakesTheNextSymbol := by
  unfold Obligations.DrainedOutputTakesTheNextSymbol
  intro s b hinv he hc hx hdrained hlen hlt hb hcode hall
  obtain ⟨xs, e, st, irq, d, hxs, hibuf, ⟨d', t, w, hturn⟩, -, hexec⟩ :=
    exec_encode_completes hinv he hc hx hlen hlt.le (by rw [hdrained]; exact Nat.zero_le _)
  have hipos := hxs.ipos_toNat
  have hcount := hxs.encCount_toNat
  have hbits := hxs.encBits_toNat
  refine ⟨_, hexec, ?_⟩
  cases xs with
  | nil =>
    have hsafe := hinv.encodeSafe_of_codesValid hc hlt.le
    obtain ⟨hallowed, hfit⟩ := hsafe.counters_fit hall b
    have htakes : EncodeTakes { s with lastOp := 0x07, draws := d' } b d' :=
      ⟨fun e => hlt.ne (congrArg BitVec.toNat e), readIbuf_some hb, hcode, hallowed,
        room_of_drained hdrained (hsafe.codes b), hfit⟩
    rw [afterEncoding_nil hxs.padded] at hturn
    cases htakes.encodeTurn.symm.trans hturn
  | cons x xs =>
    obtain rfl : x = b := Option.some.inj (hibuf 0 b (Nat.succ_pos _) hb)
    simp only [payloadBits, List.flatMap_cons, List.length_append, List.length_cons] at hipos hcount hbits
    exact ⟨by simp only [hipos]; omega, by simp only [hcount]; omega, by simp only [hbits]; omega⟩

end Sys2Proof.Machine

/-! The decoder (spec/45_decoder.md): the outcomes of HDR_LOAD, what one pass of DECODE's loop does, runs of passes over the bits
of codes, and over any bits. -/

namespace Sys2Proof.Machine

/-! ### HDR_LOAD (R200, R201) -/

/-- Words that stand in IBUF, each little-endian, are read back without a draw. -/
theorem readWords_of_held {ws : List Word} {s : State} {p : Nat} (h : ibufHolds s p (ws.flatMap bytesOf)) :
    readWords ws.length p s = (ws, s) := by
  induction ws generalizing p with
  | nil => rfl
  | cons w ws ih =>
    obtain ⟨hw, hws⟩ := ibufHolds_append.mp (List.flatMap_cons ▸ h)
    obtain ⟨h0, hw⟩ := ibufHolds_cons.mp hw
    obtain ⟨h1, hw⟩ := ibufHolds_cons.mp hw
    obtain ⟨h2, hw⟩ := ibufHolds_cons.mp hw
    obtain ⟨h3, -⟩ := ibufHolds_cons.mp hw
    rw [bytesOf_length] at hws
    simp only [List.length_cons, readWords, readWord_some h0 h1 h2 h3, wordOf_bytes, ih hws]

theorem readWords_header {s : State} {p : Nat} {f : Vector Word 256} {total : Word} (h : ibufHolds s p (headerBytes f total)) :
    readWords 257 p s = (f.toList ++ [total], s) := by
  have hread := readWords_of_held h
  rwa [List.length_append, Vector.length_toList] at hread

/-- The first 256 of a header's words are its table. -/
theorem tableOf_header (f : Vector Word 256) (total : Word) : tableOf (f.toList ++ [total]) = f := by
  ext1 i hi
  simp [tableOf, padded_getElem, List.getElem?_append_left, hi]

theorem hdrLoadBody_of_short {s : State} (h : s.inLen.toNat - s.ipos.toNat < headerSize) :
    hdrLoadBody s = raise .corruptHeader s := if_pos h

/-- The state with the table and the total of the words ws, the payload right behind the header. -/
def afterHeader (s : State) (ws : List Word) : State :=
  { s with
    freq := tableOf ws
    total := ws.getD 256 0
    ipos := BitVec.ofNat 15 (s.ipos.toNat + headerSize)
    ibitpos := BitVec.ofNat 18 (8 * (s.ipos.toNat + headerSize)) }

section
variable {s : State} {ws : List Word} {d : Nat} (hlen : headerSize ≤ s.inLen.toNat - s.ipos.toNat)
  (hread : readWords 257 s.ipos.toNat s = (ws, { s with draws := d }))
include hlen hread

theorem hdrLoadBody_of_wrong_sum (hsum : freqSum (tableOf ws) ≠ (ws.getD 256 0).toNat) :
    hdrLoadBody s = raise .corruptHeader { s with draws := d } := by
  simp only [hdrLoadBody, if_neg hlen.not_gt, hread]
  exact if_pos hsum

theorem hdrLoadBody_of_sum (hsum : freqSum (tableOf ws) = (ws.getD 256 0).toNat) :
    hdrLoadBody s = stopWith .done (afterHeader { s with draws := d } ws) := by
  simp only [hdrLoadBody, if_neg hlen.not_gt, hread]
  rw [if_neg (not_not.mpr hsum), afterHeader, headerSize, BitVec.ofNat_add, BitVec.ofNat_toNat, BitVec.setWidth_eq]
  rfl

end

/-- HDR_LOAD in phase and in range ends as its body does (R121, R130, R132). -/
theorem exec_hdrLoad_of_body {s t : State} {w : Stop} (he : s.err = .none) (hv : s.treeValid = false)
    (hlen : s.inLen.toNat ≤ s.cfg.ibufBytes) (hpos : s.ipos.toNat ≤ s.inLen.toNat)
    (hb : hdrLoadBody { s with lastOp := 0x06 } = .next (t, w)) : exec .hdrLoad s = .next (finish w t) :=
  runCommand_runs (i := .hdrLoad) (.inl he) (by simp [phaseOK, hv]) (by simp [boundsOK, inputInRange, hlen, hpos]) hb

/-- HDR_LOAD that raises CORRUPT_HEADER writes nothing but the frame. -/
theorem exec_hdrLoad_of_raise {s : State} {d : Nat} (he : s.err = .none) (hv : s.treeValid = false)
    (hlen : s.inLen.toNat ≤ s.cfg.ibufBytes) (hpos : s.ipos.toNat ≤ s.inLen.toNat)
    (hb : hdrLoadBody { s with lastOp := 0x06 } = raise .corruptHeader { s with lastOp := 0x06, draws := d }) :
    exec .hdrLoad s = .next { s with
      err := .corruptHeader, draws := d, lastOp := 0x06, stop := .error, irqStat := s.irqStat ||| 0b11#2, pending := none } := by
  rw [exec_hdrLoad_of_body he hv hlen hpos hb]
  exact congrArg _ (finish_recordErr .corruptHeader (s := { s with lastOp := 0x06, draws := d }) he)

/-- Settles O29: the words of a header in IBUF are its table and total, whose sum decides; a short chunk is the body's first
test. -/
theorem hdrLoadReadsBackAValidHeader : Obligations.HdrLoadReadsBackAValidHeader := by
  unfold Obligations.HdrLoadReadsBackAValidHeader
  intro s he hv hlen
  refine ⟨fun f total hroom hw => ?_, fun hpos hshort => ?_⟩
  · have hsize : headerSize ≤ s.inLen.toNat - s.ipos.toNat := Nat.le_sub_of_add_le' hroom
    have hread := readWords_header (s := { s with lastOp := 0x06 }) hw
    have htotal : (f.toList ++ [total]).getD 256 0 = total := by simp
    have htable := tableOf_header f total
    refine ⟨fun hsum => ?_, fun hsum => ?_⟩
    · rw [exec_hdrLoad_of_body he hv hlen (by omega) (hdrLoadBody_of_sum (s := { s with lastOp := 0x06 }) hsize hread
        (by rwa [htable, htotal])), afterHeader, htable, htotal]
      rfl
    · exact exec_hdrLoad_of_raise he hv hlen (by omega)
        (hdrLoadBody_of_wrong_sum (s := { s with lastOp := 0x06 }) hsize hread (by rwa [htable, htotal]))
  · exact exec_hdrLoad_of_raise (d := s.draws) he hv hlen hpos
      (hdrLoadBody_of_short (s := { s with lastOp := 0x06 }) (by simp only [headerSize]; omega))

/-- Settles O30: whatever 257 words are read, their sum decides. -/
theorem hdrLoadCompletesOnAnyBytes : Obligations.HdrLoadCompletesOnAnyBytes := by
  unfold Obligations.HdrLoadCompletesOnAnyBytes
  intro s he hv hlen hpos
  rcases lt_or_ge (s.inLen.toNat - s.ipos.toNat) headerSize with hshort | hsize
  · have hbody := hdrLoadBody_of_short (s := { s with lastOp := 0x06 }) hshort
    exact ⟨_, exec_hdrLoad_of_raise (d := s.draws) he hv hlen hpos hbody, .inr rfl⟩
  obtain ⟨ws, d, hread⟩ := readWords_eq 257 s.ipos.toNat { s with lastOp := 0x06 }
  by_cases hsum : freqSum (tableOf ws) = (ws.getD 256 0).toNat
  · have hbody := hdrLoadBody_of_sum (s := { s with lastOp := 0x06 }) hsize hread hsum
    have hroom : s.ipos.toNat + 1028 ≤ s.inLen.toNat := by unfold headerSize at hsize; omega
    exact ⟨_, exec_hdrLoad_of_body he hv hlen hpos hbody, .inl ⟨hsum, hroom, rfl⟩⟩
  · have hbody := hdrLoadBody_of_wrong_sum (s := { s with lastOp := 0x06 }) hsize hread hsum
    exact ⟨_, exec_hdrLoad_of_raise he hv hlen hpos hbody, .inr rfl⟩

/-! ### Runs of a loop (R133) -/

/-- From s the loop takes k turns and stands at t. -/
def LoopTakes (turn : State → Turn) (k : Nat) (s t : State) : Prop := ∀ m, loop turn (k + m) s = loop turn m t

theorem LoopTakes.zero (turn : State → Turn) (s : State) : LoopTakes turn 0 s s := fun m => by rw [Nat.zero_add]

theorem LoopTakes.append {turn : State → Turn} {j k : Nat} {s t u : State} (h : LoopTakes turn j s t)
    (h' : LoopTakes turn k t u) : LoopTakes turn (j + k) s u := fun m => by rw [Nat.add_assoc, h, h']

theorem LoopTakes.snoc {turn : State → Turn} {k : Nat} {s t u : State} (h : LoopTakes turn k s t) (h' : turn t = .again u) :
    LoopTakes turn (k + 1) s u := fun m => by rw [Nat.add_assoc, h, Nat.add_comm 1, loop_succ_again _ h']

theorem LoopTakes.ends {turn : State → Turn} {k n : Nat} {s t u : State} {w : Stop} (h : LoopTakes turn k s t) (hk : k < n)
    (h' : turn t = .ends u w) : loop turn n s = .next (u, w) := by
  rw [show n = k + (n - k - 1 + 1) by omega, h, loop_succ_ends _ h']

/-! ### Where symbols and bits take the decoder (R204) -/

/-- The next symbols ys lie within TOTAL and OBUF, and the next k bits within the chunk. -/
structure DecodeFits (s : State) (ys : List Byte) (k : Nat) : Prop where
  allowed : s.decCount.toNat + ys.length ≤ s.total.toNat
  room : s.outLen.toNat + ys.length ≤ s.cfg.obufBytes
  inChunk : s.ibitpos.toNat + k ≤ 8 * s.inLen.toNat

section
variable {s : State} {ys : List Byte} {k : Nat} (h : DecodeFits s ys k) (n : Index)
include h

theorem DecodeFits.decCount_toNat : (afterDecoding s ys k n).decCount.toNat = s.decCount.toNat + ys.length :=
  Nat.mod_eq_of_lt (h.allowed.trans_lt s.total.isLt)

theorem DecodeFits.outLen_toNat : (afterDecoding s ys k n).outLen.toNat = s.outLen.toNat + ys.length := by
  have hsize := s.cfg.obufOk.2.1
  exact Nat.mod_eq_of_lt (h.room.trans_lt (by omega))

theorem DecodeFits.ibitpos_toNat : (afterDecoding s ys k n).ibitpos.toNat = s.ibitpos.toNat + k := by
  have hlen := s.inLen.isLt
  exact Nat.mod_eq_of_lt (h.inChunk.trans_lt (by omega))

theorem DecodeFits.decCount_ne (hall : s.decCount.toNat + ys.length < s.total.toNat) :
    (afterDecoding s ys k n).decCount ≠ s.total := fun e =>
  hall.ne ((h.decCount_toNat n).symm.trans (congrArg BitVec.toNat e))

/-- The next symbols are written behind the first, and the next bits read behind them. -/
theorem DecodeFits.afterDecoding_append (zs : List Byte) (j : Nat) (m : Index) :
    afterDecoding (afterDecoding s ys k n) zs j m = afterDecoding s (ys ++ zs) (k + j) m := by
  have hc := h.decCount_toNat n
  have ho := h.outLen_toNat n
  have hp := h.ibitpos_toNat n
  unfold afterDecoding at hc ho hp ⊢
  simp only [hc, ho, hp, Memory.writeList_append, List.length_append, Nat.add_assoc]

end

theorem afterDecoding_obufSameOutside (s : State) (ys : List Byte) (k : Nat) (n : Index) :
    obufSameOutside s (afterDecoding s ys k n) s.outLen.toNat ys.length := fun _ hp => Memory.read_writeList_other hp

theorem emitSymbol_eq_afterDecoding {s : State} (e : Entry) (h : s.decCount.toNat < s.total.toNat) :
    emitSymbol e s = some (afterDecoding s [e.sym.setWidth 8] 0 s.decNode) := by
  rw [emitSymbol_of_lt e h]
  simp [afterDecoding, emit, Memory.writeList, BitVec.ofNat_add]

/-! ### One pass of DECODE (R204, R206, R207) -/

theorem decodeTurn_done (last : Bool) {s : State} (h : s.decCount = s.total) : decodeTurn last s = .ends s .done := if_pos h

section
variable (last : Bool) {s : State} {x : Entry} (hx : entryAt s.node s.decNode = some x)
include hx

theorem decodeTurn_at_leaf_of_full (hl : x.isLeaf = true) (hall : s.decCount ≠ s.total)
    (hfull : s.outLen.toNat = s.cfg.obufBytes) : decodeTurn last s = .ends s .outFull := by
  simp only [decodeTurn, if_neg hall, hx, hl, if_true, if_pos hfull]

theorem decodeTurn_at_leaf (hl : x.isLeaf = true) (hall : s.decCount.toNat < s.total.toNat)
    (hroom : s.outLen.toNat ≠ s.cfg.obufBytes) :
    decodeTurn last s = .again (afterDecoding s [x.sym.setWidth 8] 0 s.decNode) := by
  have hne : s.decCount ≠ s.total := fun e => hall.ne (congrArg BitVec.toNat e)
  simp only [decodeTurn, if_neg hne, hx, hl, if_true, if_neg hroom, emitSymbol_eq_afterDecoding x hall]

theorem decodeTurn_at_chunk_end (hl : x.isLeaf = false) (hall : s.decCount ≠ s.total)
    (hend : s.ibitpos.toNat = 8 * s.inLen.toNat) :
    decodeTurn last s = if last then Turn.raise .truncatedPayload s else .ends s .inEmpty := by
  simp only [decodeTurn, if_neg hall, hx, hl, Bool.false_eq_true, if_false, if_pos hend]

variable {e : Entry} {bit : Bool} {d : Nat} (hl : x.isLeaf = false) (hmore : s.ibitpos.toNat ≠ 8 * s.inLen.toNat)
  (hread : readBit s.ibitpos.toNat s = (bit, { s with draws := d })) (he : entryAt s.node (childOf x bit) = some e)
include hl hmore hread he

theorem decodeTurn_to_leaf_of_full (hall : s.decCount ≠ s.total) (hel : e.isLeaf = true)
    (hfull : s.outLen.toNat = s.cfg.obufBytes) : decodeTurn last s = .ends { s with draws := d } .outFull := by
  have he' : entryAt s.node (if bit then x.right else x.left) = some e := he
  simp only [decodeTurn, if_neg hall, hx, hl, Bool.false_eq_true, if_false, if_neg hmore, hread, he', hel, if_true, if_pos hfull]

theorem decodeTurn_to_leaf (hall : s.decCount.toNat < s.total.toNat) (hel : e.isLeaf = true)
    (hroom : s.outLen.toNat ≠ s.cfg.obufBytes) :
    decodeTurn last s = .again (afterDecoding { s with draws := d } [e.sym.setWidth 8] 1 s.root) := by
  have hne : s.decCount ≠ s.total := fun e => hall.ne (congrArg BitVec.toNat e)
  have he' : entryAt s.node (if bit then x.right else x.left) = some e := he
  simp only [decodeTurn, if_neg hne, hx, hl, Bool.false_eq_true, if_false, if_neg hmore, hread, he', hel, if_true,
    if_neg hroom]
  rw [emitSymbol_of_lt (s := { s with draws := d, ibitpos := s.ibitpos + 1 }) e hall]
  simp [afterDecoding, emit, Memory.writeList, BitVec.ofNat_add]

theorem decodeTurn_to_internal (hall : s.decCount ≠ s.total) (hel : e.isLeaf = false) :
    decodeTurn last s = .again (afterDecoding { s with draws := d } [] 1 (childOf x bit)) := by
  have he' : entryAt s.node (if bit then x.right else x.left) = some e := he
  simp only [decodeTurn, if_neg hall, hx, hl, Bool.false_eq_true, if_false, if_neg hmore, hread, he', hel]
  simp [afterDecoding, Memory.writeList, childOf, BitVec.ofNat_add]

end

/-! ### The completion of DECODE (R121, R130, R132) -/

/-- DECODE is in phase and in range, and not refused. -/
structure DecodeRuns (s : State) : Prop where
  err : s.err = .none
  valid : s.treeValid = true
  chunk : s.inLen.toNat ≤ s.cfg.ibufBytes
  input : s.ibitpos.toNat ≤ 8 * s.inLen.toNat
  output : s.outLen.toNat ≤ s.cfg.obufBytes

theorem DecodeRuns.exec_of_body {s t : State} {last : Bool} {w : Stop} (h : DecodeRuns s)
    (hb : decodeBody last { s with lastOp := 0x09 } = .next (t, w)) : exec (.decode last) s = .next (finish w t) := by
  obtain ⟨he, hv, hlen, hpos, hout⟩ := h
  exact runCommand_runs (i := .decode last) (.inl he) hv (by simp [boundsOK, bitsInRange, outputInRange, hlen, hpos, hout]) hb

/-- DECODE completes as the pass behind its first k passes ends. -/
theorem DecodeRuns.exec_of_takes {s t u : State} {last : Bool} {k : Nat} {w : Stop} (h : DecodeRuns s)
    (htakes : LoopTakes (decodeTurn last) k { s with lastOp := 0x09 } u) (hk : k ≤ decodeLeft s)
    (hu : decodeTurn last u = .ends t w) : exec (.decode last) s = .next (finish w t) :=
  h.exec_of_body (htakes.ends (Nat.lt_succ_of_le hk) hu)

/-- Settles O36: DEC_COUNT = TOTAL is the first test of a pass, and the end of the chunk the first at an internal node. -/
theorem decodeEndsByTotalThenByLast : Obligations.DecodeEndsByTotalThenByLast := by
  unfold Obligations.DecodeEndsByTotalThenByLast
  intro s he hv hlen hout
  have start (last : Bool) := LoopTakes.zero (decodeTurn last) { s with lastOp := 0x09 }
  refine ⟨fun last hall hpos => ?_, fun e hall hx hl hend => ?_⟩
  · exact DecodeRuns.exec_of_takes ⟨he, hv, hlen, hpos, hout⟩ (start last) (Nat.zero_le _) (decodeTurn_done last hall)
  · have hruns : DecodeRuns s := ⟨he, hv, hlen, hend.le, hout⟩
    constructor
    · rw [hruns.exec_of_takes (start true) (Nat.zero_le _) (decodeTurn_at_chunk_end true hx hl hall hend)]
      exact congrArg _ (finish_recordErr .truncatedPayload he)
    · exact hruns.exec_of_takes (start false) (Nat.zero_le _) (decodeTurn_at_chunk_end false hx hl hall hend)

/-- At a leaf the passes write its symbol and stay. -/
theorem loopTakes_at_leaf (last : Bool) {s : State} {e : Entry} (hx : entryAt s.node s.decNode = some e) (hl : e.isLeaf = true)
    {m : Nat} (h : DecodeFits s (List.replicate m (e.sym.setWidth 8)) 0) :
    LoopTakes (decodeTurn last) m s (afterDecoding s (List.replicate m (e.sym.setWidth 8)) 0 s.decNode) := by
  induction m with
  | zero => rw [List.replicate_zero, afterDecoding_nil]; exact .zero _ s
  | succ m ih =>
    obtain ⟨hall, hroom, hin⟩ := h
    simp only [List.length_replicate] at hall hroom
    have hm : DecodeFits s (List.replicate m (e.sym.setWidth 8)) 0 := ⟨by simp; omega, by simp; omega, hin⟩
    have hcount := hm.decCount_toNat s.decNode
    have hout := hm.outLen_toNat s.decNode
    simp only [List.length_replicate] at hcount hout
    rw [List.replicate_succ', ← hm.afterDecoding_append s.decNode _ 0]
    exact (ih hm).snoc (decodeTurn_at_leaf last hx hl (by rw [hcount, afterDecoding_total]; omega)
      (by rw [hout, afterDecoding_cfg]; omega))

/-- At a leaf DECODE writes its symbol until TOTAL is reached or OBUF is full, in this order, and reads no bit (R206). -/
theorem DecodeRuns.exec_at_leaf {s : State} (h : DecodeRuns s) (last : Bool) {e : Entry}
    (hx : entryAt s.node s.decNode = some e) (hl : e.isLeaf = true) (hcount : s.decCount.toNat ≤ s.total.toNat) {m : Nat}
    (hm : m = min (s.total.toNat - s.decCount.toNat) (s.cfg.obufBytes - s.outLen.toNat)) :
    exec (.decode last) s = .next { afterDecoding s (List.replicate m (e.sym.setWidth 8)) 0 s.decNode with
      lastOp := 0x09, stop := if s.decCount.toNat + m = s.total.toNat then .done else .outFull,
      irqStat := s.irqStat ||| 0b01#2, pending := none } := by
  have hroom := h.output
  have hfits : DecodeFits { s with lastOp := 0x09 } (List.replicate m (e.sym.setWidth 8)) 0 :=
    ⟨by simp; omega, by simp; omega, h.input⟩
  have htakes := loopTakes_at_leaf last (s := { s with lastOp := 0x09 }) hx hl hfits
  have hk : m ≤ decodeLeft s := by unfold decodeLeft; omega
  have hcount' := hfits.decCount_toNat s.decNode
  have hout' := hfits.outLen_toNat s.decNode
  rw [List.length_replicate] at hcount' hout'
  by_cases hall : s.decCount.toNat + m = s.total.toNat
  · rw [if_pos hall]
    exact h.exec_of_takes htakes hk (decodeTurn_done last (BitVec.eq_of_toNat_eq (hcount'.trans hall)))
  · have hlt : s.decCount.toNat + m < s.total.toNat := by omega
    have hfull : s.outLen.toNat + m = s.cfg.obufBytes := by omega
    have hne := hfits.decCount_ne s.decNode (by rwa [List.length_replicate])
    rw [if_neg hall]
    exact h.exec_of_takes htakes hk (decodeTurn_at_leaf_of_full last hx hl hne (hout'.trans hfull))

/-- Settles O37: the passes at a leaf leave IBITPOS and DEC_NODE as they were. -/
theorem singleSymbolDecodeReadsNoBits : Obligations.SingleSymbolDecodeReadsNoBits := by
  unfold Obligations.SingleSymbolDecodeReadsNoBits
  intro s last e m he hv hx hl hcount hlen hpos hout hm
  have hruns : DecodeRuns s := ⟨he, hv, hlen, hpos, hout⟩
  rw [hruns.exec_at_leaf last hx hl hcount hm]
  simp [afterDecoding]

/-! ### Bits that stand in IBUF (R103) -/

theorem ibufBitsHold_append {s : State} {p : Nat} {xs ys : List Bool} :
    ibufBitsHold s p (xs ++ ys) ↔ ibufBitsHold s p xs ∧ ibufBitsHold s (p + xs.length) ys := by
  refine ⟨fun h => ⟨fun j hj => ?_, fun j hj => ?_⟩, fun ⟨hx, hy⟩ j hj => ?_⟩
  · have hxj := h j (by rw [List.length_append]; omega)
    rwa [List.getElem_append_left hj] at hxj
  · have hyj := h (xs.length + j) (by rw [List.length_append]; omega)
    rw [List.getElem_append_right (Nat.le_add_right _ _), ← Nat.add_assoc] at hyj
    simpa only [Nat.add_sub_cancel_left] using hyj
  · by_cases hjx : j < xs.length
    · simpa [List.getElem_append_left hjx] using hx j hjx
    · have hyj := hy (j - xs.length) (by rw [List.length_append] at hj; omega)
      rw [Nat.add_assoc, Nat.add_sub_cancel' (Nat.le_of_not_lt hjx)] at hyj
      rwa [List.getElem_append_right (Nat.le_of_not_lt hjx)]

theorem readBit_of_held {s : State} {bit : Bool} (h : ibufBitsHold s s.ibitpos.toNat [bit]) :
    readBit s.ibitpos.toNat s = (bit, s) := by
  obtain ⟨b, hb, hbit⟩ := h 0 Nat.one_pos
  rw [Nat.add_zero] at hb hbit
  rw [readBit_some hb, hbit]
  rfl

section
variable {s : State} {ys : List Byte} {k : Nat} (h : DecodeFits s ys k) (n : Index)
include h

theorem DecodeFits.ibitpos_ne (hmore : s.ibitpos.toNat + k < 8 * s.inLen.toNat) :
    (afterDecoding s ys k n).ibitpos.toNat ≠ 8 * s.inLen.toNat := by
  rw [h.ibitpos_toNat n]
  exact hmore.ne

theorem DecodeFits.readBit_of_held {bit : Bool} (hbit : ibufBitsHold s (s.ibitpos.toNat + k) [bit]) :
    readBit (afterDecoding s ys k n).ibitpos.toNat (afterDecoding s ys k n) = (bit, afterDecoding s ys k n) :=
  Machine.readBit_of_held (by rw [h.ibitpos_toNat n]; exact hbit)

end

/-! ### Descents in the tree (R173) -/

/-- DECODE reads a bit at such a node. -/
def InternalAt (a : Vector Entry 511) (x : Index) : Prop := ∃ e, entryAt a x = some e ∧ e.isLeaf = false

/-- A bit of a descent leads from an internal node to its child. -/
theorem descend_cons {a : Vector Entry 511} {x y : Index} {bit : Bool} {bits : List Bool}
    (h : descend a x (bit :: bits) = some y) :
    ∃ e, entryAt a x = some e ∧ e.isLeaf = false ∧ descend a (childOf e bit) bits = some y := by
  unfold descend at h
  split at h
  · cases h
  · rename_i e he
    split at h
    · rename_i hint
      exact ⟨e, he, by simpa using (Bool.and_eq_true_iff.mp hint).2, h⟩
    · cases h

/-- The last bit of a descent leads from an internal node to its child. -/
theorem descend_snoc {a : Vector Entry 511} {x y : Index} {bits : List Bool} {bit : Bool}
    (h : descend a x (bits ++ [bit]) = some y) :
    ∃ m e, descend a x bits = some m ∧ entryAt a m = some e ∧ e.isLeaf = false ∧ childOf e bit = y := by
  rw [descend_append, Option.bind_eq_some_iff] at h
  obtain ⟨m, hm, h⟩ := h
  obtain ⟨e, he, hl, h⟩ := descend_cons h
  exact ⟨m, e, hm, he, hl, Option.some.inj h⟩

/-- A proper part of a descent ends at an internal node. -/
theorem internalAt_of_descend {a : Vector Entry 511} {x y : Index} {part code : List Bool}
    (h : descend a x code = some y) (hp : part <+: code) (hne : part ≠ code) :
    ∃ n, descend a x part = some n ∧ InternalAt a n := by
  obtain ⟨rest, rfl⟩ := hp
  rw [descend_append, Option.bind_eq_some_iff] at h
  obtain ⟨n, hn, h⟩ := h
  cases rest with
  | nil => simp at hne
  | cons bit rest =>
    obtain ⟨e, he, hl, -⟩ := descend_cons h
    exact ⟨n, hn, e, he, hl⟩

/-- A leaf for the symbol y. -/
def LeafAt (a : Vector Entry 511) (x : Index) (y : Byte) : Prop :=
  ∃ e, entryAt a x = some e ∧ e.isLeaf = true ∧ e.sym.setWidth 8 = y

theorem InternalAt.not_leafAt {a : Vector Entry 511} {x : Index} {y : Byte} (h : InternalAt a x) : ¬ LeafAt a x y := by
  rintro ⟨e, he, hl, -⟩
  obtain ⟨e', he', hl'⟩ := h
  cases he.symm.trans he'
  rw [hl] at hl'
  cases hl'

theorem LeafAt.eq_nil_of_descend {a : Vector Entry 511} {x z : Index} {y : Byte} {bits : List Bool} (h : LeafAt a x y)
    (hd : descend a x bits = some z) : bits = [] := by
  obtain ⟨e, he, hl, -⟩ := h
  cases bits with
  | nil => rfl
  | cons bit bits => simp [descend, he, hl] at hd

/-! ### Passes over written bits -/

section
variable (last : Bool) {s : State} {bits : List Bool} {n : Index}
  (hd : descend s.node s.decNode bits = some n) (hin : s.ibitpos.toNat + bits.length ≤ 8 * s.inLen.toNat)
  (hw : ibufBitsHold s s.ibitpos.toNat bits)
include hd hin hw

/-- The passes follow a descent that ends at an internal node. -/
theorem loopTakes_descent (hn : InternalAt s.node n) (hall : s.decCount.toNat < s.total.toNat)
    (hout : s.outLen.toNat ≤ s.cfg.obufBytes) :
    LoopTakes (decodeTurn last) bits.length s (afterDecoding s [] bits.length n) := by
  induction bits using List.reverseRecOn generalizing n with
  | nil =>
    cases hd
    rw [List.length_nil, afterDecoding_nil]
    exact .zero _ s
  | append_singleton bits bit ih =>
    obtain ⟨m, x, hm, hx, hl, rfl⟩ := descend_snoc hd
    obtain ⟨e, he, hel⟩ := hn
    obtain ⟨hw, hbit⟩ := ibufBitsHold_append.mp hw
    simp only [List.length_append, List.length_singleton] at hin ⊢
    have hfits : DecodeFits s [] bits.length := ⟨hall.le, hout, by omega⟩
    refine (ih hm (by omega) hw ⟨x, hx, hl⟩).snoc ?_
    rw [decodeTurn_to_internal last hx hl (hfits.ibitpos_ne m hin) (hfits.readBit_of_held m hbit) he (hfits.decCount_ne m hall)
      hel]
    exact congrArg _ (hfits.afterDecoding_append m [] 1 _)

/-- The passes follow a descent to a leaf, write its symbol and go back to the root. -/
theorem loopTakes_code {y : Byte} (hn : LeafAt s.node n y) (hne : bits ≠ []) (hall : s.decCount.toNat < s.total.toNat)
    (hroom : s.outLen.toNat < s.cfg.obufBytes) :
    LoopTakes (decodeTurn last) bits.length s (afterDecoding s [y] bits.length s.root) := by
  rcases List.eq_nil_or_concat' bits with rfl | ⟨bits, bit, rfl⟩
  · exact absurd rfl hne
  obtain ⟨m, x, hm, hx, hl, rfl⟩ := descend_snoc hd
  obtain ⟨e, he, hel, rfl⟩ := hn
  obtain ⟨hw, hbit⟩ := ibufBitsHold_append.mp hw
  simp only [List.length_append, List.length_singleton] at hin ⊢
  have hfits : DecodeFits s [] bits.length := ⟨hall.le, hroom.le, by omega⟩
  have hcount := hfits.decCount_toNat m
  have hout := hfits.outLen_toNat m
  refine (loopTakes_descent last hm (by omega) hw ⟨x, hx, hl⟩ hall hroom.le).snoc ?_
  rw [decodeTurn_to_leaf last hx hl (hfits.ibitpos_ne m hin) (hfits.readBit_of_held m hbit) he (by rw [hcount]; exact hall) hel
    (by rw [hout]; exact hroom.ne)]
  exact congrArg _ (hfits.afterDecoding_append m _ 1 _)

end

/-! ### Codes (R173, R174) -/

/-- The tree registers hold the tree of two or more symbols that the table gives, and c is its code store. -/
structure CodedTree (s : State) (c : Vector (List Bool) 256) : Prop where
  node : s.node = buildArena s.freq
  root : s.root = buildRoot s.freq
  two : 2 ≤ symbolCount s.freq
  codes : codeTable (buildArena s.freq) (buildRoot s.freq) (symbolCount s.freq) = .ok c

theorem codedTree_of_treeFromTable {s : State} {c : Vector (List Bool) 256} (hv : s.treeValid = true) (ht : treeFromTable s)
    (h2 : 2 ≤ symbolCount s.freq) (hc : codeTable s.node s.root s.nsym.toNat = .ok c) : CodedTree s c := by
  obtain ⟨hnode, hroot, hnsym⟩ := ht hv
  exact ⟨hnode, hroot, h2, by rwa [hnode, hroot, hnsym] at hc⟩

theorem CodedTree.internalAt_root {s : State} {c : Vector (List Bool) 256} (h : CodedTree s c) : InternalAt s.node s.root := by
  obtain ⟨hnode, hroot, h2, -⟩ := h
  have hle := symbolCount_le s.freq
  obtain ⟨-, hl, -⟩ := (buildArena_layout (t := s.freq) (by omega)).internal (2 * symbolCount s.freq - 2) (by omega) (by omega)
  rw [hnode, hroot, buildRoot_eq (by omega)]
  exact ⟨_, entryAt_ofNat _ (by omega), hl⟩

/-- The code of a symbol that occurs is a descent from the root to its leaf. -/
theorem CodedTree.code_descends {s : State} {c : Vector (List Bool) 256} (h : CodedTree s c) {y : Byte}
    (hy : symGet s.freq y ≠ 0) : ∃ n, descend s.node s.root (symGet c y) = some n ∧ LeafAt s.node n y := by
  obtain ⟨hnode, hroot, h2, hc⟩ := h
  have hle := symbolCount_le s.freq
  have hlay := buildArena_layout (t := s.freq) (by omega)
  obtain ⟨k, hk, hsym, hcode⟩ := codeTable_present hc hy
  obtain ⟨hd, -⟩ := hlay.pathcode_descends hle h2 hk hcode
  obtain ⟨-, hl, -⟩ := hlay.leaf k hk
  rw [hnode, hroot, buildRoot_eq (by omega)]
  exact ⟨_, hd, _, entryAt_ofNat _ (by omega), hl, by rw [hsym]; bv_omega⟩

theorem CodedTree.occurs_of_code {s : State} {c : Vector (List Bool) 256} (h : CodedTree s c) {y : Byte}
    (hcode : symGet c y ≠ []) : symGet s.freq y ≠ 0 := mt (codeTable_absent h.codes) hcode

/-- Of a code that the bits before the decoder begin, some bit is still to come. -/
theorem CodedTree.code_behind_seen {s : State} {c : Vector (List Bool) 256} (h : CodedTree s c) {y : Byte}
    (hy : symGet s.freq y ≠ 0) {seen bits more : List Bool} (hseen : descend s.node s.root seen = some s.decNode)
    (hx : InternalAt s.node s.decNode) (he : seen ++ bits = symGet c y ++ more) :
    ∃ tail, tail ≠ [] ∧ symGet c y = seen ++ tail ∧ bits = tail ++ more := by
  obtain ⟨n, hn, hleaf⟩ := h.code_descends hy
  rcases List.append_eq_append_iff.mp he with ⟨tail, hcode, hbits⟩ | ⟨rest, hrest, -⟩
  · refine ⟨tail, fun e => ?_, hcode, hbits⟩
    rw [hcode, e, List.append_nil, hseen] at hn
    cases hn
    exact hx.not_leafAt hleaf
  · rw [hrest, descend_append, hn, Option.bind_some] at hseen
    cases hleaf.eq_nil_of_descend hseen
    cases hseen
    exact absurd hleaf hx.not_leafAt

/-! ### Passes over the bits of codes (R204, R205) -/

/-- Bits that DECODE inverts: behind the bits `seen` that lead to DEC_NODE they make the codes of ys and a part of one more code,
which leads to node n. -/
structure CodesAhead (s : State) (c : Vector (List Bool) 256) (seen bits part : List Bool) (ys : List Byte) (n : Index) :
    Prop where
  tree : CodedTree s c
  seenLeads : descend s.node s.root seen = some s.decNode
  atNode : InternalAt s.node s.decNode
  symbols : ∀ y ∈ ys, symGet s.freq y ≠ 0
  codes : seen ++ bits = payloadBits c ys ++ part
  partLeads : descend s.node s.root part = some n
  written : ibufBitsHold s s.ibitpos.toNat bits
  fits : DecodeFits s ys bits.length

/-- Behind the first symbol the decoder is at the root, with the other symbols before it. -/
theorem CodesAhead.tail {s : State} {c : Vector (List Bool) 256} {seen bits part : List Bool} {y : Byte} {ys : List Byte}
    {n : Index} (h : CodesAhead s c seen bits part (y :: ys) n) :
    ∃ front leaf, front ≠ [] ∧ bits = front ++ (payloadBits c ys ++ part) ∧
      descend s.node s.decNode front = some leaf ∧ LeafAt s.node leaf y ∧
      DecodeFits s [y] front.length ∧ ibufBitsHold s s.ibitpos.toNat front ∧
      CodesAhead (afterDecoding s [y] front.length s.root) c [] (payloadBits c ys ++ part) part ys n := by
  obtain ⟨htree, hseen, hx, hsyms, hcodes, hpart, hw, hall, hroom, hin⟩ := h
  obtain ⟨hy, hys⟩ := List.forall_mem_cons.mp hsyms
  obtain ⟨leaf, hd, hleaf⟩ := htree.code_descends hy
  have hcodes : seen ++ bits = symGet c y ++ (payloadBits c ys ++ part) := by
    rw [hcodes, payloadBits, List.flatMap_cons, List.append_assoc, payloadBits]
  obtain ⟨front, hne, hcode, rfl⟩ := htree.code_behind_seen hy hseen hx hcodes
  rw [hcode, descend_append, hseen, Option.bind_some] at hd
  obtain ⟨hwf, hwb⟩ := ibufBitsHold_append.mp hw
  rw [List.length_append] at hin
  rw [List.length_cons] at hall hroom
  have hfits : DecodeFits s [y] front.length :=
    ⟨by rw [List.length_singleton]; omega, by rw [List.length_singleton]; omega, by omega⟩
  have hcount := hfits.decCount_toNat s.root
  have hout := hfits.outLen_toNat s.root
  have hpos := hfits.ibitpos_toNat s.root
  rw [List.length_singleton] at hcount hout
  refine ⟨front, leaf, hne, rfl, hd, hleaf, hfits, hwf, ⟨htree.node, htree.root, htree.two, htree.codes⟩, rfl,
    htree.internalAt_root, hys, rfl, hpart, by rwa [hpos], ?_, ?_, ?_⟩
  · rw [hcount, afterDecoding_total]; omega
  · rw [hout, afterDecoding_cfg]; omega
  · rw [hpos, afterDecoding_inLen]; omega

/-- The passes write ys and come to n. -/
theorem CodesAhead.loopTakes (last : Bool) {s : State} {c : Vector (List Bool) 256} {seen bits part : List Bool}
    {ys : List Byte} {n : Index} (h : CodesAhead s c seen bits part ys n) (hn : InternalAt s.node n)
    (hall : s.decCount.toNat + ys.length < s.total.toNat ∨ part = []) :
    LoopTakes (decodeTurn last) bits.length s (afterDecoding s ys bits.length n) := by
  induction ys generalizing s seen bits with
  | nil =>
    obtain ⟨-, hseen, -, -, hcodes, hpart, hw, -, hroom, hin⟩ := h
    change seen ++ bits = part at hcodes
    rw [← hcodes, descend_append, hseen, Option.bind_some] at hpart
    rcases hall with hall | hpart0
    · exact loopTakes_descent last hpart hin hw hn hall hroom
    · obtain ⟨rfl, rfl⟩ := List.append_eq_nil_iff.mp (hcodes.trans hpart0)
      cases hpart
      rw [List.length_nil, afterDecoding_nil]
      exact .zero _ s
  | cons y ys ih =>
    obtain ⟨front, leaf, hne, rfl, hd, hleaf, hfits, hw, htail⟩ := h.tail
    have hcount := hfits.decCount_toNat s.root
    have hallowed := h.fits.allowed
    have hroom := h.fits.room
    rw [List.length_cons] at hall hallowed hroom
    rw [List.length_singleton] at hcount
    have hfirst := loopTakes_code last hd hfits.inChunk hw hleaf hne (by omega) (by omega)
    rw [List.length_append, ← List.singleton_append, ← hfits.afterDecoding_append s.root]
    exact hfirst.append (ih htail hn (hall.imp_left fun hlt => by rw [hcount, afterDecoding_total]; omega))

theorem CodesAhead.bits_le_decodeLeft {s : State} {c : Vector (List Bool) 256} {seen bits part : List Bool}
    {ys : List Byte} {n : Index} (h : CodesAhead s c seen bits part ys n) : bits.length ≤ decodeLeft s := by
  have hin := h.fits.inChunk
  unfold decodeLeft
  omega

section
variable {s : State} {c : Vector (List Bool) 256} {seen bits part : List Bool} {ys : List Byte} {n : Index}
  (h : CodesAhead s c seen bits part ys n) (hruns : DecodeRuns s)
include h

/-- DECODE does not look at LAST_OP. -/
theorem CodesAhead.withLastOp (b : Byte) : CodesAhead { s with lastOp := b } c seen bits part ys n :=
  ⟨⟨h.tree.node, h.tree.root, h.tree.two, h.tree.codes⟩, h.seenLeads, h.atNode, h.symbols, h.codes, h.partLeads, h.written,
    ⟨h.fits.allowed, h.fits.room, h.fits.inChunk⟩⟩

/-- A proper part of a code leads to an internal node, where the rest of the code goes on. -/
theorem CodesAhead.internalAt_part {y : Byte} (hp : part <+: symGet c y) (hne : part ≠ symGet c y) : InternalAt s.node n := by
  have hcode : symGet c y ≠ [] := fun e => by
    rw [e] at hp hne
    exact hne (List.prefix_nil.mp hp)
  obtain ⟨leaf, hd, -⟩ := h.tree.code_descends (h.tree.occurs_of_code hcode)
  obtain ⟨m, hm, hint⟩ := internalAt_of_descend hd hp hne
  cases h.partLeads.symm.trans hm
  exact hint

include hruns

/-- Behind the codes of ys the command is DONE when TOTAL wants no more (R205). -/
theorem CodesAhead.exec_done (last : Bool) (hp : part = []) (hall : s.decCount.toNat + ys.length = s.total.toNat) :
    exec (.decode last) s = .next { afterDecoding s ys bits.length s.root with
      lastOp := 0x09, stop := .done, irqStat := s.irqStat ||| 0b01#2, pending := none } := by
  subst hp
  obtain rfl : s.root = n := Option.some.inj h.partLeads
  have htakes := (h.withLastOp 0x09).loopTakes last h.tree.internalAt_root (.inr rfl)
  have hcount := (h.withLastOp 0x09).fits.decCount_toNat s.root
  exact hruns.exec_of_takes htakes h.bits_le_decodeLeft (decodeTurn_done last (BitVec.eq_of_toNat_eq (hcount.trans hall)))

/-- Before TOTAL is reached, at the end of the chunk inside the next code, LAST decides (R207). -/
theorem CodesAhead.exec_at_chunk_end {y : Byte} (hp : part <+: symGet c y) (hne : part ≠ symGet c y)
    (hall : s.decCount.toNat + ys.length < s.total.toNat) (hend : s.ibitpos.toNat + bits.length = 8 * s.inLen.toNat) :
    exec (.decode false) s = .next { afterDecoding s ys bits.length n with
      lastOp := 0x09, stop := .inEmpty, irqStat := s.irqStat ||| 0b01#2, pending := none } ∧
    exec (.decode true) s = .next { afterDecoding s ys bits.length n with
      err := .truncatedPayload, lastOp := 0x09, stop := .error, irqStat := s.irqStat ||| 0b11#2, pending := none } := by
  obtain ⟨x, hx, hl⟩ := h.internalAt_part hp hne
  have h' := h.withLastOp 0x09
  have hcount := h'.fits.decCount_ne n hall
  have hpos := (h'.fits.ibitpos_toNat n).trans hend
  have htakes (last : Bool) := h'.loopTakes last ⟨x, hx, hl⟩ (.inl hall)
  constructor
  · exact hruns.exec_of_takes (htakes false) h.bits_le_decodeLeft (decodeTurn_at_chunk_end false hx hl hcount hpos)
  · rw [hruns.exec_of_takes (htakes true) h.bits_le_decodeLeft (decodeTurn_at_chunk_end true hx hl hcount hpos)]
    exact congrArg _ (finish_recordErr .truncatedPayload hruns.err)

/-- Before TOTAL is reached, with OBUF full, the last bit of the next code is read but not consumed (R208). -/
theorem CodesAhead.exec_outFull (last : Bool) {y : Byte} {bit : Bool} (hcode : symGet c y = part ++ [bit])
    (hbit : ibufBitsHold s s.ibitpos.toNat (bits ++ [bit])) (hall : s.decCount.toNat + ys.length < s.total.toNat)
    (hmore : s.ibitpos.toNat + bits.length < 8 * s.inLen.toNat) (hfull : s.outLen.toNat + ys.length = s.cfg.obufBytes) :
    exec (.decode last) s = .next { afterDecoding s ys bits.length n with
      lastOp := 0x09, stop := .outFull, irqStat := s.irqStat ||| 0b01#2, pending := none } := by
  obtain ⟨leaf, hd, e, he, hel, -⟩ := h.tree.code_descends (h.tree.occurs_of_code (y := y) (by simp [hcode]))
  rw [hcode] at hd
  obtain ⟨m, x, hm, hx, hl, rfl⟩ := descend_snoc hd
  cases h.partLeads.symm.trans hm
  have h' := h.withLastOp 0x09
  have hread := h'.fits.readBit_of_held n (ibufBitsHold_append.mp hbit).2
  exact hruns.exec_of_takes (h'.loopTakes last ⟨x, hx, hl⟩ (.inl hall)) h.bits_le_decodeLeft
    (decodeTurn_to_leaf_of_full last hx hl (h'.fits.ibitpos_ne n hmore) hread he (h'.fits.decCount_ne n hall) hel
      ((h'.fits.outLen_toNat n).trans hfull))

end

/-- Settles O38: the passes write ys and come to n, and the pass there ends the command: TOTAL is reached, the chunk is at its end,
or OBUF is full before the last bit of a code. -/
theorem decodeInvertsTheCodes : Obligations.DecodeInvertsTheCodes := by
  unfold Obligations.DecodeInvertsTheCodes
  intro s c seen bits part ys n x he hv ht h2 hc hseen hx hxl hsyms hcodes hpart hw hlen hin hroom
  have htree := codedTree_of_treeFromTable hv ht h2 hc
  have hruns : DecodeRuns s := ⟨he, hv, hlen, by omega, by omega⟩
  have ahead (hall : s.decCount.toNat + ys.length ≤ s.total.toNat) : CodesAhead s c seen bits part ys n :=
    ⟨htree, hseen, ⟨x, hx, hxl⟩, hsyms, hcodes, hpart, hw, hall, hroom, hin⟩
  refine ⟨fun last hp hall => (ahead hall.le).exec_done hruns last hp hall, fun y hall hp hne hend => ?_,
    fun last y bit hall hcode hbit hmore hfull => ?_⟩
  · exact (ahead hall.le).exec_at_chunk_end hruns hp hne hall hend
  · exact (ahead hall.le).exec_outFull hruns last hcode hbit hall hmore hfull

/-- Fewer bits than all the codes are those of some symbols and a proper part of the next symbol's code. -/
theorem take_payloadBits (c : Vector (List Bool) 256) {xs : List Byte} {k : Nat} (hk : k < (payloadBits c xs).length) :
    ∃ ys y zs part, xs = ys ++ y :: zs ∧ (payloadBits c xs).take k = payloadBits c ys ++ part ∧ part <+: symGet c y ∧
      part ≠ symGet c y := by
  induction xs generalizing k with
  | nil => simp [payloadBits] at hk
  | cons x xs ih =>
    have hcons : payloadBits c (x :: xs) = symGet c x ++ payloadBits c xs := List.flatMap_cons
    rw [hcons, List.length_append] at hk
    by_cases hx : k < (symGet c x).length
    · refine ⟨[], x, xs, (symGet c x).take k, rfl, ?_, List.take_prefix _ _, fun e => ?_⟩
      · rw [hcons, List.take_append_of_le_length hx.le]
        rfl
      · have := congrArg List.length e
        rw [List.length_take] at this
        omega
    · obtain ⟨ys, y, zs, part, rfl, htake, hp, hne⟩ := ih (k := k - (symGet c x).length) (by omega)
      refine ⟨x :: ys, y, zs, part, rfl, ?_, hp, hne⟩
      rw [hcons, List.take_append, List.take_of_length_le (Nat.le_of_not_lt hx), htake, ← List.append_assoc]
      rfl

/-- Settles O39: the chunk ends inside the code of one of the symbols that TOTAL still wants. -/
theorem shortPayloadIsTruncated : Obligations.ShortPayloadIsTruncated := by
  unfold Obligations.ShortPayloadIsTruncated
  intro s c xs he hv ht h2 hc hroot hsyms htotal hlen hpos hshort hw hroom
  have htree := codedTree_of_treeFromTable hv ht h2 hc
  have hruns : DecodeRuns s := ⟨he, hv, hlen, hpos, by omega⟩
  obtain ⟨ys, y, zs, part, rfl, htake, hp, hne⟩ :=
    take_payloadBits c (xs := xs) (k := 8 * s.inLen.toNat - s.ibitpos.toNat) (by omega)
  have hbits := congrArg List.length htake
  rw [List.length_take, Nat.min_eq_left (by omega)] at hbits
  rw [htake] at hw
  rw [List.length_append, List.length_cons] at htotal hroom
  obtain ⟨leaf, hd, -⟩ := htree.code_descends (hsyms y (by simp))
  obtain ⟨n, hn, -⟩ := internalAt_of_descend hd hp hne
  have hfits : DecodeFits s ys (payloadBits c ys ++ part).length := ⟨by omega, by omega, by omega⟩
  have ahead : CodesAhead s c [] (payloadBits c ys ++ part) part ys n :=
    ⟨htree, congrArg some hroot.symm, hroot ▸ htree.internalAt_root, fun y hy => hsyms y (List.mem_append_left _ hy), rfl, hn,
      hw, hfits⟩
  have hexec := (ahead.exec_at_chunk_end hruns hp hne (by omega) (by omega)).2
  refine ⟨_, hexec, rfl, rfl, (hfits.ibitpos_toNat n).trans (by omega), ?_, rfl⟩
  exact (hfits.decCount_toNat n).trans_lt (by omega)

/-! ### The payload of an input (R102, R210) -/

theorem getElem_packBits {k : Nat} {bits : List Bool} {i : Nat} (hi : i < (packBits k bits).length) :
    (packBits k bits)[i] = byteOfBits ((bits.drop (8 * i)).take 8) := by
  induction k generalizing bits i with
  | zero => simp at hi
  | succ k ih =>
    cases i with
    | zero => rfl
    | succ i =>
      refine (ih (bits := bits.drop 8) (Nat.lt_of_succ_lt_succ hi)).trans ?_
      rw [List.drop_drop, Nat.mul_add, Nat.mul_one, Nat.add_comm 8]

/-- Packed bits stand in the bit stream of their bytes. -/
theorem ibufBitsHold_of_packBits {s : State} {p k : Nat} {bits : List Bool} (h : ibufHolds s p (packBits k bits))
    (hk : bits.length ≤ 8 * k) : ibufBitsHold s (8 * p) bits := by
  intro j hj
  have hi : j / 8 < (packBits k bits).length := by rw [packBits_length]; omega
  refine ⟨_, by rw [show (8 * p + j) / 8 = p + j / 8 by omega]; exact h _ hi, ?_⟩
  rw [getElem_packBits, show (8 * p + j) % 8 = j % 8 by omega, streamBit, byteOfBits_getLsbD _ (Nat.mod_lt _ (by decide)),
    List.getD_eq_getElem?_getD, List.getElem?_take_of_lt (Nat.mod_lt _ (by decide)), List.getElem?_drop, Nat.div_add_mod,
    List.getElem?_eq_getElem hj, Option.getD_some]

theorem payload_length (c : Vector (List Bool) 256) (xs : List Byte) :
    (payload c xs).length = ((payloadBits c xs).length + 7) / 8 := packBits_length _ _

theorem ibufBitsHold_of_payload {s : State} {c : Vector (List Bool) 256} {xs : List Byte} {p : Nat}
    (h : ibufHolds s p (payload c xs)) : ibufBitsHold s (8 * p) (payloadBits c xs) :=
  ibufBitsHold_of_packBits h (by omega)

/-- In the table of one symbol the root is its leaf (R156). -/
theorem root_leaf_of_single {t : Vector Word 256} (h1 : symbolCount t = 1) :
    ∃ e, entryAt (buildArena t) (buildRoot t) = some e ∧ e.isLeaf = true ∧
      ∀ y, symGet t y ≠ 0 → y = e.sym.setWidth 8 := by
  obtain ⟨-, hl, -⟩ := (buildArena_layout (t := t) h1.ge).leaf 0 (by omega)
  rw [buildRoot_eq h1.ge, h1]
  refine ⟨_, entryAt_ofNat _ (by omega), hl, fun y hy => ?_⟩
  obtain ⟨k, hk, hsym⟩ := exists_leaf hy
  obtain rfl : k = 0 := by omega
  rw [hsym]
  bv_omega

/-- DECODE writes the symbols xs, consumes k bits, ends where it began and is DONE. -/
def DecodesAll (s : State) (xs : List Byte) (k : Nat) : Prop :=
  exec (.decode true) s = .next { afterDecoding s xs k s.decNode with
    lastOp := 0x09, stop := .done, irqStat := s.irqStat ||| 0b01#2, pending := none }

/-- The decoder is at its start over the tree of the counts of xs, with the payload of xs in the chunk from byte p on. -/
structure PayloadLoaded (s : State) (c : Vector (List Bool) 256) (xs : List Byte) (p : Nat) : Prop where
  runs : DecodeRuns s
  tree : treeFromTable s
  codes : codeTable s.node s.root s.nsym.toNat = .ok c
  counts : tableCounts s.freq xs
  total : s.total.toNat = xs.length
  start : s.decCount = 0
  atRoot : s.decNode = s.root
  bitPos : s.ibitpos.toNat = 8 * p
  chunk : s.inLen.toNat = p + (payload c xs).length
  held : ibufHolds s p (payload c xs)
  room : s.outLen.toNat + xs.length ≤ s.cfg.obufBytes

section
variable {s : State} {c : Vector (List Bool) 256} {xs : List Byte} {p : Nat} (h : PayloadLoaded s c xs p)
include h

theorem PayloadLoaded.decCount_toNat : s.decCount.toNat = 0 := congrArg BitVec.toNat h.start

theorem PayloadLoaded.occurs {x : Byte} (hx : x ∈ xs) : symGet s.freq x ≠ 0 := fun h0 => by
  have hcount := h.counts x
  rw [h0] at hcount
  exact (List.count_pos_iff.mpr hx).ne hcount

theorem PayloadLoaded.fits_nothing_read : DecodeFits s xs 0 :=
  ⟨by rw [h.decCount_toNat, h.total, Nat.zero_add], h.room, h.runs.input⟩

theorem PayloadLoaded.decodesAll_of_nil (hxs : xs = []) : DecodesAll s xs 0 := by
  subst hxs
  have hall : s.decCount = s.total := BitVec.eq_of_toNat_eq (by rw [h.decCount_toNat, h.total]; rfl)
  rw [DecodesAll, h.runs.exec_of_takes (.zero _ _) (Nat.zero_le _) (decodeTurn_done true hall), afterDecoding_nil]
  rfl

/-- The input of one symbol is that symbol again and again, which the root alone gives (R206). -/
theorem PayloadLoaded.decodesAll_of_single (h1 : symbolCount s.freq = 1) : DecodesAll s xs 0 := by
  obtain ⟨hnode, hroot, -⟩ := h.tree h.runs.valid
  obtain ⟨e, he, hl, hsingle⟩ := root_leaf_of_single h1
  rw [← hnode, ← hroot, ← h.atRoot] at he
  have hcount := h.decCount_toNat
  have htotal := h.total
  have hroom := h.room
  have hxs : xs = List.replicate xs.length (e.sym.setWidth 8) :=
    List.eq_replicate_iff.mpr ⟨rfl, fun y hy => hsingle y (h.occurs hy)⟩
  have hexec := h.runs.exec_at_leaf true he hl (by omega) (m := xs.length) (by omega)
  rwa [← hxs, if_pos (by omega)] at hexec

/-- The codes of two symbols or more are inverted, and the padding behind them is not read (R205). -/
theorem PayloadLoaded.decodesAll_of_two (h2 : 2 ≤ symbolCount s.freq) :
    DecodesAll s xs (payloadBits c xs).length ∧ DecodeFits s xs (payloadBits c xs).length := by
  have htree := codedTree_of_treeFromTable h.runs.valid h.tree h2 h.codes
  have hall : s.decCount.toNat + xs.length = s.total.toNat := by rw [h.decCount_toNat, h.total, Nat.zero_add]
  have hfits : DecodeFits s xs (payloadBits c xs).length := by
    have hbits := payload_length c xs
    have hpos := h.bitPos
    have hchunk := h.chunk
    exact ⟨hall.le, h.room, by omega⟩
  have ahead : CodesAhead s c [] (payloadBits c xs) [] xs s.root :=
    ⟨htree, congrArg some h.atRoot.symm, h.atRoot ▸ htree.internalAt_root, fun _ => h.occurs, (List.append_nil _).symm, rfl,
      h.bitPos ▸ ibufBitsHold_of_payload h.held, hfits⟩
  exact ⟨by rw [DecodesAll, h.atRoot]; exact ahead.exec_done h.runs true rfl hall, hfits⟩

theorem PayloadLoaded.decodesAll : ∃ k, DecodesAll s xs k ∧ DecodeFits s xs k := by
  rcases lt_or_ge (symbolCount s.freq) 2 with hlt | h2
  · cases xs with
    | nil => exact ⟨0, h.decodesAll_of_nil rfl, h.fits_nothing_read⟩
    | cons x xs =>
      obtain ⟨k, hk, -⟩ := exists_leaf (h.occurs List.mem_cons_self)
      exact ⟨0, h.decodesAll_of_single (by omega), h.fits_nothing_read⟩
  · exact ⟨_, h.decodesAll_of_two h2⟩

end

/-- Settles O41: what DECODE writes from OUT_LEN on is the input. -/
theorem payloadDecodesToItsInput : Obligations.PayloadDecodesToItsInput := by
  unfold Obligations.PayloadDecodesToItsInput
  intro s c xs p he hv ht hc hcounts htotal hzero hroot hpos hin hlen hw hroom
  have h : PayloadLoaded s c xs p :=
    ⟨⟨he, hv, hlen, by omega, by omega⟩, ht, hc, hcounts, htotal, hzero, hroot, hpos, hin, hw, hroom⟩
  obtain ⟨k, hexec, hfits⟩ := h.decodesAll
  have hcount := hfits.decCount_toNat s.decNode
  rw [h.decCount_toNat, Nat.zero_add, ← htotal] at hcount
  exact ⟨_, hexec, rfl, he, BitVec.eq_of_toNat_eq hcount, hfits.outLen_toNat s.decNode,
    fun j hj => Memory.read_writeList_at hj, afterDecoding_obufSameOutside s xs k s.decNode⟩

/-! ### Passes over any bits -/

/-- The symbol of a leaf in use occurs (R150, R153). -/
theorem TreeLayout.symbol_of_leaf {t : Vector Word 256} {a : Vector Entry 511} {n : Nat} (h : TreeLayout t a n)
    {x : Index} {e : Entry} (he : entryAt a x = some e) (hu : e.inUse = true) (hl : e.isLeaf = true) :
    symGet t (e.sym.setWidth 8) ≠ 0 := by
  obtain ⟨hx, rfl⟩ := nodeOf_of_entryAt he
  by_cases hxn : x.toNat < n
  · obtain ⟨-, -, -, -, b, hb, -, h0⟩ := h.leaf _ hxn
    rwa [hb, show (b.setWidth 9).setWidth 8 = b by bv_omega]
  by_cases hxt : x.toNat < 2 * n - 1
  · obtain ⟨-, hint, -⟩ := h.internal _ (by omega) hxt
    cases hint.symm.trans hl
  · simp [h.rest _ (by omega) hx, Entry.cleared] at hu

/-- t comes from s by passes that wrote symbols of the table, with a draw for each bit read from a byte that is not written. -/
def Decoded (s t : State) : Prop :=
  ∃ ys k n d, DecodeFits s ys k ∧ (∀ y ∈ ys, symGet s.freq y ≠ 0) ∧ t = { afterDecoding s ys k n with draws := d }

theorem Decoded.refl {s : State} (h : DecodeSafe s) : Decoded s s :=
  ⟨[], 0, s.decNode, s.draws, ⟨h.count, h.output, h.input⟩, nofun, by rw [afterDecoding_nil]⟩

theorem Decoded.trans {s t u : State} (h : Decoded s t) (h' : Decoded t u) : Decoded s u := by
  obtain ⟨ys, k, n, d, hfits, hsyms, rfl⟩ := h
  obtain ⟨zs, j, m, d', hfits', hsyms', rfl⟩ := h'
  obtain ⟨hall, hroom, hin⟩ := hfits'
  have hcount := hfits.decCount_toNat n
  have hout := hfits.outLen_toNat n
  have hpos := hfits.ibitpos_toNat n
  simp only [hcount, hout, hpos, afterDecoding_total, afterDecoding_cfg, afterDecoding_inLen] at hall hroom hin
  refine ⟨ys ++ zs, k + j, m, d', ⟨?_, ?_, by omega⟩, fun y hy => ?_, ?_⟩
  · rw [List.length_append]; omega
  · rw [List.length_append]; omega
  · exact (List.mem_append.mp hy).elim (hsyms y) (hsyms' y)
  · rw [← hfits.afterDecoding_append n]
    rfl

/-- The loop ends in t: TOTAL is reached, OBUF is full before a symbol, or the chunk is at its end inside a code. -/
def DecodeStops (last : Bool) (s t : State) (w : Stop) : Prop :=
  (w = .done ∧ t = s ∧ s.decCount = s.total) ∨
  (w = .outFull ∧ s.outLen.toNat = s.cfg.obufBytes ∧ ∃ d, t = { s with draws := d }) ∨
  (s.ibitpos.toNat = 8 * s.inLen.toNat ∧
    ((w = .inEmpty ∧ last = false ∧ t = s) ∨ (w = .error ∧ last = true ∧ t = recordErr .truncatedPayload s)))

/-- What a pass can do, whatever bit it reads. -/
theorem DecodeSafe.decodeTurn_cases (last : Bool) {s : State} (h : DecodeSafe s) :
    (∃ t, decodeTurn last s = .again t ∧ Decoded s t) ∨
      ∃ t w, decodeTurn last s = .ends t w ∧ DecodeStops last s t w := by
  by_cases hdone : s.decCount = s.total
  · exact .inr ⟨_, _, decodeTurn_done last hdone, .inl ⟨rfl, rfl, hdone⟩⟩
  have hall : s.decCount.toNat < s.total.toNat := lt_of_le_of_ne h.count fun e => hdone (BitVec.eq_of_toNat_eq e)
  obtain ⟨-, hlay⟩ := h.layout hdone
  obtain ⟨x, hx, hu⟩ := h.decNode_inUse hdone
  have hout := h.output
  have hin := h.input
  cases hl : x.isLeaf with
  | true =>
    by_cases hfull : s.outLen.toNat = s.cfg.obufBytes
    · exact .inr ⟨_, _, decodeTurn_at_leaf_of_full last hx hl hdone hfull, .inr (.inl ⟨rfl, hfull, _, rfl⟩)⟩
    · refine .inl ⟨_, decodeTurn_at_leaf last hx hl hall hfull, [_], 0, _, _, ⟨hall, lt_of_le_of_ne hout hfull, hin⟩, ?_,
        rfl⟩
      exact List.forall_mem_singleton.mpr (hlay.symbol_of_leaf hx hu hl)
  | false =>
    by_cases hend : s.ibitpos.toNat = 8 * s.inLen.toNat
    · have hturn := decodeTurn_at_chunk_end last hx hl hdone hend
      cases last with
      | true => exact .inr ⟨_, _, hturn, .inr (.inr ⟨hend, .inr ⟨rfl, rfl, rfl⟩⟩)⟩
      | false => exact .inr ⟨_, _, hturn, .inr (.inr ⟨hend, .inl ⟨rfl, rfl, rfl⟩⟩)⟩
    obtain ⟨bit, d, hread⟩ := readBit_eq s.ibitpos.toNat s
    obtain ⟨e, he, heu⟩ := hlay.childOf_inUse (symbolCount_le _) hx hu hl bit
    cases hel : e.isLeaf with
    | true =>
      by_cases hfull : s.outLen.toNat = s.cfg.obufBytes
      · exact .inr ⟨_, _, decodeTurn_to_leaf_of_full last hx hl hend hread he hdone hel hfull,
          .inr (.inl ⟨rfl, hfull, _, rfl⟩)⟩
      · refine .inl ⟨_, decodeTurn_to_leaf last hx hl hend hread he hall hel hfull, [_], 1, _, d,
          ⟨hall, lt_of_le_of_ne hout hfull, by omega⟩, ?_, rfl⟩
        exact List.forall_mem_singleton.mpr (hlay.symbol_of_leaf he heu hel)
    | false =>
      exact .inl ⟨_, decodeTurn_to_internal last hx hl hend hread he hdone hel, [], 1, _, d, ⟨hall.le, hout, by omega⟩,
        nofun, rfl⟩

/-- The loop ends behind some passes. -/
theorem decodeBody_next {last : Bool} {s t : State} {w : Stop} (hsafe : DecodeSafe s) (h : decodeBody last s = .next (t, w)) :
    ∃ u, Decoded s u ∧ DecodeStops last u t w := by
  refine loop_induct (I := fun u => DecodeSafe u ∧ Decoded s u) (Q := fun t w => ∃ u, Decoded s u ∧ DecodeStops last u t w)
    (fun u v hu e => ?_) (fun u t w hu e => ?_) _ s t w ⟨hsafe, .refl hsafe⟩ h
  · obtain ⟨hsafe, hu⟩ := hu
    refine ⟨?_, ?_⟩
    · rcases decodeTurn_advances last u hsafe with ⟨_, _, e'⟩ | ⟨v', e', hv, -⟩ <;> cases e.symm.trans e'
      exact hv
    · rcases hsafe.decodeTurn_cases last with ⟨v', e', hv⟩ | ⟨_, _, e', -⟩ <;> cases e.symm.trans e'
      exact hu.trans hv
  · obtain ⟨hsafe, hu⟩ := hu
    rcases hsafe.decodeTurn_cases last with ⟨_, e', -⟩ | ⟨_, _, e', hstop⟩ <;> cases e.symm.trans e'
    exact ⟨u, hu, hstop⟩

/-- How DECODE completes at u. -/
def DecodeOutcome (last : Bool) (u : State) (e : ErrCode) (st : Stop) (irq : BitVec 2) : Prop :=
  (st = .done ∧ u.decCount = u.total ∧ e = .none ∧ irq = u.irqStat ||| 0b01#2) ∨
  (st = .outFull ∧ u.outLen.toNat = u.cfg.obufBytes ∧ e = .none ∧ irq = u.irqStat ||| 0b01#2) ∨
  (st = .inEmpty ∧ last = false ∧ u.ibitpos.toNat = 8 * u.inLen.toNat ∧ e = .none ∧ irq = u.irqStat ||| 0b01#2) ∨
  (st = .error ∧ last = true ∧ u.ibitpos.toNat = 8 * u.inLen.toNat ∧ e = .truncatedPayload ∧ irq = u.irqStat ||| 0b11#2)

theorem DecodeStops.finish {last : Bool} {u t : State} {w : Stop} (h : DecodeStops last u t w) (he : u.err = .none) :
    ∃ e st irq d, DecodeOutcome last u e st irq ∧
      finish w t = { u with err := e, draws := d, stop := st, irqStat := irq, pending := none } := by
  rcases h with ⟨rfl, rfl, hall⟩ | ⟨rfl, hfull, d, rfl⟩ | ⟨hend, ⟨rfl, hlast, rfl⟩ | ⟨rfl, hlast, rfl⟩⟩
  · exact ⟨t.err, _, _, _, .inl ⟨rfl, hall, he, rfl⟩, rfl⟩
  · exact ⟨u.err, _, _, _, .inr (.inl ⟨rfl, hfull, he, rfl⟩), rfl⟩
  · exact ⟨t.err, _, _, _, .inr (.inr (.inl ⟨rfl, hlast, hend, he, rfl⟩)), rfl⟩
  · exact ⟨_, _, _, _, .inr (.inr (.inr ⟨rfl, hlast, hend, rfl, rfl⟩)), finish_recordErr .truncatedPayload he⟩

/-- Settles O40: the loop ends behind the symbols it wrote, and the command completes as the pass there ends. -/
theorem decodeCompletesOnAnyBits : Obligations.DecodeCompletesOnAnyBits := by
  unfold Obligations.DecodeCompletesOnAnyBits
  intro s last hinv he hv hlen hpos hout
  have hsafe : DecodeSafe s := ⟨hv, hinv.tree, hinv.frozen, hinv.descent, hinv.counters.2.1, hpos, hout⟩
  obtain ⟨⟨t, w⟩, hbody⟩ := decodeBody_ends last (hsafe.withLastOp 0x09)
  obtain ⟨u, ⟨ys, k, n, d', ⟨hall, hroom, hin⟩, hsyms, rfl⟩, hstop⟩ := decodeBody_next (hsafe.withLastOp 0x09) hbody
  obtain ⟨e, st, irq, d, houtcome, hfinish⟩ := hstop.finish he
  have hexec := DecodeRuns.exec_of_body ⟨he, hv, hlen, hpos, hout⟩ hbody
  rw [hfinish] at hexec
  have hfits : DecodeFits s ys k := ⟨hall, hroom, hin⟩
  exact ⟨_, ys, k, hexec, rfl, hsyms, hfits.ibitpos_toNat n, (hfits.ibitpos_toNat n).trans_le hin, hfits.decCount_toNat n,
    (hfits.decCount_toNat n).trans_le hall, hfits.outLen_toNat n, afterDecoding_obufSameOutside s ys k n, houtcome⟩

end Sys2Proof.Machine

/-! ERR keeps its first error (spec/60_exceptions.md R222, R229): what a completion records in ERR and IRQ_STAT[1], and what a
host access does to ERR. -/

namespace Sys2Proof.Machine

/-! ### What `raise` records (R222) -/

/-- From s to t, ERR and IRQ_STAT[1] move at most as `raise` moves them: a first error stays, a new error is signalled, and a
signal stays. -/
structure RaisesOnce (s t : State) : Prop where
  first : s.err ≠ .none → t.err = s.err
  signalled : t.err ≠ s.err → t.irqStat.getLsbD 1 = true
  kept : s.irqStat.getLsbD 1 = true → t.irqStat.getLsbD 1 = true

theorem RaisesOnce.of_eq {s t : State} (he : t.err = s.err) (hi : t.irqStat = s.irqStat) : RaisesOnce s t :=
  ⟨fun _ => he, fun h => absurd he h, fun h => hi ▸ h⟩

theorem RaisesOnce.refl (s : State) : RaisesOnce s s := .of_eq rfl rfl

theorem RaisesOnce.trans {s t u : State} (h : RaisesOnce s t) (h' : RaisesOnce t u) : RaisesOnce s u where
  first hs := (h'.first (h.first hs ▸ hs)).trans (h.first hs)
  signalled hu := by
    by_cases ht : t.err = s.err
    · exact h'.signalled (ht ▸ hu)
    · exact h'.kept (h.signalled ht)
  kept hs := h'.kept (h.kept hs)

/-- The relation reads ERR and IRQ_STAT alone of the state it starts from. -/
theorem RaisesOnce.of_same_start {s s' t : State} (h : RaisesOnce s' t) (he : s'.err = s.err)
    (hi : s'.irqStat = s.irqStat) : RaisesOnce s t :=
  (RaisesOnce.of_eq he hi).trans h

theorem recordErr_raisesOnce (e : ErrCode) (s : State) : RaisesOnce s (recordErr e s) := by
  by_cases hs : s.err = .none
  · have hbit : (recordErr e s).irqStat.getLsbD 1 = true := by simp [hs]
    exact ⟨fun h => absurd hs h, fun _ => hbit, fun _ => hbit⟩
  · exact .of_eq (by simp [hs]) (by simp [hs])

theorem finish_raisesOnce (w : Stop) (s : State) : RaisesOnce s (finish w s) :=
  ⟨fun _ => rfl, fun h => absurd rfl h, fun h => by simp [h]⟩

/-- An error raised after draws. -/
theorem recordErr_withDraws_raisesOnce (e : ErrCode) (s : State) (d : Nat) :
    RaisesOnce s (recordErr e { s with draws := d }) :=
  (recordErr_raisesOnce e { s with draws := d }).of_same_start rfl rfl

/-! ### The bodies of the commands (R121) -/

theorem countTurn_ends_raisesOnce {s t : State} {w : Stop} (h : countTurn s = .ends t w) : RaisesOnce s t := by
  unfold countTurn at h
  split at h
  · cases h; exact .refl s
  · obtain ⟨b, d, hb⟩ := readIbuf_eq s.ipos.toNat s
    simp only [hb] at h
    split at h <;> cases h
    exact recordErr_withDraws_raisesOnce .countOverflow s d

theorem countTurn_again_raisesOnce {s t : State} (h : countTurn s = .again t) : RaisesOnce s t := by
  unfold countTurn at h
  split at h
  · cases h
  · obtain ⟨b, d, hb⟩ := readIbuf_eq s.ipos.toNat s
    simp only [hb] at h
    split at h <;> cases h
    exact .of_eq rfl rfl

theorem encodeTurn_ends_raisesOnce {s t : State} {w : Stop} (h : encodeTurn s = .ends t w) : RaisesOnce s t := by
  unfold encodeTurn at h
  split at h
  · cases h; exact .refl s
  · obtain ⟨b, d, hb⟩ := readIbuf_eq s.ipos.toNat s
    simp only [hb] at h
    split at h
    · cases h; exact recordErr_withDraws_raisesOnce .noCode s d
    split at h
    · cases h; exact recordErr_withDraws_raisesOnce .excessSymbol s d
    split at h
    · cases h; exact .of_eq rfl rfl
    · split at h <;> cases h

theorem encodeTurn_again_raisesOnce {s t : State} (h : encodeTurn s = .again t) : RaisesOnce s t := by
  obtain ⟨b, d, c, n, -, -, -, -, rfl⟩ := encodeTurn_again h
  rw [putbits_frame]
  exact .of_eq rfl rfl

theorem decodeTurn_ends_raisesOnce {last : Bool} {s t : State} {w : Stop} (h : decodeTurn last s = .ends t w) :
    RaisesOnce s t := by
  unfold decodeTurn at h
  split at h
  · cases h; exact .refl s
  split at h
  · cases h
  split at h
  · split at h
    · cases h; exact .refl s
    · split at h <;> cases h
  split at h
  · split at h <;> cases h
    · exact recordErr_raisesOnce .truncatedPayload s
    · exact .refl s
  · obtain ⟨c, d, hc⟩ := readBit_eq s.ibitpos.toNat s
    simp only [hc] at h
    split at h
    · cases h
    split at h
    · split at h
      · cases h; exact .of_eq rfl rfl
      · split at h <;> cases h
    · cases h

theorem decodeTurn_again_raisesOnce {last : Bool} {s t : State} (h : decodeTurn last s = .again t) : RaisesOnce s t := by
  rcases decodeTurn_again h with e | ⟨-, b, e⟩ <;> rw [e] <;> exact .of_eq rfl rfl

theorem buildBody_raisesOnce {s t : State} {w : Stop} (h : buildBody s = .next (t, w)) : RaisesOnce s t := by
  unfold buildBody at h
  split at h <;> cases h
  · exact recordErr_raisesOnce .corruptHeader s
  · exact .of_eq rfl rfl

theorem hdrLoadBody_raisesOnce {s t : State} {w : Stop} (h : hdrLoadBody s = .next (t, w)) : RaisesOnce s t := by
  unfold hdrLoadBody at h
  split at h
  · cases h; exact recordErr_raisesOnce .corruptHeader s
  · obtain ⟨ws, d, hws⟩ := readWords_eq 257 s.ipos.toNat s
    simp only [hws] at h
    split at h <;> simp only [raise, stopWith, Host.Outcome.next.injEq, Prod.mk.injEq] at h <;> rw [← h.1]
    · exact recordErr_withDraws_raisesOnce .corruptHeader s d
    · exact .of_eq rfl rfl

theorem flushBody_raisesOnce {s t : State} {w : Stop} (h : flushBody s = .next (t, w)) : RaisesOnce s t := by
  unfold flushBody at h
  split at h
  · cases h; exact recordErr_raisesOnce .incomplete s
  split at h
  · split at h <;> cases h <;> exact .of_eq rfl rfl
  · cases h; exact .of_eq rfl rfl

/-- Of the bodies only CLEAR's moves ERR otherwise than by raising (R125). -/
theorem Ran.raisesOnce {i : Instr} {s t : State} {w : Stop} (h : Ran i s t w) (hi : i ≠ .clear) : RaisesOnce s t := by
  have hb := h.body
  cases i with
  | nop => exact nopBody_next hb ▸ .refl s
  | clear => exact absurd rfl hi
  | count => exact loop_rel (R := RaisesOnce) .refl .trans countTurn_again_raisesOnce countTurn_ends_raisesOnce hb
  | build => exact buildBody_raisesOnce hb
  | genCodes => obtain ⟨-, c, -, rfl⟩ := genCodesBody_next hb; exact .of_eq rfl rfl
  | hdrEmit => rcases hdrEmitBody_next hb with rfl | ⟨-, rfl⟩ <;> exact .of_eq rfl rfl
  | hdrLoad => exact hdrLoadBody_raisesOnce hb
  | encode => exact loop_rel (R := RaisesOnce) .refl .trans encodeTurn_again_raisesOnce encodeTurn_ends_raisesOnce hb
  | flush => exact flushBody_raisesOnce hb
  | decode last => exact loop_rel (R := RaisesOnce) .refl .trans decodeTurn_again_raisesOnce decodeTurn_ends_raisesOnce hb

/-! ### The completion (R121-R123) -/

theorem checkedBody_raisesOnce {i : Instr} (hi : i ≠ .clear) {s t : State} {w : Stop}
    (h : checkedBody i s = .next (t, w)) : RaisesOnce s t := by
  unfold checkedBody at h
  split at h
  · cases h; exact recordErr_raisesOnce .seq s
  rename_i hphase
  split at h
  · cases h; exact recordErr_raisesOnce .bounds s
  rename_i hbounds
  exact Ran.raisesOnce ⟨by simpa using hphase, by simpa using hbounds, h⟩ hi

/-- The frame writes LAST_OP before the body and sets IRQ_STAT[0] behind it, and leaves ERR to the body. -/
theorem completion_raisesOnce {w : Word} {body : State → Result} {s t : State} (h : completion w body s = .next t)
    (hbody : ∀ {u v st}, body u = .next (v, st) → RaisesOnce u v) : RaisesOnce s t := by
  have hop : RaisesOnce s { s with lastOp := opcodeByte w } := .of_eq rfl rfl
  rcases completion_next h with ⟨-, -, rfl⟩ | ⟨-, u, st, hb, rfl⟩
  · exact hop.trans (finish_raisesOnce _ _)
  · exact hop.trans ((hbody hb).trans (finish_raisesOnce _ _))

/-- The engine's turn completes CLEAR, or records at most one new error. -/
theorem engineStep_raisesOnce {s t : State} (h : engineStep s = .next t) :
    (s.pending = some clearWord ∧ t.err = .none) ∨ RaisesOnce s t := by
  cases hp : s.pending with
  | none =>
    rw [engineStep_idle hp] at h
    cases h
    exact .inr (.refl s)
  | some w =>
    cases hd : decode w with
    | error e =>
      rw [engineStep_invalid hp hd] at h
      exact .inr (completion_raisesOnce h fun hb => by cases hb; exact recordErr_raisesOnce .badCmd _)
    | ok i =>
      rw [engineStep_legal hp hd] at h
      by_cases hi : i = .clear
      · subst hi
        rw [clearResetsTheDatapath s] at h
        cases h
        exact .inl ⟨by rw [← encode_of_decode hd]; rfl, rfl⟩
      · rw [exec_eq_completion] at h
        exact .inr (completion_raisesOnce h (checkedBody_raisesOnce hi))

/-! ### The host's access (R26, R65, R224) -/

/-- A register is reached at its own offset alone (R60, R62). -/
theorem eq_offset_of_reach_reg {c : Config} {a : Offset} {w : Width} {r : Reg} (h : reach c a w = some (.reg r)) :
    w = .word ∧ a = BitVec.ofNat 16 r.offset := by
  unfold reach at h
  split at h
  case isFalse => cases h
  rename_i hw
  refine ⟨hw.1, ?_⟩
  simp only [target] at h
  split_ifs at h
  · obtain ⟨r', hfind, hr⟩ := Option.map_eq_some_iff.mp h
    cases hr
    have hoffset : r.offset = a.toNat := by simpa using List.find?_some hfind
    rw [hoffset, BitVec.ofNat_toNat, BitVec.setWidth_eq]
  all_goals cases h

/-- A write to a frozen table raises SEQ (R224). -/
theorem unlessFrozen_raisesOnce (write : State → State) {s : State} (h : RaisesOnce s (write s)) :
    RaisesOnce s (unlessFrozen write s) := by
  unfold unlessFrozen
  split
  · exact recordErr_raisesOnce .seq s
  · exact h

/-- A register write leaves ERR alone, except for a write to ERR_CLR and for one that raises. -/
theorem writeReg_err (r : Reg) (v : Word) (s : State) :
    (writeReg r v s).err = s.err ∨ (r = .errClr ∧ (writeReg r v s).err = .none) ∨ RaisesOnce s (writeReg r v s) := by
  cases r with
  | errClr => exact .inr (.inl ⟨rfl, rfl⟩)
  | total => exact .inr (.inr (unlessFrozen_raisesOnce (fun s => { s with total := v }) (.of_eq rfl rfl)))
  | _ => exact .inl rfl

theorem writeTarget_err (g : Target) (v : Word) (s : State) :
    (writeTarget g v s).err = s.err ∨ (g = .reg .errClr ∧ (writeTarget g v s).err = .none) ∨
      RaisesOnce s (writeTarget g v s) := by
  have reg (r : Reg) := writeReg_err r v s
  unfold writeTarget
  split
  · cases g with
    | reg r =>
      unfold writeBusy
      dsimp only
      split
      · exact .inr (.inr (recordErr_raisesOnce .busyWrite s))
      · simpa using reg r
    | _ => exact .inr (.inr (recordErr_raisesOnce .busyWrite s))
  · cases g with
    | reg r => simpa [writeIdle] using reg r
    | freq b =>
      exact .inr (.inr (unlessFrozen_raisesOnce (fun s => { s with freq := symSet s.freq b v }) (.of_eq rfl rfl)))
    | _ => exact .inl rfl

/-- A host access leaves ERR alone, except for a write to ERR_CLR and for one that raises. -/
theorem hostAccess_err (x : Access) (s : State) :
    (hostAccess x s).err = s.err ∨ (∃ v, x = .write 0x010#16 .word v ∧ (hostAccess x s).err = .none) ∨
      RaisesOnce s (hostAccess x s) := by
  cases x with
  | read a w => exact .inl (by rw [hostAccess_read_frame])
  | write a w v =>
    cases hg : reach s.cfg a w with
    | none => exact .inl (by rw [hostAccess_of_reach_none (.inr ⟨v, rfl⟩) hg]; rfl)
    | some g =>
      have hx : hostAccess (.write a w v) s = { writeTarget g v s with response := some ⟨0, false⟩ } := by
        simp only [hostAccess, hg]
      rw [hx]
      rcases writeTarget_err g v s with he | ⟨rfl, he⟩ | hr
      · exact .inl he
      · obtain ⟨rfl, rfl⟩ := eq_offset_of_reach_reg hg
        exact .inr (.inl ⟨v, rfl, he⟩)
      · exact .inr (.inr (hr.trans (.of_eq rfl rfl)))

/-! ### Every step -/

/-- A step leaves ERR alone, returns it to 0 in one of the three ways of R229, or records at most one new error (R222). -/
theorem step_err {s t : State} (h : step s = .next t) :
    t.err = s.err ∨
    (t.err = .none ∧
      ((∃ rest, s.timeline = .reset :: rest) ∨
       (∃ v rest, s.timeline = .host (.write 0x010#16 .word v) :: rest) ∨
       (s.pending = some clearWord ∧ (s.timeline = [] ∨ ∃ rest, s.timeline = .engine :: rest)))) ∨
    RaisesOnce s t := by
  rcases step_next h with ⟨x, rest, ht, rfl⟩ | ⟨rest, ht, rfl⟩ | ⟨ht, rest, he⟩
  · rcases hostAccess_err x { s with timeline := rest } with he | ⟨v, rfl, he⟩ | hr
    · exact .inl he
    · exact .inr (.inl ⟨he, .inr (.inl ⟨v, rest, ht⟩)⟩)
    · exact .inr (.inr (hr.of_same_start rfl rfl))
  · exact .inr (.inl ⟨rfl, .inl ⟨rest, ht⟩⟩)
  · rcases engineStep_raisesOnce he with ⟨hp, he⟩ | hr
    · exact .inr (.inl ⟨he, .inr (.inr ⟨hp, ht⟩)⟩)
    · exact .inr (.inr (hr.of_same_start rfl rfl))

/-- Settles O10: where ERR changes, a return to 0 is one of the three ways and no new error, and what raises does so from ERR = 0
and sets IRQ_STAT[1]. -/
theorem firstErrorIsKept : Obligations.FirstErrorIsKept := by
  unfold Obligations.FirstErrorIsKept
  intro s t h hne
  rcases step_err h with he | ⟨he, hway⟩ | hr
  · exact absurd he hne
  · exact ⟨fun _ => ⟨he, hway⟩, fun hs => absurd (he.trans hs.symm) hne⟩
  · exact ⟨fun hs => absurd (hr.first hs) hne, fun _ => hr.signalled hne⟩

end Sys2Proof.Machine

/-! The reset input (spec/70_reset_and_hazards.md R250, R251). -/

namespace Sys2Proof.Machine

theorem step_reset {s : State} {rest : List Event} (h : s.timeline = .reset :: rest) :
    step s = .next (hardwareReset { s with timeline := rest }) := by
  simp only [step, advance, h, takeEvent]

/-- Settles O13: a reset is taken whatever the command in flight, and what it leaves is the reset state of the build with the
model's own fields of `s`, which is the table of R250 field by field. -/
theorem resetInputGivesTheResetTable : Obligations.ResetInputGivesTheResetTable := by
  unfold Obligations.ResetInputGivesTheResetTable
  intro s rest ht
  rw [step_reset ht]
  rfl

end Sys2Proof.Machine
